-- ==== Sys2Proof/Word.lean ====
section
/-! DEFINITION. The word types of the block: bytes (spec/00_scope.md R12, R13) and thread names
(spec/60_exceptions.md R341). -/

namespace Sys2Proof

/-- A `u8` of the spec (R12). Bit 0 is the least significant bit (R13). -/
abbrev Byte := BitVec 8

/-- The identity of a host thread (R341). Every natural number names a thread, so every value of
the parameter `N_THREADS` is covered (log 24). -/
abbrev ThreadId := Nat

end Sys2Proof
end

