-- ==== Sys2Proof/Syntax.lean ====
section
/-! DEFINITION. The 36 commands of the host command port (spec/30_encoding.md R103), one constructor
for each row of spec/opcode_table.json. An operand is the raw field of the record (R102): the legal
values of a field are checked when the command runs (R105), and are listed in WellFormed. -/

namespace Sys2Proof

/-- A command with the operand fields of its record (R102, R103). A buffer handle is a byte
(R104). -/
inductive Instr where
  | regRead (a : Byte)
  | regWrite (a v : Byte)
  | regReadBurst (a : Byte) (n : BitVec 16) (buf : Byte)
  | regWriteBurst (a : Byte) (n : BitVec 16) (buf : Byte)
  | regChangeBits (a mask val : Byte)
  | regSetBits (a mask : Byte)
  | regClearBits (a mask : Byte)
  | testRegRead (ta : Byte)
  | testRegWrite (ta v : Byte)
  | fifoWrite (buf : Byte) (bits : BitVec 16)
  | fifoRead (buf : Byte)
  | directCmd (c : Byte)
  | lpExit
  | lpEnter
  | timerStartFc (t : Byte) (d : BitVec 32)
  | timerStartUs (t : Byte) (d : BitVec 32)
  | timerStop (t : Byte)
  | eventWait (tmo : BitVec 32)
  | abortRequest
  | setMode (mode tech : Byte)
  | resetMode
  | transmit (buf : Byte) (bits : BitVec 16)
  | receive (buf : Byte)
  | txShortFrame (k : Byte)
  | listenerSleep
  | listenerIdle
  | iso15693EncodeFrame (bin : Byte) (n : BitVec 32) (bout : Byte)
  | iso15693DecodeFrame (bin : Byte) (ibits : BitVec 32) (bout : Byte)
  | init
  | deinit
  | acquire
  | release
  | fieldOn
  | fieldDetectStart
  | fieldDetectStop
  | fieldPresent
  deriving DecidableEq, Repr, Inhabited

end Sys2Proof
end

