-- ==== Sys2Proof/Decode.lean ====
section
/-! DEFINITION. Decoding of command records and the encoder, both written from the table of
spec/30_encoding.md R103: byte 0 is the opcode, the operand fields follow, multi-byte fields
little-endian (R100). Decoding is total; it rejects an unknown opcode and a short record by name. -/

namespace Sys2Proof

/-- Why bytes are no command record. -/
inductive DecodeError where
  /-- The opcode is not in R103's table (R106). -/
  | illegalOpcode (opcode : Byte)
  /-- There are fewer bytes than the opcode's record has (R105). -/
  | shortRecord
  deriving DecidableEq, Repr

/-- What decoding answers: a command with the bytes after its record, or an error. -/
abbrev Decoded := Except DecodeError (Instr × List Byte)

/-- A 16-bit field from its two bytes, the low byte first (R100). -/
def le16 (b0 b1 : Byte) : BitVec 16 := b1 ++ b0

/-- A 32-bit field from its four bytes, the low byte first (R100). -/
def le32 (b0 b1 b2 b3 : Byte) : BitVec 32 := b3 ++ b2 ++ b1 ++ b0

/-- Byte `k` of a field, byte 0 the least significant (R100). -/
def byteAt {w : Nat} (v : BitVec w) (k : Nat) : Byte := v.extractLsb' (8 * k) 8

/-- The two record bytes of a 16-bit field (R100). -/
def bytes16 (v : BitVec 16) : List Byte := [byteAt v 0, byteAt v 1]

/-- The four record bytes of a 32-bit field (R100). -/
def bytes32 (v : BitVec 32) : List Byte := [byteAt v 0, byteAt v 1, byteAt v 2, byteAt v 3]

/-- A record with no operand. -/
def fields0 (i : Instr) (r : List Byte) : Decoded := .ok (i, r)

/-- One byte. -/
def fields1 (mk : Byte → Instr) : List Byte → Decoded
  | x :: r => .ok (mk x, r)
  | _ => .error .shortRecord

/-- Two bytes. -/
def fields11 (mk : Byte → Byte → Instr) : List Byte → Decoded
  | x :: y :: r => .ok (mk x y, r)
  | _ => .error .shortRecord

/-- Three bytes. -/
def fields111 (mk : Byte → Byte → Byte → Instr) : List Byte → Decoded
  | x :: y :: z :: r => .ok (mk x y z, r)
  | _ => .error .shortRecord

/-- A byte, a 16-bit field, a byte. -/
def fields121 (mk : Byte → BitVec 16 → Byte → Instr) : List Byte → Decoded
  | x :: n0 :: n1 :: y :: r => .ok (mk x (le16 n0 n1) y, r)
  | _ => .error .shortRecord

/-- A byte and a 16-bit field. -/
def fields12 (mk : Byte → BitVec 16 → Instr) : List Byte → Decoded
  | x :: n0 :: n1 :: r => .ok (mk x (le16 n0 n1), r)
  | _ => .error .shortRecord

/-- A byte and a 32-bit field. -/
def fields14 (mk : Byte → BitVec 32 → Instr) : List Byte → Decoded
  | x :: n0 :: n1 :: n2 :: n3 :: r => .ok (mk x (le32 n0 n1 n2 n3), r)
  | _ => .error .shortRecord

/-- A 32-bit field. -/
def fields4 (mk : BitVec 32 → Instr) : List Byte → Decoded
  | n0 :: n1 :: n2 :: n3 :: r => .ok (mk (le32 n0 n1 n2 n3), r)
  | _ => .error .shortRecord

/-- A byte, a 32-bit field, a byte. -/
def fields141 (mk : Byte → BitVec 32 → Byte → Instr) : List Byte → Decoded
  | x :: n0 :: n1 :: n2 :: n3 :: y :: r => .ok (mk x (le32 n0 n1 n2 n3) y, r)
  | _ => .error .shortRecord

/-- The operands of each opcode of R103's table; any other opcode is illegal (R106). -/
def decodeFields (opcode : Byte) (r : List Byte) : Decoded :=
  match opcode.toNat with
  | 0x01 => fields1 .regRead r
  | 0x02 => fields11 .regWrite r
  | 0x03 => fields121 .regReadBurst r
  | 0x04 => fields121 .regWriteBurst r
  | 0x05 => fields111 .regChangeBits r
  | 0x06 => fields11 .regSetBits r
  | 0x07 => fields11 .regClearBits r
  | 0x08 => fields1 .testRegRead r
  | 0x09 => fields11 .testRegWrite r
  | 0x0A => fields12 .fifoWrite r
  | 0x0B => fields1 .fifoRead r
  | 0x0C => fields1 .directCmd r
  | 0x10 => fields0 .lpExit r
  | 0x11 => fields0 .lpEnter r
  | 0x12 => fields14 .timerStartFc r
  | 0x13 => fields14 .timerStartUs r
  | 0x14 => fields1 .timerStop r
  | 0x15 => fields4 .eventWait r
  | 0x16 => fields0 .abortRequest r
  | 0x20 => fields11 .setMode r
  | 0x21 => fields0 .resetMode r
  | 0x22 => fields12 .transmit r
  | 0x23 => fields1 .receive r
  | 0x24 => fields1 .txShortFrame r
  | 0x25 => fields0 .listenerSleep r
  | 0x26 => fields0 .listenerIdle r
  | 0x30 => fields141 .iso15693EncodeFrame r
  | 0x31 => fields141 .iso15693DecodeFrame r
  | 0x40 => fields0 .init r
  | 0x41 => fields0 .deinit r
  | 0x42 => fields0 .acquire r
  | 0x43 => fields0 .release r
  | 0x44 => fields0 .fieldOn r
  | 0x45 => fields0 .fieldDetectStart r
  | 0x46 => fields0 .fieldDetectStop r
  | 0x47 => fields0 .fieldPresent r
  | _ => .error (.illegalOpcode opcode)

/-- The command that a record's bytes hold, with the bytes that follow the record. The record's
length is fixed by its opcode (R100). -/
def decode : List Byte → Decoded
  | [] => .error .shortRecord
  | opcode :: r => decodeFields opcode r

/-- The record of a command (R103). -/
def encode : Instr → List Byte
  | .regRead a => [0x01, a]
  | .regWrite a v => [0x02, a, v]
  | .regReadBurst a n buf => 0x03 :: a :: bytes16 n ++ [buf]
  | .regWriteBurst a n buf => 0x04 :: a :: bytes16 n ++ [buf]
  | .regChangeBits a mask val => [0x05, a, mask, val]
  | .regSetBits a mask => [0x06, a, mask]
  | .regClearBits a mask => [0x07, a, mask]
  | .testRegRead ta => [0x08, ta]
  | .testRegWrite ta v => [0x09, ta, v]
  | .fifoWrite buf bits => 0x0A :: buf :: bytes16 bits
  | .fifoRead buf => [0x0B, buf]
  | .directCmd c => [0x0C, c]
  | .lpExit => [0x10]
  | .lpEnter => [0x11]
  | .timerStartFc t d => 0x12 :: t :: bytes32 d
  | .timerStartUs t d => 0x13 :: t :: bytes32 d
  | .timerStop t => [0x14, t]
  | .eventWait tmo => 0x15 :: bytes32 tmo
  | .abortRequest => [0x16]
  | .setMode mode tech => [0x20, mode, tech]
  | .resetMode => [0x21]
  | .transmit buf bits => 0x22 :: buf :: bytes16 bits
  | .receive buf => [0x23, buf]
  | .txShortFrame k => [0x24, k]
  | .listenerSleep => [0x25]
  | .listenerIdle => [0x26]
  | .iso15693EncodeFrame bin n bout => 0x30 :: bin :: bytes32 n ++ [bout]
  | .iso15693DecodeFrame bin ibits bout => 0x31 :: bin :: bytes32 ibits ++ [bout]
  | .init => [0x40]
  | .deinit => [0x41]
  | .acquire => [0x42]
  | .release => [0x43]
  | .fieldOn => [0x44]
  | .fieldDetectStart => [0x45]
  | .fieldDetectStop => [0x46]
  | .fieldPresent => [0x47]

/-- The bytes in a record of a command (R103; `length_bytes` of spec/opcode_table.json). -/
def recordLength : Instr → Nat
  | .regRead _ | .testRegRead _ | .fifoRead _ | .directCmd _ | .timerStop _ | .receive _
  | .txShortFrame _ => 2
  | .regWrite _ _ | .regSetBits _ _ | .regClearBits _ _ | .testRegWrite _ _ | .setMode _ _ => 3
  | .regChangeBits _ _ _ | .fifoWrite _ _ | .transmit _ _ => 4
  | .regReadBurst _ _ _ | .regWriteBurst _ _ _ | .eventWait _ => 5
  | .timerStartFc _ _ | .timerStartUs _ _ => 6
  | .iso15693EncodeFrame _ _ _ | .iso15693DecodeFrame _ _ _ => 7
  | .lpExit | .lpEnter | .abortRequest | .resetMode | .listenerSleep | .listenerIdle | .init
  | .deinit | .acquire | .release | .fieldOn | .fieldDetectStart | .fieldDetectStop
  | .fieldPresent => 1

/-- The longest record, in bytes. -/
def maxRecord : Nat := 7

/-- The record bytes of a table word of `nbits` bits: byte `k` is bits `8k+7 .. 8k`, and the bits
from `nbits` up to the longest record are 0. -/
def tableWordBytes (nbits w : Nat) : List Byte :=
  (List.range maxRecord).map fun k => BitVec.ofNat 8 ((w % 2 ^ nbits) / 2 ^ (8 * k))

/-- The command the decoder reads from a table word. -/
def decodeTableWord (nbits w : Nat) : Option Instr :=
  match decode (tableWordBytes nbits w) with
  | .ok (i, _) => some i
  | .error _ => none

end Sys2Proof
end

