-- ==== Sys2Proof/Config.lean ====
section
/-! DEFINITION. The names the parameters range over, the parameters of spec/00_scope.md R11, the
constants the source or a decision of the spec fixes, and the free values (opaque constants).

The parameters are arguments of the step relation (spec/10_state.md R32,
spec/70_reset_and_hazards.md R363): one record `Params`, carried in the state's field `cfg`, which
no step writes (log 1). -/

namespace Sys2Proof

/-- The four card technologies (R3). -/
inductive Tech where
  | a | b | v | f
  deriving DecidableEq, Repr, Inhabited

/-- The two roles (R3). -/
inductive Role where
  | poller | listener
  deriving DecidableEq, Repr, Inhabited

/-- The non-zero codes of the closed error enumeration (spec/60_exceptions.md R321). `None` is the
absence of an error. -/
inductive Err where
  | busy | communication | communicationTimeout | oscillator | bufferOverflow | dataFormat
  | incompleteFrame
  deriving DecidableEq, Repr, Inhabited

/-- The driver commands of spec/41_driver.md: what a parameter sequence may hold (R232). A buffer
operand is a handle of the issuing thread, as in the command record (log 22). -/
inductive DriverCmd where
  | regRead (a : Byte)
  | regWrite (a v : Byte)
  | regReadBurst (a : Byte) (n : BitVec 16) (buf : Byte)
  | regWriteBurst (a : Byte) (n : BitVec 16) (buf : Byte)
  | regChangeBits (a mask val : Byte)
  | regSetBits (a mask : Byte)
  | regClearBits (a mask : Byte)
  | testRegRead (ta : Byte)
  | testRegWrite (ta v : Byte)
  | fifoWrite (buf : Byte) (bits : BitVec 16)
  | fifoRead (buf : Byte)
  | directCmd (c : Byte)
  deriving DecidableEq, Repr, Inhabited

/-- INIT's outcome (spec/45_controller.md R300): `choose err in {None, Communication,
Oscillator}`. -/
inductive Bringup where
  | ok | communication | oscillator
  deriving DecidableEq, Repr, Inhabited

/-- One value for each technology. -/
structure PerTech (α : Type) where
  a : α
  b : α
  v : α
  f : α
  deriving DecidableEq, Repr, Inhabited

/-- The value of a technology. -/
def PerTech.get {α : Type} (p : PerTech α) : Tech → α
  | .a => p.a
  | .b => p.b
  | .v => p.v
  | .f => p.f

/-- One value for each role and technology. -/
structure PerRole (α : Type) where
  poller : PerTech α
  listener : PerTech α
  deriving DecidableEq, Repr, Inhabited

/-- The value of a role and technology. -/
def PerRole.get {α : Type} (p : PerRole α) (r : Role) (t : Tech) : α :=
  match r with
  | .poller => p.poller.get t
  | .listener => p.listener.get t

/-- One row of the event map (spec/42_events_timers.md R214): the flags fired and the causes, and
the public events they map to. -/
structure EventRow where
  role : Role
  tech : Tech
  fired : BitVec 5
  causes : Nat
  events : BitVec 32
  deriving DecidableEq, Repr, Inhabited

/-- The parameters of spec/00_scope.md R11, the command bytes of spec/41_driver.md R159 among them.
Every claim that does not fix `cfg` holds for every value of them; what a value other than R11's
means where a rule writes R11's number out is log 21. Only the numbers that the source itself fixes
(`TX_SOF`, `TX_EOF`, `ENC_PAT[0 .. 2]`, `SOF_SIZE`, `SOF_MASK`, `TIMER_BITS`) are constants.

The two error parameters range over every error code, `CommunicationTimeout` among them: D36 and D40
let them be any error code, R322 and D30 say that no command returns that one. DESIGN CHOICE
(log 38). -/
structure Params where
  /-- `REG_ADDR_BITS`: the width of a register number (spec/20_memory.md R70). A mode byte has six
  places for it (R108). -/
  regAddrBits : Fin 7
  /-- `SPACE_B_BIT`: the bits of a 7-bit driver address that select space B
  (spec/20_memory.md R71). -/
  spaceBBit : BitVec 7
  /-- `SPI_REG_WRITE`: bits 7:6 of the first byte of a register write (R108). -/
  spiRegWrite : BitVec 2
  /-- `SPI_REG_READ`: bits 7:6 of the first byte of a register read (R108). -/
  spiRegRead : BitVec 2
  /-- `SPI_DIRECT_CMD`: bits 7:6 of a direct command (R108, R158). -/
  spiDirectCmd : BitVec 2
  /-- `ENC_PAT[3]`, pattern D (R112). -/
  encPat3 : Byte
  /-- `RX_SOF` (R113). -/
  rxSof : BitVec 5
  /-- `RX_EOF` (R113). -/
  rxEof : BitVec 5
  /-- `EOF_MASK` (R275). -/
  eofMask : BitVec 5
  /-- `PAT_MASK` (R276). -/
  patMask : BitVec 5
  /-- `RX_PAT0` (R113). -/
  rxPat0 : BitVec 5
  /-- `RX_PAT1` (R113). -/
  rxPat1 : BitVec 5
  /-- `DECODE_OVF_ERR` (R278). -/
  decodeOvfErr : Err
  /-- `RX_EMPTY_ERR` (R239). -/
  rxEmptyErr : Err
  /-- `SPI_FIFO_LOAD` (R108). -/
  spiFifoLoad : Byte
  /-- `SPI_FIFO_READ` (R108). -/
  spiFifoRead : Byte
  /-- `SPI_SPACE_B_PREFIX` (R109). -/
  spiSpaceBPrefix : Byte
  /-- `SPI_TEST_PREFIX` (R109). -/
  spiTestPrefix : Byte
  /-- `FIFO_SIZE` in bytes (R152). -/
  fifoSize : Nat
  /-- `FIFO_CNT_BITS`: the width of the FIFO byte count (R154). -/
  fifoCntBits : Nat
  /-- `REG_FIFO_STATUS1`, space A (R154). -/
  regFifoStatus1 : BitVec 6
  /-- `REG_FIFO_STATUS2`, space A (R154). No frame names it: the burst of R155 starts at
  `REG_FIFO_STATUS1` and its second byte is this register's (log 21). -/
  regFifoStatus2 : BitVec 6
  /-- `REG_TX_LEN1`, space A (R151). -/
  regTxLen1 : BitVec 6
  /-- `REG_TX_LEN2`, space A (R151). No frame names it: the burst of R152 starts at `REG_TX_LEN1`
  and its second byte goes to this register (log 21). -/
  regTxLen2 : BitVec 6
  /-- `REG_IRQ_STATUS_BASE`, space A (R185). -/
  regIrqStatusBase : BitVec 6
  /-- `N_IRQ_REGS` (R186). -/
  nIrqRegs : Nat
  /-- `REG_OP_CONTROL`, a driver address (R306). -/
  regOpControl : BitVec 7
  /-- `OPC_TX_EN` (R306). -/
  opcTxEn : Byte
  /-- `OPC_RX_EN`; only the default `FIELD_ON_SEQ` reads it (R306). -/
  opcRxEn : Byte
  /-- `REG_FIELD_ON_GT`, a driver address; only the default `FIELD_ON_SEQ` reads it (R306). -/
  regFieldOnGt : BitVec 7
  /-- `CMD_SET_DEFAULT`, named by R159; no rule sends it. -/
  cmdSetDefault : Byte
  /-- `CMD_TX_WITH_CRC`, named by R159; no rule sends it. -/
  cmdTxWithCrc : Byte
  /-- `CMD_TRANSPARENT`, named by R159; no rule sends it. -/
  cmdTransparent : Byte
  /-- `CMD_STOP` (R235). -/
  cmdStop : Byte
  /-- `CMD_CLEAR_FIFO` (R238). -/
  cmdClearFifo : Byte
  /-- `CMD_TX_WITHOUT_CRC` (R238). -/
  cmdTxWithoutCrc : Byte
  /-- `CMD_TX_REQA` (R245). -/
  cmdTxReqa : Byte
  /-- `CMD_TX_WUPA` (R245). -/
  cmdTxWupa : Byte
  /-- `CMD_GOTO_SENSE` (R249). -/
  cmdGotoSense : Byte
  /-- `CMD_GOTO_SLEEP` (R249). -/
  cmdGotoSleep : Byte
  /-- `TIMER_CLK_HZ` (R194). -/
  timerClkHz : Nat
  /-- `FC_HZ` (R194). -/
  fcHz : Nat
  /-- `COMP_P_FDT` (R199). -/
  compPFdt : PerTech Nat
  /-- `COMP_P_FWT` (R198). -/
  compPFwt : PerTech Nat
  /-- `COMP_L_FDT` (R199). -/
  compLFdt : PerTech Nat
  /-- `HAS_LISTENER` (R231). -/
  hasListener : PerTech Bool
  /-- `WAIT_MASK` (R211). -/
  waitMask : PerRole (BitVec 5)
  /-- Rows of `EVENT_MAP` given as data; elsewhere it is `Config.eventMap` (R214, log 18). -/
  eventRows : List EventRow
  /-- `ROLE_SETUP[Poller]` (R233); `ROLE_SETUP[Listener]` is the empty list. -/
  roleSetupPoller : List DriverCmd
  /-- `TECH_INIT` (R231). -/
  techInit : PerRole (List DriverCmd)
  /-- `TECH_DEINIT` (R234). -/
  techDeinit : PerRole (List DriverCmd)
  /-- `NEUTRAL_SEQ` (R234). -/
  neutralSeq : List DriverCmd
  /-- `A_CRC_CHECK_OFF` (R245). -/
  aCrcCheckOff : List DriverCmd
  /-- `BRINGUP_SEQ` (R312). -/
  bringupSeq : List DriverCmd
  /-- `DEINIT_SEQ` (R301). -/
  deinitSeq : List DriverCmd
  /-- `L_SLEEP`; for technology A without its last command, which R249 fixes. -/
  lSleep : PerTech (List DriverCmd)
  /-- `L_IDLE`; for technology A without its last command, which R249 fixes. -/
  lIdle : PerTech (List DriverCmd)
  /-- `FIELD_ON_SEQ` (R306). -/
  fieldOnSeq : List DriverCmd
  /-- `FIELD_DETECT_SEQ_ON` (R308). -/
  fieldDetectSeqOn : List DriverCmd
  /-- `FIELD_DETECT_SEQ_OFF` (R309). -/
  fieldDetectSeqOff : List DriverCmd
  /-- `FIELD_PRESENT_REG`, a driver address (R310). -/
  fieldPresentReg : BitVec 7
  /-- `FIELD_PRESENT_MASK` (R310). -/
  fieldPresentMask : Byte
  /-- `V_RAW_CAP` (R283). -/
  vRawCap : Nat
  /-- `V_TX_CAP` (R282). -/
  vTxCap : Nat
  /-- `DUR_BITS`: the width of duration and timeout operands (R102). Their record field has 32
  bits; an operand that needs more than `DUR_BITS` is out of range (log 21). -/
  durBits : Nat
  /-- `LOCK_TIMEOUT_MS` (R302). No rule compares it with elapsed time (R378, log 28). -/
  lockTimeoutMs : Nat
  /-- `N_THREADS` (R8, R341): read by `Execution`, the runs of Safety.lean; a state names threads
  without a bound (log 24). -/
  nThreads : Nat
  deriving DecidableEq, Repr, Inhabited

namespace Config

/-- `TX_SOF`, from the source's example (R112). -/
def txSof : Byte := 0x21

/-- `TX_EOF`, from the source's example (R112). -/
def txEof : Byte := 0x04

/-- `SOF_SIZE`, from the source (R274). -/
def sofSize : Nat := 5

/-- Microseconds in a second (R194). -/
def usPerSecond : Nat := 1000000

/-- The parameters of the machine at reset: any value. Nothing can be proved of it (log 1). -/
opaque params : Params

/-- Bytes the chip answers when `chipIn` holds no more (spec/10_state.md R48, log 2). -/
opaque chipByte : Nat → Byte

/-- Bytes the spec leaves unspecified (R279, and the `rbits` bytes of R155, R240; log 11, 13). -/
opaque freeByte : Nat → Byte

/-- INIT's outcome when `bringupIn` holds no more (R300, log 17). -/
opaque initOutcome : Nat → Bringup

/-- The level of the chip's interrupt line at reset (spec/10_state.md R46, log 15). -/
opaque irqLineAtReset : Bool

/-- `EVENT_MAP` where `eventRows` has no row (R214, log 18). -/
opaque eventMap : Role → Tech → BitVec 5 → Nat → BitVec 32

/-- The default `FIELD_ON_SEQ` (R306): the minimum guard time, then both enable bits. -/
def fieldOnDefault (regFieldOnGt regOpControl : BitVec 7) (opcRxEn opcTxEn : Byte) :
    List DriverCmd :=
  [.regWrite (regFieldOnGt.zeroExtend 8) 0x00,
   .regSetBits (regOpControl.zeroExtend 8) (opcRxEn ||| opcTxEn)]

/-- The defaults of spec/00_scope.md R11, for tests only. All chip numbers are the spec's
general-knowledge defaults (spec/93_implementation_defined.md G1 to G18): PRESUMED, unsafe as facts
about a chip. Where R11 gives no default (OPEN) the value is the model's choice, DESIGN CHOICE,
which no claim rests on: zero or empty, and 64 bytes for `V_RAW_CAP` and `V_TX_CAP`, 1000 for
`LOCK_TIMEOUT_MS`, 4 for `N_THREADS` (log 20). -/
def defaults : Params where
  regAddrBits := 6
  spaceBBit := 0x40
  spiRegWrite := 0b00
  spiRegRead := 0b01
  spiDirectCmd := 0b11
  encPat3 := 0x80
  rxSof := 0x17
  rxEof := 0x1D
  eofMask := 0x1F
  patMask := 0x03
  rxPat0 := 0x01
  rxPat1 := 0x02
  decodeOvfErr := .dataFormat
  rxEmptyErr := .bufferOverflow
  spiFifoLoad := 0x80
  spiFifoRead := 0x9F
  spiSpaceBPrefix := 0xFB
  spiTestPrefix := 0xFC
  fifoSize := 512
  fifoCntBits := 10
  regFifoStatus1 := 0x1E
  regFifoStatus2 := 0x1F
  regTxLen1 := 0x22
  regTxLen2 := 0x23
  regIrqStatusBase := 0x1A
  nIrqRegs := 4
  regOpControl := 0x02
  opcTxEn := 0x08
  opcRxEn := 0x40
  regFieldOnGt := 0x55
  cmdSetDefault := 0xC1
  cmdTxWithCrc := 0xC4
  cmdTransparent := 0xDC
  cmdStop := 0xC2
  cmdClearFifo := 0xDB
  cmdTxWithoutCrc := 0xC5
  cmdTxReqa := 0xC6
  cmdTxWupa := 0xC7
  cmdGotoSense := 0xCD
  cmdGotoSleep := 0xCE
  timerClkHz := 64000000
  fcHz := 13560000
  compPFdt := ⟨0, 0, 0, 0⟩
  compPFwt := ⟨0, 0, 0, 0⟩
  compLFdt := ⟨0, 0, 0, 0⟩
  hasListener := ⟨false, false, false, false⟩
  waitMask := ⟨⟨0, 0, 0, 0⟩, ⟨0, 0, 0, 0⟩⟩
  eventRows := []
  roleSetupPoller := []
  techInit := ⟨⟨[], [], [], []⟩, ⟨[], [], [], []⟩⟩
  techDeinit := ⟨⟨[], [], [], []⟩, ⟨[], [], [], []⟩⟩
  neutralSeq := []
  aCrcCheckOff := []
  bringupSeq := []
  deinitSeq := []
  lSleep := ⟨[], [], [], []⟩
  lIdle := ⟨[], [], [], []⟩
  fieldOnSeq := fieldOnDefault 0x55 0x02 0x40 0x08
  fieldDetectSeqOn := []
  fieldDetectSeqOff := []
  fieldPresentReg := 0x00
  fieldPresentMask := 0x00
  vRawCap := 64
  vTxCap := 64
  durBits := 32
  lockTimeoutMs := 1000
  nThreads := 4

end Config

end Sys2Proof
end

