-- ==== Sys2Proof/Machine/State.lean ====
section
/-! DEFINITION. The state: every component of spec/10_state.md R33 to R43, the drain agent of
spec/42_events_timers.md R184, the inputs of R46 to R50, and the model's own fields (named in
INVENTORY.md under State). The outcomes' reasons, and the state after reset (R52, R360). -/

namespace Sys2Proof.Machine

open Sys2Proof

/-- `S.PHASE` (R33). -/
inductive Phase where
  | uninit | ready
  deriving DecidableEq, Repr, Inhabited

/-- `S.MODE` (R35). -/
inductive Mode where
  | none | poller | listener
  deriving DecidableEq, Repr, Inhabited

/-- The two hardware timers (R42). -/
inductive TimerId where
  | fwt | btx
  deriving DecidableEq, Repr, Inhabited

/-- The internal event flags (R39). -/
inductive Flag where
  | abort | irq | fwtExp | btxExp | trxRx
  deriving DecidableEq, Repr, Inhabited

/-- The IRQ agent's states (spec/42_events_timers.md R184). -/
inductive IrqAgent where
  | idle | draining
  deriving DecidableEq, Repr, Inhabited

/-- The fatal codes (spec/60_exceptions.md R325). -/
inductive FatalCode where
  | nullArg | noLock | noMode | timerRunning | timerRange | encodeCapacity | encodeLength
  | notHolder | contextLive | noListener | lowPower | illegalCommand | badOperand | notInit
  | role | unmodelled
  deriving DecidableEq, Repr, Inhabited

/-- `S.TMR[t]` (R42). -/
structure Timer where
  /-- The timer is initialised. -/
  init : Bool
  /-- The timer runs. -/
  run : Bool
  /-- It has expired and its flag is not delivered yet. -/
  pend : Bool
  /-- The programmed prescaler. -/
  psc : BitVec 16
  /-- The programmed auto-reload value. -/
  arr : BitVec 16
  deriving DecidableEq, Repr, Inhabited

/-- `S.WAITER`: the thread blocked in EVENT_WAIT with its timeout in milliseconds (R41). -/
structure Waiter where
  thread : ThreadId
  tmo : BitVec 32
  deriving DecidableEq, Repr, Inhabited

/-- Bytes by index in the one canonical form: indexes strictly rising, and no entry equal to what
an unlisted index reads as. -/
abbrev Memory := List Host.Cell

/-- A host buffer (R50): its capacity in bytes and its bytes. -/
structure Buffer where
  cap : Nat
  mem : Memory
  deriving DecidableEq, Repr, Inhabited

/-- One serial-bus transaction (spec/00_scope.md R16): the bytes sent and the bytes received. -/
structure BusFrame where
  tx : List Byte
  rx : List Byte
  deriving DecidableEq, Repr, Inhabited

/-- A result record (spec/30_encoding.md R101) with the thread it is returned to. -/
structure Result where
  thread : ThreadId
  record : List Byte
  deriving DecidableEq, Repr, Inhabited

/-- A step of an agent other than a host thread's command. A step that is not enabled changes
nothing (log 4). -/
inductive AgentStep where
  /-- The chip drives IRQ_LINE (R46). -/
  | line (level : Bool)
  /-- The IRQ agent goes from Idle to Draining (spec/42_events_timers.md R184). -/
  | drainEnter
  /-- One step of the drain loop (R185). -/
  | drainStep
  /-- A timer expires (R202). -/
  | expire (t : TimerId)
  /-- A timer's flag is delivered (R203). -/
  | deliver (t : TimerId)
  /-- The abort source sets `Abort` (R191). -/
  | abort
  /-- The input event TRX_IN (R192). -/
  | trxIn
  /-- A blocked ACQUIRE times out (spec/45_controller.md R302). -/
  | acquireTimeout (thread : ThreadId)
  deriving DecidableEq, Repr, Inhabited

/-- What may stand between two bus frames of a command in progress (spec/20_memory.md R86). -/
inductive WindowStep where
  /-- A step of an agent. -/
  | agent (step : AgentStep)
  /-- Another thread issues a command record: the command runs to its end, or up to the place before
  its second bus frame. -/
  | command (thread : ThreadId) (record : List Byte)
  /-- Another thread's command that has sent a frame goes on with its next one. -/
  | resume (thread : ThreadId)
  /-- Another host thread gives one of its buffers its size and its bytes (spec/10_state.md R50). -/
  | hostBuffer (thread : ThreadId) (handle : Byte) (bytes : List Byte)
  /-- A thread blocked in ACQUIRE takes the free lock (spec/45_controller.md R302): between DEINIT's
  frames. -/
  | acquireTake (thread : ThreadId)
  /-- Another thread blocked in EVENT_WAIT is woken by a flag (spec/42_events_timers.md R210):
  between DEINIT's frames. -/
  | wake
  /-- The timeout of that EVENT_WAIT elapses (R215). -/
  | waitTimeout
  /-- The reset event (spec/70_reset_and_hazards.md R360); the command in progress is gone. -/
  | reset
  deriving DecidableEq, Repr, Inhabited

/-- What the machine's next step is. -/
inductive SchedItem where
  /-- A thread issues a command record; `windows` holds, for each pair of its successive bus
  frames, the steps other agents take between them. -/
  | command (thread : ThreadId) (record : List Byte) (windows : List (List WindowStep))
  /-- A step of an agent. -/
  | agent (step : AgentStep)
  /-- A thread blocked in ACQUIRE takes the free lock (spec/45_controller.md R302). -/
  | acquireTake (thread : ThreadId)
  /-- The thread blocked in EVENT_WAIT is woken by a flag (spec/42_events_timers.md R210). -/
  | wake
  /-- The timeout of the blocked EVENT_WAIT elapses (R215). -/
  | waitTimeout
  /-- A host thread gives one of its buffers its size and its bytes (R50). -/
  | hostBuffer (thread : ThreadId) (handle : Byte) (bytes : List Byte)
  /-- The reset event (spec/70_reset_and_hazards.md R360). -/
  | reset
  deriving DecidableEq, Repr, Inhabited

/-- Why the machine stops. -/
inductive Fault where
  /-- Raised by every step but the reset event while `S.FAULT` is set: "no agent of the model
  takes a step" (spec/60_exceptions.md R327). Safe: the spec gives no step here. -/
  | halted (code : FatalCode)
  deriving DecidableEq, Repr

/-- Why the model gives a step no meaning. -/
inductive Refusal where
  /-- Raised by an arm of `exec` whose instruction has no meaning yet. Safe. -/
  | notModelled (mnemonic : String)
  /-- Raised by `step` for a record shorter than its opcode's length, which cannot be issued
  (spec/30_encoding.md R105, log 25). Safe. -/
  | shortRecord
  deriving DecidableEq, Repr

structure State where
  /-- The parameters (spec/00_scope.md R11); no step writes them (spec/10_state.md R32). -/
  cfg : Params
  /-- `S.PHASE` (R33). -/
  phase : Phase
  /-- `S.LP` (R34). -/
  lp : Bool
  /-- `S.MODE` (R35). -/
  mode : Mode
  /-- `S.TECH` (R36); `none` is NoTech. -/
  tech : Option Tech
  /-- `S.CTX` (R37); `none` is NoCtx. -/
  ctx : Option Tech
  /-- `S.HOLDER` (R38); `none` is Free. -/
  holder : Option ThreadId
  /-- `S.EVF` (R39). -/
  evf : BitVec 5
  /-- `S.IRQACC` (R40), below `2^(8·N_IRQ_REGS)`. -/
  irqAcc : Nat
  /-- `S.WAITER` (R41). -/
  waiter : Option Waiter
  /-- `S.TMR[FWT]` (R42). -/
  fwt : Timer
  /-- `S.TMR[BTX]` (R42). -/
  btx : Timer
  /-- `S.FAULT` (R43). -/
  fault : Option FatalCode
  /-- The IRQ agent's state (spec/42_events_timers.md R184). -/
  irqAgent : IrqAgent
  /-- `IRQ_LINE` (R46), an input. -/
  irqLine : Bool
  /-- The host-buffer table (R50, spec/30_encoding.md R104) by `bufKey`, keys strictly rising. -/
  bufs : List (Nat × Buffer)
  /-- The threads blocked in ACQUIRE (spec/45_controller.md R302). -/
  acquirers : List ThreadId
  /-- The thread whose command is issued (spec/30_encoding.md R100). -/
  cur : ThreadId
  /-- For the command in progress, the steps of other agents between its frames (log 3). -/
  windows : List (List WindowStep)
  /-- The coming steps (log 4). -/
  sched : List SchedItem
  /-- Answer bytes the chip has ready (R48, log 2). -/
  chipIn : List Byte
  /-- Bring-up outcomes decided from outside (spec/45_controller.md R300, log 17). -/
  bringupIn : List Bringup
  /-- How many free values were taken (log 31). -/
  draws : Nat
  /-- The bus frames sent, oldest first (log 23). -/
  bus : List BusFrame
  /-- The result records returned, oldest first (log 23). -/
  results : List Result
  deriving DecidableEq, Repr

/-- A command, or a part of one, cut at the places where other agents may step: between two of its
bus frames (spec/20_memory.md R86). -/
inductive Prog (α : Type) where
  /-- It is done, with a value. -/
  | go (a : α) (s : State)
  /-- It takes no further step: the command blocks. -/
  | stop (s : State)
  /-- Its last step is not enabled after what other agents did between its frames: so the command has
  no run, and nothing of it happens (log 7). -/
  | void
  /-- A frame is sent and another one comes: it goes on in the state the other agents leave. -/
  | gap (s : State) (next : State → Prog α)

/-- A command of another thread that has sent a frame and not its last one. -/
structure Pending where
  thread : ThreadId
  next : State → Prog (List Byte)

/-- What a command answers, the other agents' steps between its frames taken. -/
inductive Run (α : Type) where
  /-- It is done, with a value. -/
  | go (a : α) (s : State)
  /-- It takes no further step: the block halted or was reset between two frames, or the command
  blocks. -/
  | stop (s : State)
  /-- It has no run with those steps between its frames. -/
  | void

/-- A timer torn down with its registers at 0 (R42's reset value). -/
def Timer.reset : Timer := { init := false, run := false, pend := false, psc := 0, arr := 0 }

/-- The machine after reset: the block state is exactly that of spec/10_state.md R52; the drain
agent is Idle and no command is in progress (spec/70_reset_and_hazards.md R360). The parameters and
the interrupt line are free values (log 1, log 15); the model's own fields are empty or 0. -/
def State.reset : State where
  cfg := Config.params
  phase := .uninit
  lp := true
  mode := .none
  tech := none
  ctx := none
  holder := none
  evf := 0
  irqAcc := 0
  waiter := none
  fwt := Timer.reset
  btx := Timer.reset
  fault := none
  irqAgent := .idle
  irqLine := Config.irqLineAtReset
  bufs := []
  acquirers := []
  cur := 0
  windows := []
  sched := []
  chipIn := []
  bringupIn := []
  draws := 0
  bus := []
  results := []

end Sys2Proof.Machine
end

