-- ==== Sys2Proof/WellFormed.lean ====
section
/-! DEFINITION. The operand values that the rules of spec/ admit whatever the state is. A command
that is not well formed still has a meaning: it fails its BAD_OPERAND check (R105). -/

namespace Sys2Proof

/-- The bits of a byte that hold a register number: the low `REG_ADDR_BITS`
(spec/20_memory.md R70). -/
def regMask (cfg : Params) : Byte := BitVec.ofNat 8 (2 ^ cfg.regAddrBits.val - 1)

/-- A driver address has no bit set but those of the register number and `SPACE_B_BIT`: with R11's
values, 7 bits (spec/20_memory.md R71, spec/92_eei_decisions.md D3, log 21). -/
def driverAddrOk (cfg : Params) (a : Byte) : Bool :=
  decide (a &&& ~~~(cfg.spaceBBit.zeroExtend 8 ||| regMask cfg) = 0)

/-- A test register number has `REG_ADDR_BITS` bits (spec/20_memory.md R72). -/
def testAddrOk (cfg : Params) (ta : Byte) : Bool := decide (ta.toNat < 2 ^ cfg.regAddrBits.val)

/-- A burst moves at least one byte and stays inside its space of `2^REG_ADDR_BITS` registers
(spec/20_memory.md R80, R81). -/
def burstOk (cfg : Params) (a : Byte) (n : BitVec 16) : Bool :=
  driverAddrOk cfg a && decide (n.toNat ≠ 0) &&
    decide ((a &&& regMask cfg).toNat + n.toNat ≤ 2 ^ cfg.regAddrBits.val)

/-- A direct command byte has the bits 7:6 of `SPI_DIRECT_CMD` and is no prefix byte
(spec/41_driver.md R158). -/
def directOk (cfg : Params) (c : Byte) : Bool :=
  decide (c.extractLsb' 6 2 = cfg.spiDirectCmd) && decide (c ≠ cfg.spiSpaceBPrefix) &&
    decide (c ≠ cfg.spiTestPrefix)

/-- A duration or timeout has `DUR_BITS` bits (spec/00_scope.md R11, spec/30_encoding.md R102). -/
def durOk (cfg : Params) (d : BitVec 32) : Bool := decide (d.toNat < 2 ^ cfg.durBits)

/-- The operands of a command are among the values the rules list: R71, R72, R80, R81, R102, R105,
R152, R158, R197 and, for the encoder's bit count, R264. -/
def Instr.wf (cfg : Params) : Instr → Bool
  | .regRead a => driverAddrOk cfg a
  | .regWrite a _ => driverAddrOk cfg a
  | .regReadBurst a n _ => burstOk cfg a n
  | .regWriteBurst a n _ => burstOk cfg a n
  | .regChangeBits a _ _ => driverAddrOk cfg a
  | .regSetBits a _ => driverAddrOk cfg a
  | .regClearBits a _ => driverAddrOk cfg a
  | .testRegRead ta => testAddrOk cfg ta
  | .testRegWrite ta _ => testAddrOk cfg ta
  | .fifoWrite _ bits => decide (bits.toNat ≠ 0)
  | .fifoRead _ => true
  | .directCmd c => directOk cfg c
  | .lpExit => true
  | .lpEnter => true
  | .timerStartFc t d => decide (t.toNat < 2) && durOk cfg d
  | .timerStartUs t d => decide (t.toNat = 1) && durOk cfg d
  | .timerStop t => decide (t.toNat < 2)
  | .eventWait tmo => durOk cfg tmo
  | .abortRequest => true
  | .setMode mode tech => decide (mode.toNat = 1 ∨ mode.toNat = 2) && decide (tech.toNat < 4)
  | .resetMode => true
  | .transmit _ _ => true
  | .receive _ => true
  | .txShortFrame k => decide (k.toNat < 2)
  | .listenerSleep => true
  | .listenerIdle => true
  | .iso15693EncodeFrame bin n bout => decide (n.toNat % 8 = 0) && decide (bin ≠ bout)
  | .iso15693DecodeFrame _ _ _ => true
  | .init => true
  | .deinit => true
  | .acquire => true
  | .release => true
  | .fieldOn => true
  | .fieldDetectStart => true
  | .fieldDetectStop => true
  | .fieldPresent => true

end Sys2Proof
end

