-- ==== Sys2Proof/Machine/Ops.lean ====
section
/-! DEFINITION. The named operations: bytes of a buffer, the host-buffer table, fault entry and the
reset event (the only way out of a fault), results, free values and chip answers, one bus frame, and
the shape of a command: its checks, then its effect. -/

namespace Sys2Proof.Machine

open Sys2Proof

/-! ## Bytes by index -/

/-- What an index that is not listed reads as. DESIGN CHOICE, unsafe: the spec gives a host buffer
no contents (log 14). -/
def memFill : Byte := 0x00

/-- The byte at an index. -/
def Memory.read : Memory → Nat → Byte
  | [], _ => memFill
  | (a, v) :: r, i => if i = a then v else Memory.read r i

/-- Write one byte, keeping the canonical form. -/
def Memory.write : Memory → Nat → Byte → Memory
  | [], i, b => if b = memFill then [] else [(i, b)]
  | (a, v) :: r, i, b =>
    if i < a then (if b = memFill then (a, v) :: r else (i, b) :: (a, v) :: r)
    else if i = a then (if b = memFill then r else (i, b) :: r)
    else (a, v) :: Memory.write r i b

/-- Write bytes at successive indexes from `i`. -/
def Memory.writeList (m : Memory) (i : Nat) : List Byte → Memory
  | [] => m
  | b :: bs => Memory.writeList (Memory.write m i b) (i + 1) bs

/-- The indexes are strictly rising from `lo`, below `hi`, and no entry equals the fill byte. -/
def Memory.wfBetween (lo hi : Nat) : Memory → Bool
  | [] => true
  | (a, v) :: r => decide (lo ≤ a) && decide (a < hi) && decide (v ≠ memFill)
      && Memory.wfBetween (a + 1) hi r

/-- The canonical form of a buffer's bytes: indexes strictly rising and inside the capacity, no
entry equal to what an unlisted index reads as. -/
def Memory.wf (cap : Nat) (m : Memory) : Bool := Memory.wfBetween 0 cap m

/-! ## The host-buffer table (spec/30_encoding.md R104) -/

/-- Where the table holds the buffer of a thread's handle. Every handle of a thread has a key, so a
capacity and bytes, of its own: R104 maps a handle to a buffer or to nothing and does not say
whether two handles may name one buffer. DESIGN CHOICE, unsafe: here they never do (log 35). -/
def bufKey (t : ThreadId) (h : Byte) : Nat := t * 256 + h.toNat

/-- The entry at a key. -/
def bufGet : List (Nat × Buffer) → Nat → Option Buffer
  | [], _ => none
  | (k, b) :: r, i => if i = k then some b else bufGet r i

/-- Put an entry at its key, keeping the keys strictly rising. -/
def bufPut : List (Nat × Buffer) → Nat → Buffer → List (Nat × Buffer)
  | [], i, b => [(i, b)]
  | (k, c) :: r, i, b =>
    if i < k then (i, b) :: (k, c) :: r
    else if i = k then (i, b) :: r
    else (k, c) :: bufPut r i b

/-- The keys are strictly rising from `lo` and every buffer's bytes are in canonical form. -/
def bufsWfFrom (lo : Nat) : List (Nat × Buffer) → Bool
  | [] => true
  | (k, b) :: r => decide (lo ≤ k) && Memory.wf b.cap b.mem && bufsWfFrom (k + 1) r

/-- The canonical form of the host-buffer table. -/
def bufsWf (m : List (Nat × Buffer)) : Bool := bufsWfFrom 0 m

/-- The buffer a thread's handle names: handle 0xFF and a handle that maps to nothing are absent
(R104). Two handles name two buffers (log 35). -/
def State.buffer (s : State) (t : ThreadId) (h : Byte) : Option Buffer :=
  if h = 0xFF then none else bufGet s.bufs (bufKey t h)

/-- The buffer is absent (spec/00_scope.md R18). -/
def State.absent (s : State) (t : ThreadId) (h : Byte) : Bool := (s.buffer t h).isNone

/-- `cap(B)` (spec/00_scope.md R15); 0 for an absent buffer, which every rule checks first. -/
def State.cap (s : State) (t : ThreadId) (h : Byte) : Nat := ((s.buffer t h).map Buffer.cap).getD 0

/-- `B[i]` (spec/00_scope.md R15). -/
def State.bufByte (s : State) (t : ThreadId) (h : Byte) (i : Nat) : Byte :=
  ((s.buffer t h).map fun b => Memory.read b.mem i).getD memFill

/-- `B[0 .. n-1]`. -/
def State.bufBytes (s : State) (t : ThreadId) (h : Byte) (n : Nat) : List Byte :=
  (List.range n).map (s.bufByte t h)

/-- `for j: B[j] <- bytes[j]`; the other bytes keep their values (spec/10_state.md R51). The checks
of a command leave room for all its bytes; of those that a sequence stores unchecked, the ones past
the capacity are dropped (log 22). -/
def State.store (s : State) (t : ThreadId) (h : Byte) (bytes : List Byte) : State :=
  match s.buffer t h with
  | none => s
  | some b =>
    { s with
      bufs := bufPut s.bufs (bufKey t h)
        { b with mem := Memory.writeList b.mem 0 (bytes.take b.cap) } }

/-- A buffer of a given size and contents. -/
def bufferOf (bytes : List Byte) : Buffer :=
  { cap := bytes.length, mem := Memory.writeList [] 0 bytes }

/-- A host thread gives one of its handles a buffer (R50); handle 0xFF names none (R104). -/
def State.giveBuffer (s : State) (t : ThreadId) (h : Byte) (bytes : List Byte) : State :=
  if h = 0xFF then s else { s with bufs := bufPut s.bufs (bufKey t h) (bufferOf bytes) }

/-! ## Fault entry and the way out (spec/60_exceptions.md R326, R327, R336) -/

/-- Fault entry: `S.FAULT <- code` and nothing else (R326). The command returns no result. -/
def State.takeFault (s : State) (c : FatalCode) : State := { s with fault := some c }

/-- The block is halted (R327). -/
def State.halted (s : State) : Bool := s.fault.isSome

/-- The reset event: the block state becomes exactly that of spec/10_state.md R52
(spec/70_reset_and_hazards.md R360), which alone leaves a fault (R336). The parameters (R363), the
chip and its line (R362), the host's buffers, the coming steps and what was sent and returned are
not the block's state and stay (log 16). -/
def State.blockReset (s : State) : State :=
  { State.reset with
    cfg := s.cfg, irqLine := s.irqLine, bufs := s.bufs, cur := s.cur, sched := s.sched,
    chipIn := s.chipIn, bringupIn := s.bringupIn, draws := s.draws, bus := s.bus,
    results := s.results }

/-! ## Results (spec/30_encoding.md R101, spec/60_exceptions.md R321) -/

/-- The number of an error (R321). -/
def Err.code : Err → Byte
  | .busy => 1
  | .communication => 2
  | .communicationTimeout => 3
  | .oscillator => 4
  | .bufferOverflow => 5
  | .dataFormat => 6
  | .incompleteFrame => 7

/-- The result record of a command that ends without error: byte 0 is 0, the outputs follow. -/
def okRecord (outputs : List Byte) : List Byte := 0x00 :: outputs

/-- The result record of an error: byte 0 is its code, then the bytes in the outputs' place. -/
def errRecord (e : Err) (outputs : List Byte) : List Byte := Err.code e :: outputs

/-- Return a result record to a thread. -/
def State.reply (s : State) (t : ThreadId) (record : List Byte) : State :=
  { s with results := s.results ++ [⟨t, record⟩] }

/-- The number of a fatal code (R325). -/
def FatalCode.code : FatalCode → Nat
  | .nullArg => 1
  | .noLock => 2
  | .noMode => 3
  | .timerRunning => 4
  | .timerRange => 5
  | .encodeCapacity => 6
  | .encodeLength => 7
  | .notHolder => 8
  | .contextLive => 9
  | .noListener => 10
  | .lowPower => 11
  | .illegalCommand => 12
  | .badOperand => 13
  | .notInit => 14
  | .role => 15
  | .unmodelled => 16

/-! ## Free values, chip answers and the bus -/

/-- `n` bytes the spec leaves unspecified (log 11, log 13). -/
def State.freeBytes (s : State) (n : Nat) : List Byte :=
  (List.range n).map fun k => Config.freeByte (s.draws + k)

/-- `n` free values were taken. -/
def State.skip (s : State) (n : Nat) : State := { s with draws := s.draws + n }

/-- What a sequence sends of a buffer's first `n` bytes, unchecked: for a byte past the capacity, as
all are of an absent buffer, a free value (log 22). -/
def State.bytesOrFree (s : State) (t : ThreadId) (h : Byte) (n : Nat) : List Byte :=
  s.bufBytes t h (min n (s.cap t h)) ++ s.freeBytes (n - s.cap t h)

/-- The `n` bytes the chip answers next: those it has ready, then free values (spec/10_state.md
R48, log 2). -/
def State.answers (s : State) (n : Nat) : List Byte :=
  s.chipIn.take n ++ (List.range (n - s.chipIn.length)).map fun k => Config.chipByte (s.draws + k)

/-- One bus frame: `tx` is sent, then `n` bytes are received (spec/00_scope.md R16). The bytes
received are `s.answers n`. -/
def State.frame (s : State) (tx : List Byte) (n : Nat) : State :=
  { s with
    bus := s.bus ++ [⟨tx, s.answers n⟩], chipIn := s.chipIn.drop n,
    draws := s.draws + (n - s.chipIn.length) }

/-- INIT's oracle choice (spec/45_controller.md R300): the next decided outcome, else a free
value (log 17). -/
def State.bringup (s : State) : Bringup :=
  match s.bringupIn with
  | o :: _ => o
  | [] => Config.initOutcome s.draws

/-- INIT's oracle choice was taken. -/
def State.afterBringup (s : State) : State :=
  match s.bringupIn with
  | _ :: r => { s with bringupIn := r }
  | [] => { s with draws := s.draws + 1 }

/-! ## The shape of a command -/

/-- The first check that fails, in the order listed (spec/60_exceptions.md R329). -/
def firstFail : List (Bool × FatalCode) → Option FatalCode
  | [] => none
  | (failed, c) :: r => if failed then some c else firstFail r

/-- Go on with the value and the state. -/
def Prog.andThen {α β : Type} (p : Prog α) (k : α → State → Prog β) : Prog β :=
  match p with
  | .go a s => k a s
  | .stop s => .stop s
  | .void => .void
  | .gap s next => .gap s fun u => (next u).andThen k

/-- The state that the command of the issuing thread leaves of `s`: its result returned, or, where it
stopped, no result; where it has no run, nothing has happened (log 7). -/
def Run.close (r : Run (List Byte)) (s : State) : State :=
  match r with
  | .go record m => m.reply s.cur record
  | .stop m => m
  | .void => s

/-- A command: halted, it has no step (R327); a failed check is taken as a fault (R326);
otherwise it has its effect. -/
def command (s : State) (check : Option FatalCode) (effect : Run (List Byte)) :
    Host.Outcome State Fault Refusal :=
  match s.fault with
  | some c => .fault (.halted c)
  | none =>
    match check with
    | some c => .next (s.takeFault c)
    | none => .next (effect.close s)

end Sys2Proof.Machine
end

