-- ==== Sys2Proof/Machine/Flags.lean ====
section
/-! DEFINITION. The flags of the block: the internal event flags and their consumption
(spec/42_events_timers.md R183, R211 to R214) and the timers' INIT, RUN and PEND bits with the
arming arithmetic (R194, R195, R198, R199, R202, R203). -/

namespace Sys2Proof.Machine

open Sys2Proof

/-! ## The event flag word -/

/-- The position of a flag (spec/10_state.md R39). -/
def Flag.pos : Flag → Nat
  | .abort => 0
  | .irq => 1
  | .fwtExp => 2
  | .btxExp => 3
  | .trxRx => 4

/-- `bit(f)`. -/
def Flag.bit (f : Flag) : BitVec 5 := 1#5 <<< f.pos

/-- The flag is in a set of flags. -/
def Flag.isIn (f : Flag) (w : BitVec 5) : Bool := w.getLsbD f.pos

/-- `SetFlag(f)` (R183). -/
def State.setFlag (s : State) (f : Flag) : State := { s with evf := s.evf ||| f.bit }

/-- The flag a timer raises (R193). -/
def TimerId.flag : TimerId → Flag
  | .fwt => .fwtExp
  | .btx => .btxExp

/-- The role of the selected mode. -/
def roleOfMode : Mode → Option Role
  | .none => none
  | .poller => some .poller
  | .listener => some .listener

/-- The mode of a role. -/
def modeOfRole : Role → Mode
  | .poller => .poller
  | .listener => .listener

/-- The selected technology, where one is selected; spec/10_state.md R36 rules out a state with a
mode and no technology (log 26). -/
def State.selTech (s : State) : Tech := s.tech.getD .a

/-- The selected role, where one is selected (log 26). -/
def State.selRole (s : State) : Role := (roleOfMode s.mode).getD .poller

/-- The wait set `W = WAIT_MASK[S.MODE][S.TECH] | bit(Abort)` (R210, R211). -/
def State.waitSet (s : State) : BitVec 5 :=
  s.cfg.waitMask.get s.selRole s.selTech ||| Flag.abort.bit

/-- `EVENT_MAP(role, tech, F, C)` with R214's constraints: `EV_TIMEOUT` (bit 0) never set,
`EV_ABORT` (bit 1) set when `Abort` is in `F`. -/
def publicEvents (cfg : Params) (r : Role) (t : Tech) (fired : BitVec 5) (causes : Nat) :
    BitVec 32 :=
  let mapped :=
    match cfg.eventRows.find? fun e =>
        decide (e.role = r ∧ e.tech = t ∧ e.fired = fired ∧ e.causes = causes) with
    | some e => e.events
    | none => Config.eventMap r t fired causes
  (mapped &&& ~~~1#32) ||| (if Flag.abort.isIn fired then 2#32 else 0#32)

/-- `EV_TIMEOUT` alone (R214). -/
def evTimeout : BitVec 32 := 1#32

/-- The flags `Consume(W)` fires: `F = S.EVF & W` (R212). -/
def State.fired (s : State) : BitVec 5 := s.evf &&& s.waitSet

/-- The causes `Consume(W)` takes (R213). -/
def State.firedCauses (s : State) : Nat := if Flag.irq.isIn s.fired then s.irqAcc else 0

/-- The events `Consume(W)` answers (R214). -/
def State.firedEvents (s : State) : BitVec 32 :=
  publicEvents s.cfg s.selRole s.selTech s.fired s.firedCauses

/-- The state `Consume(W)` leaves: the flags of `W` cleared (R212), the causes cleared when `Irq`
was among them (R213). -/
def State.consume (s : State) : State :=
  { s with
    evf := s.evf &&& ~~~s.waitSet
    irqAcc := if Flag.irq.isIn s.fired then 0 else s.irqAcc }

/-! ## The timers -/

/-- `S.TMR[t]`. -/
def State.tmr (s : State) : TimerId → Timer
  | .fwt => s.fwt
  | .btx => s.btx

/-- `S.TMR[t] <- v`. -/
def State.setTmr (s : State) (t : TimerId) (v : Timer) : State :=
  match t with
  | .fwt => { s with fwt := v }
  | .btx => { s with btx := v }

/-- `FcToTicks(d)` (R194). -/
def fcToTicks (cfg : Params) (d : Nat) : Nat := d * cfg.timerClkHz / cfg.fcHz

/-- `UsToTicks(d)` (R194). -/
def usToTicks (cfg : Params) (d : Nat) : Nat := d * cfg.timerClkHz / Config.usPerSecond

/-- The prescaler `Arm` computes (R195). -/
def armPsc (ticks : Nat) : Nat := (ticks - 1) / 65535

/-- The auto-reload value `Arm` computes (R195). -/
def armArr (ticks : Nat) : Nat := ticks / (armPsc ticks + 1)

/-- `Arm` raises TIMER_RANGE (R195). -/
def armFails (ticks : Nat) : Bool :=
  decide (ticks = 0) || decide (armPsc ticks > 65535) || decide (armArr ticks > 65535)

/-- What `Arm` writes to a timer: PSC, ARR and RUN; PEND is not changed (R195, R207). -/
def Timer.armed (v : Timer) (ticks : Nat) : Timer :=
  { v with
    psc := BitVec.ofNat 16 (armPsc ticks), arr := BitVec.ofNat 16 (armArr ticks), run := true }

/-- A timer just initialised: not running, nothing pending (R180). -/
def Timer.started (v : Timer) : Timer := { v with init := true, run := false, pend := false }

/-- A timer torn down by LP_ENTER (R181); PSC and ARR stay (spec/60_exceptions.md R344). -/
def Timer.torn (v : Timer) : Timer := { v with init := false, run := false, pend := false }

/-- A timer stopped, its undelivered expiry dropped (R205). -/
def Timer.stopped (v : Timer) : Timer := { v with run := false, pend := false }

/-- A timer after its expiry (R202). -/
def Timer.expired (v : Timer) : Timer := { v with run := false, pend := true }

/-- `Comp(t)` in carrier cycles (R198, R199). FWT in the Listener role has none: its start fails
the ROLE check. -/
def State.comp (s : State) (t : TimerId) : Nat :=
  match t, s.selRole with
  | .fwt, .poller => s.cfg.compPFwt.get s.selTech
  | .fwt, .listener => 0
  | .btx, .poller => s.cfg.compPFdt.get s.selTech
  | .btx, .listener => s.cfg.compLFdt.get s.selTech

/-- Both timers torn down (R181). -/
def State.tearTimers (s : State) : State := { s with fwt := s.fwt.torn, btx := s.btx.torn }

end Sys2Proof.Machine
end

