-- ==== Sys2Proof/Machine/Operands.lean ====
section
/-! DEFINITION. The operand forms and the checks: how an operand byte is read (spec/30_encoding.md
R102, R105), the bytes of every bus frame (R108 to R110), and, for each command, the list of its
fatal checks in the order of its rule's pseudocode (spec/60_exceptions.md R329). -/

namespace Sys2Proof.Machine

open Sys2Proof

/-! ## Operand bytes -/

/-- `t`: 0 = FWT, 1 = BTX (R102). -/
def timerOf (t : Byte) : Option TimerId :=
  if t = 0 then some .fwt else if t = 1 then some .btx else none

/-- `mode`: 1 = Poller, 2 = Listener (R102). -/
def roleOf (mode : Byte) : Option Role :=
  if mode = 1 then some .poller else if mode = 2 then some .listener else none

/-- `tech`: 0 = A, 1 = B, 2 = V, 3 = F (R102). -/
def techOf (tech : Byte) : Option Tech :=
  if tech = 0 then some .a else if tech = 1 then some .b
  else if tech = 2 then some .v else if tech = 3 then some .f else none

/-- The register number, the low `REG_ADDR_BITS` of an address: `a[5:0]` with R11's value
(spec/20_memory.md R71, log 21). -/
def regNo (cfg : Params) (a : Byte) : BitVec 6 := (a &&& regMask cfg).setWidth 6

/-- The address is in space B: its `SPACE_B_BIT` is set, `a[6]` with R11's value
(spec/20_memory.md R71, log 21). -/
def inSpaceB (cfg : Params) (a : Byte) : Bool := decide (a &&& cfg.spaceBBit.zeroExtend 8 ≠ 0)

/-- Registers in a space: `2^REG_ADDR_BITS` (spec/20_memory.md R70). -/
def spaceSize (cfg : Params) : Nat := 2 ^ cfg.regAddrBits.val

/-- A driver address parameter as an operand byte. -/
def addrByte (a : BitVec 7) : Byte := a.zeroExtend 8

/-! ## Frame bytes (spec/30_encoding.md R108 to R110) -/

/-- The mode byte of a register write, `0b00 ++ r` with R11's value (R108). -/
def modeWrite (cfg : Params) (r : BitVec 6) : Byte := cfg.spiRegWrite ++ r

/-- The mode byte of a register read, `0b01 ++ r` with R11's value (R108). -/
def modeRead (cfg : Params) (r : BitVec 6) : Byte := cfg.spiRegRead ++ r

/-- `Pfx(a)` (spec/41_driver.md R141). -/
def spacePfx (cfg : Params) (a : Byte) : List Byte :=
  if inSpaceB cfg a then [cfg.spiSpaceBPrefix] else []

/-- The frame of REG_READ and of a burst read (R110). -/
def readFrame (cfg : Params) (a : Byte) : List Byte :=
  spacePfx cfg a ++ [modeRead cfg (regNo cfg a)]

/-- The frame of REG_WRITE and of a burst write (R110). -/
def writeFrame (cfg : Params) (a : Byte) (values : List Byte) : List Byte :=
  spacePfx cfg a ++ modeWrite cfg (regNo cfg a) :: values

/-- The frame of TEST_REG_READ (R110). -/
def testReadFrame (cfg : Params) (ta : Byte) : List Byte :=
  [cfg.spiTestPrefix, modeRead cfg (regNo cfg ta)]

/-- The frame of TEST_REG_WRITE (R110). -/
def testWriteFrame (cfg : Params) (ta v : Byte) : List Byte :=
  [cfg.spiTestPrefix, modeWrite cfg (regNo cfg ta), v]

/-- `LEN1 = ntx[12:5]` (spec/41_driver.md R151). -/
def txLen1 (bits : Nat) : Byte := (BitVec.ofNat 13 (bits / 8)).extractLsb' 5 8

/-- `LEN2 = ntx[4:0] ++ nbtx[2:0]` (spec/41_driver.md R151). -/
def txLen2 (bits : Nat) : Byte := BitVec.ofNat 5 (bits / 8) ++ BitVec.ofNat 3 (bits % 8)

/-- The frame that writes the transmit length registers, in space A (spec/41_driver.md R152). -/
def txLenFrame (cfg : Params) (bits : Nat) : List Byte :=
  [modeWrite cfg cfg.regTxLen1, txLen1 bits, txLen2 bits]

/-- Bytes a bit count needs, `(bits + 7) / 8`. -/
def bytesFor (bits : Nat) : Nat := (bits + 7) / 8

/-- The FIFO byte count, `s2[7:6] ++ s1[7:0]` as a number of `FIFO_CNT_BITS` bits
(spec/20_memory.md R77, spec/41_driver.md R154, R155, log 21). -/
def fifoCount (cfg : Params) (s1 s2 : Byte) : Nat :=
  ((s2.extractLsb' 6 2 ++ s1 : BitVec 10).setWidth cfg.fifoCntBits).toNat

/-- `lb = s2[3:1]`, the valid bits of the last byte (spec/41_driver.md R154). -/
def fifoLastBits (s2 : Byte) : Nat := (s2.extractLsb' 1 3).toNat

/-- The received bit count (spec/41_driver.md R156). -/
def fifoBits (bytes lb : Nat) : Nat := if lb = 0 then bytes * 8 else (bytes - 1) * 8 + lb

/-- `IrqWord(rx)`: byte `j` supplies bits `8j+7 .. 8j` (spec/42_events_timers.md R186). -/
def irqWord : List Byte → Nat
  | [] => 0
  | b :: r => b.toNat + 256 * irqWord r

/-! ## Checks -/

/-- A check of the state or of an operand: it fails with the code. -/
abbrev Check := Bool × FatalCode

/-- `S.PHASE != Ready` raises NOT_INIT. -/
def needReady (s : State) : Check := (decide (s.phase ≠ .ready), .notInit)

/-- `S.HOLDER != T` raises NO_LOCK. -/
def needLock (t : ThreadId) (s : State) : Check := (decide (s.holder ≠ some t), .noLock)

/-- `S.MODE = None` raises NO_MODE. -/
def needMode (s : State) : Check := (decide (s.mode = .none), .noMode)

/-- An absent buffer raises NULL_ARG (spec/00_scope.md R18). -/
def needBuf (t : ThreadId) (h : Byte) (s : State) : Check := (s.absent t h, .nullArg)

/-- Operand checks of REG_READ, REG_WRITE and the read-modify-write commands (R140, R142, R146 to
R148). -/
def addrChecks (cfg : Params) (a : Byte) : List Check := [(!driverAddrOk cfg a, .badOperand)]

/-- Operand checks of the burst commands, in their pseudocode's order (R143, R144, log 9). -/
def burstChecks (a : Byte) (n : BitVec 16) (h : Byte) (t : ThreadId) (s : State) : List Check :=
  [(!driverAddrOk s.cfg a || decide (n.toNat = 0), .badOperand),
   needBuf t h s,
   (decide (n.toNat > s.cap t h) ||
      decide ((regNo s.cfg a).toNat + n.toNat > spaceSize s.cfg), .badOperand)]

/-- Operand check of the test register commands (R149, R150). -/
def testChecks (cfg : Params) (ta : Byte) : List Check := [(!testAddrOk cfg ta, .badOperand)]

/-- The size checks of a FIFO load of `bits` bits from `cap` bytes (R152). -/
def loadCheck (cfg : Params) (bits cap : Nat) : Check :=
  (decide (bits = 0) || decide (bytesFor bits > cfg.fifoSize) || decide (bytesFor bits > cap),
    .badOperand)

/-- Operand checks of FIFO_WRITE (R152). -/
def fifoWriteChecks (h : Byte) (bits : BitVec 16) (t : ThreadId) (s : State) : List Check :=
  [needBuf t h s, loadCheck s.cfg bits.toNat (s.cap t h)]

/-- Operand check of FIFO_READ (R155). -/
def fifoReadChecks (h : Byte) (t : ThreadId) (s : State) : List Check := [needBuf t h s]

/-- Operand check of DIRECT_CMD (R158). -/
def directChecks (cfg : Params) (c : Byte) : List Check :=
  [(!directOk cfg c, .badOperand)]

/-- The arbiter's precondition (spec/42_events_timers.md R182). -/
def arbiterChecks (t : ThreadId) (s : State) : List Check := [needReady s, needLock t s]

/-- Operand check of a duration or timeout: it has at most `DUR_BITS` bits (spec/00_scope.md R12,
spec/92_eei_decisions.md D47, D48). With R11's 32 it never fails (log 21). -/
def durCheck (cfg : Params) (d : BitVec 32) : Check := (!durOk cfg d, .badOperand)

/-- Checks of TIMER_START_FC (R196, spec/60_exceptions.md R329). -/
def timerStartFcChecks (tm : Byte) (d : BitVec 32) (t : ThreadId) (s : State) : List Check :=
  arbiterChecks t s ++
  match timerOf tm with
  | none => [(true, .badOperand)]
  | some x =>
    [durCheck s.cfg d,
     (!(s.tmr x).init, .lowPower),
     needMode s,
     ((s.tmr x).run, .timerRunning),
     (decide (x = .fwt ∧ s.selRole = .listener), .role),
     (decide (d.toNat > s.comp x) && armFails (fcToTicks s.cfg (d.toNat - s.comp x)), .timerRange)]

/-- Checks of TIMER_START_US (R197). -/
def timerStartUsChecks (tm : Byte) (d : BitVec 32) (t : ThreadId) (s : State) : List Check :=
  arbiterChecks t s ++
  [(decide (timerOf tm ≠ some .btx), .badOperand),
   durCheck s.cfg d,
   (!s.btx.init, .lowPower),
   (s.btx.run, .timerRunning),
   (armFails (usToTicks s.cfg d.toNat), .timerRange)]

/-- Checks of TIMER_STOP (R205). -/
def timerStopChecks (tm : Byte) (t : ThreadId) (s : State) : List Check :=
  arbiterChecks t s ++ [(decide (timerOf tm = none), .badOperand)]

/-- Checks of EVENT_WAIT (R210, R216). -/
def eventWaitChecks (tmo : BitVec 32) (t : ThreadId) (s : State) : List Check :=
  arbiterChecks t s ++
  [needMode s, durCheck s.cfg tmo, (decide (s.mode = .listener ∧ s.tech = some .v), .unmodelled)]

/-- Checks of SET_MODE (spec/43_technology.md R231). -/
def setModeChecks (mode tech : Byte) (t : ThreadId) (s : State) : List Check :=
  [needReady s, needLock t s] ++
  match roleOf mode, techOf tech with
  | some r, some x =>
    [(decide (s.ctx ≠ none) || decide (s.mode ≠ .none), .contextLive),
     (decide (r = .listener) && !s.cfg.hasListener.get x, .noListener)]
  | _, _ => [(true, .badOperand)]

/-- The technology precondition with a mode (R230). -/
def techChecks (t : ThreadId) (s : State) : List Check := [needReady s, needLock t s, needMode s]

/-- The size checks of the encoder on `n` bits from `cap` bytes into `room` bytes; `same` says that
the two buffers are one (spec/44_iso15693_codec.md R264). -/
def encodeSizeChecks (n cap room : Nat) (same : Bool) : List Check :=
  [(decide (n % 8 ≠ 0), .encodeLength),
   (decide (n / 8 > cap) || same, .badOperand),
   (decide (room < n / 2 + 2), .encodeCapacity)]

/-- Checks of TRANSMIT: the precondition, NULL_ARG, then the checks of the path (R237, R238,
spec/44_iso15693_codec.md R282). The path's checks stand before its first frame (R326, log 8). -/
def transmitChecks (h : Byte) (bits : BitVec 16) (t : ThreadId) (s : State) : List Check :=
  techChecks t s ++ [needBuf t h s] ++
  match s.mode, s.selTech with
  | .listener, .v => [(true, .unmodelled)]
  | .poller, .v =>
    encodeSizeChecks bits.toNat (s.cap t h) s.cfg.vTxCap false ++
    [loadCheck s.cfg (8 * (bits.toNat / 2 + 2)) s.cfg.vTxCap]
  | _, _ => [loadCheck s.cfg bits.toNat (s.cap t h)]

/-- Checks of RECEIVE (R240). -/
def receiveChecks (h : Byte) (t : ThreadId) (s : State) : List Check :=
  techChecks t s ++
  [needBuf t h s, (decide (s.mode = .listener ∧ s.selTech = .v), .unmodelled)]

/-- Checks of TX_SHORT_FRAME (R245). -/
def txShortChecks (k : Byte) (t : ThreadId) (s : State) : List Check :=
  techChecks t s ++
  [(decide (k.toNat ≥ 2), .badOperand),
   (decide (¬(s.mode = .poller ∧ s.selTech = .a)), .role)]

/-- Checks of LISTENER_SLEEP and LISTENER_IDLE (R247, R248). -/
def listenerChecks (t : ThreadId) (s : State) : List Check :=
  techChecks t s ++ [(decide (s.mode ≠ .listener), .role)]

/-- Checks of ISO15693_ENCODE_FRAME (spec/44_iso15693_codec.md R264). `Bin` and `Bout` are the same
buffer exactly when the handles are equal: two handles name two buffers (log 35). -/
def encodeChecks (bin : Byte) (n : BitVec 32) (bout : Byte) (t : ThreadId) (s : State) :
    List Check :=
  (s.absent t bin || s.absent t bout, .nullArg) ::
  encodeSizeChecks n.toNat (s.cap t bin) (s.cap t bout) (decide (bin = bout))

/-- Checks of ISO15693_DECODE_FRAME (spec/44_iso15693_codec.md R270). -/
def decodeChecks (bin : Byte) (ibits : BitVec 32) (bout : Byte) (t : ThreadId) (s : State) :
    List Check :=
  [(s.absent t bin || s.absent t bout, .nullArg),
   (decide (bytesFor ibits.toNat > s.cap t bin), .badOperand)]

/-- Check of INIT (spec/45_controller.md R300). -/
def initChecks (s : State) : List Check := [(decide (s.phase = .ready), .illegalCommand)]

/-- Checks of DEINIT (spec/45_controller.md R301). -/
def deinitChecks (s : State) : List Check :=
  [needReady s, (decide (s.holder ≠ none) || decide (s.mode ≠ .none), .contextLive)]

/-- Check of RELEASE (spec/45_controller.md R304). -/
def releaseChecks (t : ThreadId) (s : State) : List Check :=
  [(decide (s.holder ≠ some t), .notHolder)]

/-- Checks of the field operations (spec/45_controller.md R311). -/
def fieldChecks (t : ThreadId) (s : State) : List Check := [needReady s, needLock t s]

/-- All checks of a command issued by thread `t`, after the check that the block is not halted
(spec/60_exceptions.md R329). A driver command needs the lock first (spec/41_driver.md R139). -/
def instrChecks (i : Instr) (t : ThreadId) (s : State) : List Check :=
  match i with
  | .regRead a => needLock t s :: addrChecks s.cfg a
  | .regWrite a _ => needLock t s :: addrChecks s.cfg a
  | .regReadBurst a n h => needLock t s :: burstChecks a n h t s
  | .regWriteBurst a n h => needLock t s :: burstChecks a n h t s
  | .regChangeBits a _ _ => needLock t s :: addrChecks s.cfg a
  | .regSetBits a _ => needLock t s :: addrChecks s.cfg a
  | .regClearBits a _ => needLock t s :: addrChecks s.cfg a
  | .testRegRead ta => needLock t s :: testChecks s.cfg ta
  | .testRegWrite ta _ => needLock t s :: testChecks s.cfg ta
  | .fifoWrite h bits => needLock t s :: fifoWriteChecks h bits t s
  | .fifoRead h => needLock t s :: fifoReadChecks h t s
  | .directCmd c => needLock t s :: directChecks s.cfg c
  | .lpExit => arbiterChecks t s
  | .lpEnter => arbiterChecks t s
  | .timerStartFc tm d => timerStartFcChecks tm d t s
  | .timerStartUs tm d => timerStartUsChecks tm d t s
  | .timerStop tm => timerStopChecks tm t s
  | .eventWait tmo => eventWaitChecks tmo t s
  | .abortRequest => []
  | .setMode mode tech => setModeChecks mode tech t s
  | .resetMode => techChecks t s
  | .transmit h bits => transmitChecks h bits t s
  | .receive h => receiveChecks h t s
  | .txShortFrame k => txShortChecks k t s
  | .listenerSleep => listenerChecks t s
  | .listenerIdle => listenerChecks t s
  | .iso15693EncodeFrame bin n bout => encodeChecks bin n bout t s
  | .iso15693DecodeFrame bin ibits bout => decodeChecks bin ibits bout t s
  | .init => initChecks s
  | .deinit => deinitChecks s
  | .acquire => [needReady s]
  | .release => releaseChecks t s
  | .fieldOn => fieldChecks t s
  | .fieldDetectStart => fieldChecks t s
  | .fieldDetectStop => fieldChecks t s
  | .fieldPresent => fieldChecks t s

end Sys2Proof.Machine
end

