-- ==== Sys2Proof/Machine/Iso15693.lean ====
section
/-! DEFINITION. The ISO15693 framing codec (spec/44_iso15693_codec.md): the 1-out-of-4 encoder with
SOF and EOF, and the decoder of a listener's bit stream. Both touch no hardware (R260). -/

namespace Sys2Proof.Machine

open Sys2Proof

/-! ## Encoder (R261 to R265) -/

/-- `ENC_PAT[g]` (spec/30_encoding.md R112, R263). -/
def encPat (cfg : Params) (g : BitVec 2) : Byte :=
  if g = 0 then 0x02 else if g = 1 then 0x08 else if g = 2 then 0x20 else cfg.encPat3

/-- `DEC_PAT(b)`: the group value of a symbol byte (spec/30_encoding.md R114, R268). DESIGN CHOICE,
unsafe: where `ENC_PAT[3]` is 0x02, 0x08 or 0x20 that byte stands for two groups, R268 says only that
the four values are distinct for the defaults, and the answer here is the lower group (log 39). -/
def decPat (cfg : Params) (b : Byte) : Option (BitVec 2) :=
  if b = 0x02 then some 0 else if b = 0x08 then some 1 else if b = 0x20 then some 2
  else if b = cfg.encPat3 then some 3 else none

/-- The group `g_j(x) = x[2j+1 : 2j]` (R261). -/
def group (x : Byte) (j : Nat) : BitVec 2 := x.extractLsb' (2 * j) 2

/-- The four symbol bytes of an input byte, its groups least-significant first (R262). -/
def symbols (cfg : Params) (x : Byte) : List Byte :=
  (List.range 4).map fun j => encPat cfg (group x j)

/-- The frame of the data bytes: SOF, the symbols, EOF (R262, R264). -/
def encodeFrame (cfg : Params) (data : List Byte) : List Byte :=
  Config.txSof :: data.flatMap (symbols cfg) ++ [Config.txEof]

/-- `olen = N/2 + 2` (R265). -/
def encodeLen (n : Nat) : Nat := n / 2 + 2

/-- ISO15693_ENCODE_FRAME after its checks, for thread `t` (R264). -/
def encodeEffect (bin : Byte) (n : BitVec 32) (bout : Byte) (t : ThreadId) (s : State) :
    Prog (List Byte) :=
  .go (okRecord (bytes32 (BitVec.ofNat 32 (encodeLen n.toNat))))
    (s.store t bout (encodeFrame s.cfg (s.bufBytes t bin (n.toNat / 8))))

/-! ## Decoder (R269 to R281) -/

/-- Bit `k` of a byte list, as a stream (spec/00_scope.md R14). -/
def streamBit (bytes : List Byte) (k : Nat) : Bool := (bytes.getD (k / 8) 0).getLsbD (k % 8)

/-- The first `n` stream bits of a byte list (R14). -/
def streamOf (bytes : List Byte) (n : Nat) : List Bool := (List.range n).map (streamBit bytes)

/-- The 5-bit window of stream bits `i .. i+4`, bit `i` least significant (R275). -/
def window (b0 b1 b2 b3 b4 : Bool) : BitVec 5 :=
  BitVec.ofBool b4 ++ BitVec.ofBool b3 ++ BitVec.ofBool b2 ++ BitVec.ofBool b1 ++ BitVec.ofBool b0

/-- What a decode answers: the data bits, or an error. -/
inductive DecodeOut where
  | ok (bits : List Bool)
  | fail (e : Err)
  deriving DecidableEq, Repr

/-- The data bit decoded at a scan position goes before those decoded after it. -/
def DecodeOut.push (b : Bool) : DecodeOut → DecodeOut
  | .ok bits => .ok (b :: bits)
  | .fail e => .fail e

/-- The scan from a position, on the stream bits from there on. A position is scanned while more
than `SOF_SIZE` bits remain (R274). EOF is tested first (R275), then the two data patterns (R276),
then the room for the bit (R278); the scan advances by two bits. `room` is `8 * cap(Bout) - pos`. -/
def scan (cfg : Params) : List Bool → Nat → DecodeOut
  | b0 :: b1 :: rest, room =>
    match rest with
    | b2 :: b3 :: b4 :: _ :: _ =>
      let w := window b0 b1 b2 b3 b4
      let p := w &&& cfg.patMask
      if w &&& cfg.eofMask = cfg.rxEof then .ok []
      else if p = cfg.rxPat0 then
        match room with
        | 0 => .fail cfg.decodeOvfErr
        | room + 1 => (scan cfg rest room).push false
      else if p = cfg.rxPat1 then
        match room with
        | 0 => .fail cfg.decodeOvfErr
        | room + 1 => (scan cfg rest room).push true
      else .fail .dataFormat
    | _ => .fail .dataFormat
  | _, _ => .fail .dataFormat

/-- `SofMatch(Bin)`: the low 5 bits of byte 0 (R269). -/
def sofMatch (cfg : Params) (bytes : List Byte) : Bool :=
  decide ((bytes.headD 0).extractLsb' 0 5 = cfg.rxSof)

/-- The decode of `ibits` stream bits into room for `room` data bits (R270). -/
def decodeStream (cfg : Params) (bytes : List Byte) (ibits room : Nat) : DecodeOut :=
  if ibits = 0 then .fail .dataFormat
  else if !sofMatch cfg bytes then .fail .dataFormat
  else if ibits = 8 then .fail .incompleteFrame
  else scan cfg ((streamOf bytes ibits).drop Config.sofSize) room

/-- A byte from its bits, bit 0 least significant. -/
def byteOfBits (f : Nat → Bool) : Byte :=
  BitVec.ofBool (f 7) ++ BitVec.ofBool (f 6) ++ BitVec.ofBool (f 5) ++ BitVec.ofBool (f 4) ++
  BitVec.ofBool (f 3) ++ BitVec.ofBool (f 2) ++ BitVec.ofBool (f 1) ++ BitVec.ofBool (f 0)

/-- The output buffer after a decode: decoded bit `k` at bit `k % 8` of byte `k / 8`, every other
bit from `free` (R279). -/
def packBits (bits : List Bool) (free : List Byte) : List Byte :=
  (List.range free.length).map fun j =>
    byteOfBits fun k => bits.getD (8 * j + k) ((free.getD j 0).getLsbD k)

/-- The bits a decode delivers: none when it fails. -/
def DecodeOut.bits : DecodeOut → List Bool
  | .ok bits => bits
  | .fail _ => []

/-- Decode raw bytes into thread `t`'s buffer `bout`. The whole of the buffer but the decoded bits
becomes unspecified, after a failure all of it (R279, log 13). -/
def decodeInto (raw : List Byte) (ibits : Nat) (bout : Byte) (t : ThreadId) (s : State) :
    DecodeOut × State :=
  let out := decodeStream s.cfg raw ibits (8 * s.cap t bout)
  (out, (s.skip (s.cap t bout)).store t bout (packBits out.bits (s.freeBytes (s.cap t bout))))

/-- ISO15693_DECODE_FRAME after its checks, for thread `t` (R270). On an error the count is not
written (R281, log 12). -/
def decodeEffect (bin : Byte) (ibits : BitVec 32) (bout : Byte) (t : ThreadId) (s : State) :
    Prog (List Byte) :=
  match decodeInto (s.bufBytes t bin (bytesFor ibits.toNat)) ibits.toNat bout t s with
  | (.ok bits, s') => .go (okRecord (bytes32 (BitVec.ofNat 32 bits.length))) s'
  | (.fail e, s') => .go (errRecord e []) s'

end Sys2Proof.Machine
end

