-- ==== Sys2Proof/Machine/DriverOps.lean ====
section
/-! DEFINITION. The bus operations of the driver (spec/41_driver.md), each without its checks: what
its frames are and what it answers. `mid` says that the command has sent a frame already, so that
other agents may step before the operation's first frame (spec/20_memory.md R86). Then the run of a
parameter sequence (spec/43_technology.md R232) and the common transmit and receive (R238, R239). -/

namespace Sys2Proof.Machine

open Sys2Proof

/-- A bus frame of a command. Before every frame but the command's first (`mid`), other agents may
step (spec/20_memory.md R86). -/
def busFrame (mid : Bool) (tx : List Byte) (n : Nat) (s : State) : Prog (List Byte) :=
  if mid then .gap s fun s => .go (s.answers n) (s.frame tx n)
  else .go (s.answers n) (s.frame tx n)

/-- REG_READ's frame (R140). -/
def opRegRead (mid : Bool) (a : Byte) (s : State) : Prog Byte :=
  (busFrame mid (readFrame s.cfg a) 1 s).andThen fun rx s => .go (rx.headD 0) s

/-- REG_WRITE's frame (R142). -/
def opRegWrite (mid : Bool) (a v : Byte) (s : State) : Prog Unit :=
  (busFrame mid (writeFrame s.cfg a [v]) 0 s).andThen fun _ s => .go () s

/-- REG_READ_BURST's frame and the store to `B` (R143). -/
def opReadBurst (mid : Bool) (a : Byte) (n : Nat) (h : Byte) (t : ThreadId) (s : State) :
    Prog Unit :=
  (busFrame mid (readFrame s.cfg a) n s).andThen fun rx s => .go () (s.store t h rx)

/-- REG_WRITE_BURST's frame, for the bytes to write (R144). -/
def opWriteBurst (mid : Bool) (a : Byte) (bytes : List Byte) (s : State) : Prog Unit :=
  (busFrame mid (writeFrame s.cfg a bytes) 0 s).andThen fun _ s => .go () s

/-- `RMW(a, f)`: one read frame; one write frame only if the value changes (R145,
spec/20_memory.md R84). -/
def opRmw (mid : Bool) (a : Byte) (f : Byte → Byte) (s : State) : Prog Unit :=
  (opRegRead mid a s).andThen fun old s =>
    if f old = old then .go () s else opRegWrite true a (f old) s

/-- REG_CHANGE_BITS' new value (R146). -/
def changeBits (mask val old : Byte) : Byte := (old &&& ~~~mask) ||| (val &&& mask)

/-- REG_SET_BITS' new value (R147). -/
def setBits (mask old : Byte) : Byte := old ||| mask

/-- REG_CLEAR_BITS' new value (R148). -/
def clearBits (mask old : Byte) : Byte := old &&& ~~~mask

/-- TEST_REG_READ's frame (R149). -/
def opTestRead (mid : Bool) (ta : Byte) (s : State) : Prog Byte :=
  (busFrame mid (testReadFrame s.cfg ta) 1 s).andThen fun rx s => .go (rx.headD 0) s

/-- TEST_REG_WRITE's frame (R150). -/
def opTestWrite (mid : Bool) (ta v : Byte) (s : State) : Prog Unit :=
  (busFrame mid (testWriteFrame s.cfg ta v) 0 s).andThen fun _ s => .go () s

/-- FIFO_WRITE's two frames, for the bytes to load: the length registers, then the load (R152). -/
def opFifoLoad (mid : Bool) (bytes : List Byte) (bits : Nat) (s : State) : Prog Unit :=
  (busFrame mid (txLenFrame s.cfg bits) 0 s).andThen fun _ s =>
    (busFrame true (s.cfg.spiFifoLoad :: bytes) 0 s).andThen fun _ s => .go () s

/-- What a FIFO unload answers (R155, R157). -/
inductive FifoAnswer where
  | ok (bytes : List Byte) (rbits : Nat)
  | empty
  | overflow
  deriving DecidableEq, Repr

/-- FIFO_READ's frames, for a buffer of `cap` bytes: the status read, then, if it succeeds, the
unload. The empty check precedes the capacity check (R155). -/
def opFifoUnload (mid : Bool) (cap : Nat) (s : State) : Prog FifoAnswer :=
  (busFrame mid [modeRead s.cfg s.cfg.regFifoStatus1] 2 s).andThen fun st s =>
    let count := fifoCount s.cfg (st.getD 0 0) (st.getD 1 0)
    if count = 0 then .go .empty s
    else if count > cap then .go .overflow s
    else
      (busFrame true [s.cfg.spiFifoRead] count s).andThen fun rx s =>
        .go (.ok rx (fifoBits count (fifoLastBits (st.getD 1 0)))) s

/-- FIFO_READ into a host buffer: its bytes are stored when it succeeds (R155). -/
def opFifoRead (mid : Bool) (h : Byte) (t : ThreadId) (s : State) : Prog FifoAnswer :=
  (opFifoUnload mid (s.cap t h) s).andThen fun ans s =>
    match ans with
    | .ok bytes rbits => .go (.ok bytes rbits) (s.store t h bytes)
    | .empty => .go .empty s
    | .overflow => .go .overflow s

/-- DIRECT_CMD's frame (R158). -/
def opDirect (mid : Bool) (c : Byte) (s : State) : Prog Unit :=
  (busFrame mid [c] 0 s).andThen fun _ s => .go () s

/-- A driver command of a parameter sequence: the frames and stores of its rule without its checks,
the operand checks among them (R139, R312, decision D33); what it answers is dropped. For an operand
that the command's checks refuse, these frames are the model's choice (log 22). -/
def runDriver (mid : Bool) (c : DriverCmd) (t : ThreadId) (s : State) : Prog Unit :=
  match c with
  | .regRead a => (opRegRead mid a s).andThen fun _ s => .go () s
  | .regWrite a v => opRegWrite mid a v s
  | .regReadBurst a n h => opReadBurst mid a n.toNat h t s
  | .regWriteBurst a n h =>
    opWriteBurst mid a (s.bytesOrFree t h n.toNat) (s.skip (n.toNat - s.cap t h))
  | .regChangeBits a mask val => opRmw mid a (changeBits mask val) s
  | .regSetBits a mask => opRmw mid a (setBits mask) s
  | .regClearBits a mask => opRmw mid a (clearBits mask) s
  | .testRegRead ta => (opTestRead mid ta s).andThen fun _ s => .go () s
  | .testRegWrite ta v => opTestWrite mid ta v s
  | .fifoWrite h bits =>
    let n := bytesFor bits.toNat
    opFifoLoad mid (s.bytesOrFree t h n) bits.toNat (s.skip (n - s.cap t h))
  | .fifoRead h => (opFifoRead mid h t s).andThen fun _ s => .go () s
  | .directCmd c => opDirect mid c s

/-- `Run(seq)` (R232): it raises nothing, so that no check fails after the command's first frame
(spec/60_exceptions.md R326). -/
def runSeq (mid : Bool) (t : ThreadId) : List DriverCmd → State → Prog Unit
  | [], s => .go () s
  | c :: r, s => (runDriver mid c t s).andThen fun _ s => runSeq true t r s

/-- `CommonTx` on the bytes to send: clear the FIFO, load it, transmit without CRC (R238). The
load's checks were made before the first frame (log 8); the two direct commands are frames inside
another command, "covered by that command's checks" (R139, log 34). -/
def commonTx (bytes : List Byte) (bits : Nat) (s : State) : Prog Unit :=
  (opDirect false s.cfg.cmdClearFifo s).andThen fun _ s =>
    (opFifoLoad true bytes bits s).andThen fun _ s => opDirect true s.cfg.cmdTxWithoutCrc s

/-- The result record of RECEIVE for an error: the bytes in the place of `rbits` carry no meaning
(R240, log 11). -/
def receiveError (e : Err) (s : State) : Prog (List Byte) :=
  .go (errRecord e (s.freeBytes 2)) (s.skip 2)

/-- `CommonRx` (R239). -/
def commonRx (h : Byte) (t : ThreadId) (s : State) : Prog (List Byte) :=
  (opFifoRead false h t s).andThen fun ans s =>
    match ans with
    | .ok _ rbits => .go (okRecord (bytes16 (BitVec.ofNat 16 rbits))) s
    | .empty => receiveError s.cfg.rxEmptyErr s
    | .overflow => receiveError .bufferOverflow s

/-- `V_PollerRx`: unload the raw stream into the internal buffer of `V_RAW_CAP` bytes, then decode
it into `B` (spec/44_iso15693_codec.md R283). -/
def pollerRxV (h : Byte) (t : ThreadId) (s : State) : Prog (List Byte) :=
  (opFifoUnload false s.cfg.vRawCap s).andThen fun ans s =>
    match ans with
    | .ok raw rbits =>
      match decodeInto raw rbits h t s with
      | (.ok bits, s') => .go (okRecord (bytes16 (BitVec.ofNat 16 bits.length))) s'
      | (.fail e, s') => receiveError e s'
    | .empty => receiveError s.cfg.rxEmptyErr s
    | .overflow => receiveError .bufferOverflow s

/-- `V_PollerTx`: encode into the internal buffer, then the common transmit
(spec/44_iso15693_codec.md R282). DESIGN CHOICE (log 36): `CommonTx` is given `8 * olen` bits as a
count without a bound, also where it passes the u16 of FIFO_WRITE's operand (`FIFO_SIZE` and
`V_TX_CAP` of 8192 or more); no rule says what happens there (R12). -/
def pollerTxV (h : Byte) (bits : Nat) (t : ThreadId) (s : State) : Prog Unit :=
  commonTx (encodeFrame s.cfg (s.bufBytes t h (bits / 8))) (8 * encodeLen bits) s

end Sys2Proof.Machine
end

