-- ==== Sys2Proof/Machine/Effects.lean ====
section
/-! DEFINITION. What each command does once its checks have passed, for the thread `t` that issues
it: one definition for each command. The commands of the host command port run these (Driver.lean,
Events.lean, Technology.lean, Codec.lean, Controller.lean), and so do the commands of other threads
between two frames (Agents.lean). -/

namespace Sys2Proof.Machine

open Sys2Proof

/-- End without error and without outputs. -/
def doneOk (_ : Unit) (s : State) : Prog (List Byte) := .go (okRecord []) s

/-! ## Driver (spec/41_driver.md R140 to R158): no error code but `None` (R160) -/

/-- REG_READ (R140): the answer is the output. -/
def regReadEffect (a : Byte) (s : State) : Prog (List Byte) :=
  (opRegRead false a s).andThen fun v s => .go (okRecord [v]) s

/-- REG_WRITE (R142): the write is sent even if the register holds the value. -/
def regWriteEffect (a v : Byte) (s : State) : Prog (List Byte) :=
  (opRegWrite false a v s).andThen doneOk

/-- REG_READ_BURST (R143). -/
def regReadBurstEffect (a : Byte) (n : BitVec 16) (buf : Byte) (t : ThreadId)
    (s : State) : Prog (List Byte) :=
  (opReadBurst false a n.toNat buf t s).andThen doneOk

/-- REG_WRITE_BURST (R144). -/
def regWriteBurstEffect (a : Byte) (n : BitVec 16) (buf : Byte) (t : ThreadId)
    (s : State) : Prog (List Byte) :=
  (opWriteBurst false a (s.bufBytes t buf n.toNat) s).andThen doneOk

/-- REG_CHANGE_BITS (R146). -/
def regChangeBitsEffect (a mask val : Byte) (s : State) : Prog (List Byte) :=
  (opRmw false a (changeBits mask val) s).andThen doneOk

/-- REG_SET_BITS (R147). -/
def regSetBitsEffect (a mask : Byte) (s : State) : Prog (List Byte) :=
  (opRmw false a (setBits mask) s).andThen doneOk

/-- REG_CLEAR_BITS (R148). -/
def regClearBitsEffect (a mask : Byte) (s : State) : Prog (List Byte) :=
  (opRmw false a (clearBits mask) s).andThen doneOk

/-- TEST_REG_READ (R149). -/
def testRegReadEffect (ta : Byte) (s : State) : Prog (List Byte) :=
  (opTestRead false ta s).andThen fun v s => .go (okRecord [v]) s

/-- TEST_REG_WRITE (R150). -/
def testRegWriteEffect (ta v : Byte) (s : State) : Prog (List Byte) :=
  (opTestWrite false ta v s).andThen doneOk

/-- FIFO_WRITE (R152). It neither clears the FIFO nor starts transmission (R153). -/
def fifoWriteEffect (buf : Byte) (bits : BitVec 16) (t : ThreadId) (s : State) :
    Prog (List Byte) :=
  (opFifoLoad false (s.bufBytes t buf (bytesFor bits.toNat)) bits.toNat s).andThen doneOk

/-- The result of FIFO_READ: status 0 OK with `rbits`, 1 EMPTY, 2 OVERFLOW; the `rbits` bytes of
the last two carry no meaning (R155, log 11). -/
def fifoReply (ans : FifoAnswer) (s : State) : Prog (List Byte) :=
  match ans with
  | .ok _ rbits => .go (okRecord (0x00 :: bytes16 (BitVec.ofNat 16 rbits))) s
  | .empty => .go (okRecord (0x01 :: s.freeBytes 2)) (s.skip 2)
  | .overflow => .go (okRecord (0x02 :: s.freeBytes 2)) (s.skip 2)

/-- FIFO_READ (R155). -/
def fifoReadEffect (buf : Byte) (t : ThreadId) (s : State) : Prog (List Byte) :=
  (opFifoRead false buf t s).andThen fifoReply

/-- DIRECT_CMD (R158). -/
def directCmdEffect (c : Byte) (s : State) : Prog (List Byte) :=
  (opDirect false c s).andThen doneOk

/-! ## Events and timers (spec/42_events_timers.md R180 to R217): no bus frame -/

/-- LP_EXIT (R180): both timers initialised, the interrupt line serviced; no change when the block
is out of low power already. -/
def lpExitEffect (s : State) : Prog (List Byte) :=
  .go (okRecord [])
    (if s.lp then { s with fwt := s.fwt.started, btx := s.btx.started, lp := false } else s)

/-- LP_ENTER (R181). -/
def lpEnterEffect (s : State) : Prog (List Byte) :=
  .go (okRecord []) { s.tearTimers with lp := true }

/-- TIMER_START_FC (R196): not started when the compensation meets the duration (R200). -/
def timerStartFcEffect (tm : Byte) (d : BitVec 32) (s : State) : Prog (List Byte) :=
  match timerOf tm with
  | none => .stop s
  | some x =>
    .go (okRecord [])
      (if d.toNat ≤ s.comp x then s
       else s.setTmr x ((s.tmr x).armed (fcToTicks s.cfg (d.toNat - s.comp x))))

/-- TIMER_START_US (R197): only the BTX timer has the microsecond form. -/
def timerStartUsEffect (d : BitVec 32) (s : State) : Prog (List Byte) :=
  .go (okRecord []) { s with btx := s.btx.armed (usToTicks s.cfg d.toNat) }

/-- TIMER_STOP (R205): a flag already delivered stays (R206). -/
def timerStopEffect (tm : Byte) (s : State) : Prog (List Byte) :=
  match timerOf tm with
  | none => .stop s
  | some x => .go (okRecord []) (s.setTmr x (s.tmr x).stopped)

/-- EVENT_WAIT (R210): a set flag of the wait set is consumed at once; a zero timeout returns
`EV_TIMEOUT` at once; otherwise the thread blocks. -/
def eventWaitEffect (tmo : BitVec 32) (t : ThreadId) (s : State) : Prog (List Byte) :=
  if s.fired ≠ 0 then .go (okRecord (bytes32 s.firedEvents)) s.consume
  else if tmo = 0 then .go (okRecord (bytes32 evTimeout)) s
  else .stop { s with waiter := some ⟨t, tmo⟩ }

/-- ABORT_REQUEST (R217): needs no lock, phase or mode. -/
def abortRequestEffect (s : State) : Prog (List Byte) := .go (okRecord []) (s.setFlag .abort)

/-! ## Technology layer (spec/43_technology.md R231 to R249) -/

/-- `ROLE_SETUP[mode]`; the listener's is the empty list (R233). -/
def roleSetup (cfg : Params) : Role → List DriverCmd
  | .poller => cfg.roleSetupPoller
  | .listener => []

/-- What SET_MODE runs (R231). -/
def setModeSeq (cfg : Params) (r : Role) (x : Tech) : List DriverCmd :=
  roleSetup cfg r ++ cfg.techInit.get r x

/-- What RESET_MODE runs: the stop, the technology's deinit, the neutral baseline (R234, R235). -/
def resetModeSeq (cfg : Params) (r : Role) (x : Tech) : List DriverCmd :=
  .directCmd cfg.cmdStop :: (cfg.techDeinit.get r x ++ cfg.neutralSeq)

/-- `L_SLEEP[t]`: for technology A its last command is the go-to-sleep direct command (R249). -/
def sleepSeq (cfg : Params) : Tech → List DriverCmd
  | .a => cfg.lSleep.a ++ [.directCmd cfg.cmdGotoSleep]
  | x => cfg.lSleep.get x

/-- `L_IDLE[t]`: for technology A its last command is the go-to-sense direct command (R249). -/
def idleSeq (cfg : Params) : Tech → List DriverCmd
  | .a => cfg.lIdle.a ++ [.directCmd cfg.cmdGotoSense]
  | x => cfg.lIdle.get x

/-- What TX_SHORT_FRAME runs (R245). -/
def shortFrameSeq (cfg : Params) (k : Byte) : List DriverCmd :=
  cfg.aCrcCheckOff ++
    [.directCmd cfg.cmdClearFifo, .directCmd (if k = 0 then cfg.cmdTxReqa else cfg.cmdTxWupa)]

/-- SET_MODE (R231). -/
def setModeEffect (mode tech : Byte) (t : ThreadId) (s : State) : Prog (List Byte) :=
  match roleOf mode, techOf tech with
  | some r, some x =>
    (runSeq false t (setModeSeq s.cfg r x) s).andThen fun _ s =>
      .go (okRecord []) { s with mode := modeOfRole r, tech := some x, ctx := some x }
  | _, _ => .stop s

/-- RESET_MODE (R234): the timers and the flag word are untouched. -/
def resetModeEffect (t : ThreadId) (s : State) : Prog (List Byte) :=
  (runSeq false t (resetModeSeq s.cfg s.selRole s.selTech) s).andThen fun _ s =>
    .go (okRecord []) { s with mode := .none, tech := none, ctx := none }

/-- TRANSMIT (R237). In (Listener, V) its UNMODELLED check fails first. -/
def transmitEffect (buf : Byte) (bits : BitVec 16) (t : ThreadId) (s : State) :
    Prog (List Byte) :=
  (match s.selTech with
   | .v => pollerTxV buf bits.toNat t s
   | _ => commonTx (s.bufBytes t buf (bytesFor bits.toNat)) bits.toNat s).andThen doneOk

/-- RECEIVE (R240). In (Listener, V) its UNMODELLED check fails first. -/
def receiveEffect (buf : Byte) (t : ThreadId) (s : State) : Prog (List Byte) :=
  match s.selTech with
  | .v => pollerRxV buf t s
  | _ => commonRx buf t s

/-- TX_SHORT_FRAME (R245). -/
def txShortFrameEffect (k : Byte) (t : ThreadId) (s : State) : Prog (List Byte) :=
  (runSeq false t (shortFrameSeq s.cfg k) s).andThen doneOk

/-- LISTENER_SLEEP (R247). -/
def listenerSleepEffect (t : ThreadId) (s : State) : Prog (List Byte) :=
  (runSeq false t (sleepSeq s.cfg s.selTech) s).andThen doneOk

/-- LISTENER_IDLE (R248). -/
def listenerIdleEffect (t : ThreadId) (s : State) : Prog (List Byte) :=
  (runSeq false t (idleSeq s.cfg s.selTech) s).andThen doneOk

/-! ## Controller (spec/45_controller.md R300 to R310) -/

/-- INIT (R300): the bring-up sequence, then an outcome that the chip's answers do not decide
(R312). -/
def initEffect (t : ThreadId) (s : State) : Prog (List Byte) :=
  (runSeq false t s.cfg.bringupSeq s).andThen fun _ s =>
    match s.bringup with
    | .ok => .go (okRecord []) { s.afterBringup with phase := .ready, lp := true }
    | .communication => .go (errRecord .communication []) s.afterBringup
    | .oscillator => .go (errRecord .oscillator []) s.afterBringup

/-- DEINIT (R301): the arbiter goes back to its reset values, PSC and ARR among them
(spec/92_eei_decisions.md D43, spec/90_conflicts.md C12, log 10). Between its frames another thread
may take the lock and give it back (spec/20_memory.md R86). Its last step, the last frame with the
writes after it, is not enabled while the lock is held or a mode is selected: "DEINIT requires
`HOLDER = Free`" (R313), and no check may fail after its first frame (spec/60_exceptions.md R326).
DEDUCED, log 7. -/
def deinitEffect (t : ThreadId) (s : State) : Prog (List Byte) :=
  (runSeq false t s.cfg.deinitSeq s).andThen fun _ s =>
    if s.holder ≠ none ∨ s.mode ≠ .none then .void
    else
      .go (okRecord [])
        { s with
          fwt := Timer.reset, btx := Timer.reset, lp := true, evf := 0, irqAcc := 0
          phase := .uninit }

/-- ACQUIRE (R302): taken if free, Busy if the caller holds it, otherwise the thread blocks. -/
def acquireEffect (t : ThreadId) (s : State) : Prog (List Byte) :=
  if s.holder = some t then .go (errRecord .busy []) s
  else if s.holder = none then .go (okRecord []) { s with holder := some t }
  else .stop { s with acquirers := s.acquirers ++ [t] }

/-- RELEASE (R304). -/
def releaseEffect (s : State) : Prog (List Byte) := .go (okRecord []) { s with holder := none }

/-- FIELD_ON (R306): no register write when the transmit-enable bit is set (R307). -/
def fieldOnEffect (t : ThreadId) (s : State) : Prog (List Byte) :=
  (opRegRead false (addrByte s.cfg.regOpControl) s).andThen fun v s =>
    if v &&& s.cfg.opcTxEn ≠ 0 then .go (okRecord []) s
    else (runSeq true t s.cfg.fieldOnSeq s).andThen doneOk

/-- FIELD_DETECT_START (R308). -/
def fieldDetectStartEffect (t : ThreadId) (s : State) : Prog (List Byte) :=
  (runSeq false t s.cfg.fieldDetectSeqOn s).andThen doneOk

/-- FIELD_DETECT_STOP (R309). -/
def fieldDetectStopEffect (t : ThreadId) (s : State) : Prog (List Byte) :=
  (runSeq false t s.cfg.fieldDetectSeqOff s).andThen doneOk

/-- FIELD_PRESENT (R310). -/
def fieldPresentEffect (s : State) : Prog (List Byte) :=
  (opRegRead false (addrByte s.cfg.fieldPresentReg) s).andThen fun v s =>
    .go (okRecord [if v &&& s.cfg.fieldPresentMask ≠ 0 then 1 else 0]) s

/-! ## Every command -/

/-- The effect of a command of thread `t`. -/
def instrEffect (i : Instr) (t : ThreadId) (s : State) : Prog (List Byte) :=
  match i with
  | .regRead a => regReadEffect a s
  | .regWrite a v => regWriteEffect a v s
  | .regReadBurst a n buf => regReadBurstEffect a n buf t s
  | .regWriteBurst a n buf => regWriteBurstEffect a n buf t s
  | .regChangeBits a mask val => regChangeBitsEffect a mask val s
  | .regSetBits a mask => regSetBitsEffect a mask s
  | .regClearBits a mask => regClearBitsEffect a mask s
  | .testRegRead ta => testRegReadEffect ta s
  | .testRegWrite ta v => testRegWriteEffect ta v s
  | .fifoWrite buf bits => fifoWriteEffect buf bits t s
  | .fifoRead buf => fifoReadEffect buf t s
  | .directCmd c => directCmdEffect c s
  | .lpExit => lpExitEffect s
  | .lpEnter => lpEnterEffect s
  | .timerStartFc tm d => timerStartFcEffect tm d s
  | .timerStartUs _ d => timerStartUsEffect d s
  | .timerStop tm => timerStopEffect tm s
  | .eventWait tmo => eventWaitEffect tmo t s
  | .abortRequest => abortRequestEffect s
  | .setMode mode tech => setModeEffect mode tech t s
  | .resetMode => resetModeEffect t s
  | .transmit buf bits => transmitEffect buf bits t s
  | .receive buf => receiveEffect buf t s
  | .txShortFrame k => txShortFrameEffect k t s
  | .listenerSleep => listenerSleepEffect t s
  | .listenerIdle => listenerIdleEffect t s
  | .iso15693EncodeFrame bin n bout => encodeEffect bin n bout t s
  | .iso15693DecodeFrame bin ibits bout => decodeEffect bin ibits bout t s
  | .init => initEffect t s
  | .deinit => deinitEffect t s
  | .acquire => acquireEffect t s
  | .release => releaseEffect s
  | .fieldOn => fieldOnEffect t s
  | .fieldDetectStart => fieldDetectStartEffect t s
  | .fieldDetectStop => fieldDetectStopEffect t s
  | .fieldPresent => fieldPresentEffect s

end Sys2Proof.Machine
end

