-- ==== Sys2Proof/Machine/Agents.lean ====
section
/-! DEFINITION. The agents other than the host thread whose command is in progress: the IRQ drain
(spec/42_events_timers.md R184 to R189), the timers (R202, R203), the abort source (R191), TRX_IN
(R192), the blocked commands (R210, R215, spec/45_controller.md R302), the commands of other
threads, and the run of a command with what all of them do between its frames
(spec/20_memory.md R86). -/

namespace Sys2Proof.Machine

open Sys2Proof

/-! ## Interrupt agents -/

/-- The IRQ agent may leave Idle (R184): the line is serviced (spec/10_state.md R44) and
asserted. -/
def State.drainEnabled (s : State) : Bool :=
  decide (s.irqAgent = .idle) && decide (s.phase = .ready) && !s.lp && s.irqLine

/-- The frame of one status read of the drain (spec/30_encoding.md R110). -/
def drainFrame (cfg : Params) : List Byte := [modeRead cfg cfg.regIrqStatusBase]

/-- One step of the drain loop (R185 to R187). It needs no phase: a drain that is Draining runs to
its exit (R188), also one that DEINIT leaves behind (spec/45_controller.md R301). Between INIT's
frames it waits: `windowAgent`. -/
def State.drainStep (s : State) : State :=
  match s.irqAgent with
  | .idle => s
  | .draining =>
    if s.irqLine then
      { s.frame (drainFrame s.cfg) s.cfg.nIrqRegs with
        irqAcc := s.irqAcc ||| irqWord (s.answers s.cfg.nIrqRegs) }
    else { s.setFlag .irq with irqAgent := .idle }

/-- Expiry of a running timer (R202). -/
def State.expire (s : State) (t : TimerId) : State :=
  if (s.tmr t).run then s.setTmr t (s.tmr t).expired else s

/-- Delivery of an expired timer's flag (R203). -/
def State.deliver (s : State) (t : TimerId) : State :=
  if (s.tmr t).pend && (s.tmr t).init then
    (s.setTmr t { s.tmr t with pend := false }).setFlag t.flag
  else s

/-! ## Blocked commands -/

/-- The thread is blocked in EVENT_WAIT or ACQUIRE. -/
def State.blocked (s : State) (t : ThreadId) : Bool :=
  decide (s.waiter.map Waiter.thread = some t) || decide (t ∈ s.acquirers)

/-- The timeout of a blocked ACQUIRE: it returns Busy (spec/45_controller.md R302). -/
def State.acquireTimeout (s : State) (t : ThreadId) : State :=
  if t ∈ s.acquirers then
    { s with acquirers := s.acquirers.filter (· ≠ t) }.reply t (errRecord .busy [])
  else s

/-- AcquireTake: a blocked ACQUIRE takes the free lock (spec/45_controller.md R302). It needs
`S.PHASE = Ready`: "ACQUIRE sets a holder only when `PHASE = Ready`" (R313). DEDUCED, log 6. -/
def State.acquireTake (s : State) (t : ThreadId) : State :=
  if t ∈ s.acquirers ∧ s.holder = none ∧ s.phase = .ready then
    { s with acquirers := s.acquirers.filter (· ≠ t), holder := some t }.reply t (okRecord [])
  else s

/-- The blocked EVENT_WAIT is woken by a flag of its wait set (R210). -/
def State.wake (s : State) : State :=
  match s.waiter with
  | none => s
  | some w =>
    if s.fired = 0 then s
    else { s.consume with waiter := none }.reply w.thread (okRecord (bytes32 s.firedEvents))

/-- The timeout of the blocked EVENT_WAIT (R215). -/
def State.waitTimeout (s : State) : State :=
  match s.waiter with
  | none => s
  | some w => { s with waiter := none }.reply w.thread (okRecord (bytes32 evTimeout))

/-! ## Agent steps -/

/-- A step of an agent; while the block is halted none is taken (spec/60_exceptions.md R327). -/
def agentStep (a : AgentStep) (s : State) : State :=
  if s.halted then s
  else
    match a with
    | .line level => { s with irqLine := level }
    | .drainEnter => if s.drainEnabled then { s with irqAgent := .draining } else s
    | .drainStep => s.drainStep
    | .expire t => s.expire t
    | .deliver t => s.deliver t
    | .abort => s.setFlag .abort
    | .trxIn => s.setFlag .trxRx
    | .acquireTimeout t => s.acquireTimeout t

/-- INIT and DEINIT: each runs as one step with respect to the other and to itself
(spec/45_controller.md R300, R301). -/
def lifecycle : Instr → Bool
  | .init => true
  | .deinit => true
  | _ => false

/-- A part of another thread's command was run from `s`: its result is returned, or it has taken its
last step, or its next frame is to come. -/
def settle (t : ThreadId) (p : Prog (List Byte)) (others : List Pending) (s : State) :
    List Pending × State :=
  match p with
  | .go record u => (others, u.reply t record)
  | .stop u => (others, u)
  | .void => (others, s)
  | .gap u next => (others ++ [⟨t, next⟩], u)

/-- A thread's command has sent a frame and not its last one. -/
def inProgress (t : ThreadId) (others : List Pending) : Bool :=
  others.any fun p => decide (p.thread = t)

/-- What a command of another thread does between two frames of a command, its checks passed: its
effect up to its end or to the place before its second frame. INIT and DEINIT are not taken there
(log 7). While the command in progress holds the lock, the checks of every command that needs it
fail, so only ABORT_REQUEST, ACQUIRE (which blocks) and the codec's commands come here; between the
frames of DEINIT, which holds no lock, a thread may also take the lock and use it
(spec/20_memory.md R86, spec/45_controller.md R302). -/
def otherEffect (i : Instr) (t : ThreadId) (others : List Pending) (s : State) :
    List Pending × State :=
  if lifecycle i then (others, s) else settle t (instrEffect i t s) others s

/-- A command record of another thread between two frames of a command in progress: a failing check
halts the block; otherwise it has its effect. A thread whose own command is in progress, or blocked,
issues nothing. During INIT and DEINIT, the only commands with frames that hold no lock, INIT and
DEINIT are not taken (spec/45_controller.md R300, R301, log 7). -/
def otherCommand (t : ThreadId) (record : List Byte) (others : List Pending) (s : State) :
    List Pending × State :=
  if t = s.cur ∨ s.blocked t = true ∨ s.halted = true ∨ inProgress t others = true then (others, s)
  else
    match decode record with
    | .error (.illegalOpcode _) => (others, s.takeFault .illegalCommand)
    | .error .shortRecord => (others, s)
    | .ok (i, _) =>
      if lifecycle i = true ∧ s.holder ≠ some s.cur then (others, s)
      else
        match firstFail (instrChecks i t s) with
        | some c => (others, s.takeFault c)
        | none => otherEffect i t others s

/-- Another thread's command goes on with its next frame, up to its end or to the place before the
frame after it. -/
def resume (t : ThreadId) (others : List Pending) (s : State) : List Pending × State :=
  match others.find? fun p => decide (p.thread = t) with
  | none => (others, s)
  | some p => settle t (p.next s) (others.filter fun p => decide (p.thread ≠ t)) s

/-- Another host thread gives one of its handles a buffer (spec/10_state.md R50); a thread whose
command is in progress does nothing else. -/
def otherBuffer (t : ThreadId) (h : Byte) (bytes : List Byte) (others : List Pending) (s : State) :
    State :=
  if t = s.cur ∨ inProgress t others = true then s else s.giveBuffer t h bytes

/-- A thread other than the one whose command is in progress waits for events: it is the holder
(spec/60_exceptions.md R342). -/
def State.otherWaits (s : State) : Bool :=
  match s.waiter with
  | none => false
  | some w => decide (s.holder = some w.thread) && decide (w.thread ≠ s.cur)

/-- A step of an agent between two frames of a command in progress. "The IRQ drain cannot run during
INIT" (spec/45_controller.md R300): a drain that a DEINIT left Draining takes no step there, and goes
on after INIT (DEDUCED, log 37). In a window the phase is Uninit only during INIT, since every other
command with frames needs `S.PHASE = Ready` or the lock, which is free before (R313). -/
def windowAgent (a : AgentStep) (s : State) : State :=
  if a = .drainStep ∧ s.phase = .uninit then s else agentStep a s

/-- One step of another agent or thread between two frames of a command in progress. `others` are
the commands of other threads that have sent a frame and not their last one. -/
def windowStep (x : WindowStep) (others : List Pending) (s : State) : List Pending × State :=
  match x with
  | .agent a => (others, windowAgent a s)
  | .command t record => otherCommand t record others s
  | .resume t => resume t others s
  | .hostBuffer t h bytes => (others, otherBuffer t h bytes others s)
  | .acquireTake t => (others, s.acquireTake t)
  | .wake => (others, if s.otherWaits then s.wake else s)
  | .waitTimeout => (others, if s.otherWaits then s.waitTimeout else s)
  | .reset => ([], s.blockReset)

/-- The steps of other agents between two frames of a command. The command goes on unless the block
is reset (log 30) or halted (R327) meanwhile. -/
def runWindow : List WindowStep → List Pending → State → Run (List Pending)
  | [], others, s => .go others s
  | x :: r, others, s =>
    match windowStep x others s with
    | (others', s') =>
      if x = .reset ∨ s'.halted = true then .stop s' else runWindow r others' s'

/-- What stands between the last frame and the next one of the command in progress. Its answer is
never `.void`: windows go on or end the command. -/
def State.interleave (s : State) (others : List Pending) : Run (List Pending) :=
  match s.windows with
  | [] => .go others s
  | w :: ws => runWindow w others { s with windows := ws }

/-- A command with the steps of other agents between its frames (spec/20_memory.md R86); `others`
are the commands of other threads in progress. At its end none is: beside every command but DEINIT
no other thread can use the lock, which each command with frames but INIT and DEINIT needs; and while
another thread's command is in progress its thread holds the lock, so that DEINIT's last step is not
enabled (log 7). -/
def Prog.weave {α : Type} (p : Prog α) (others : List Pending) : Run α :=
  match p with
  | .go a s => .go a s
  | .stop s => .stop s
  | .void => .void
  | .gap s next =>
    match s.interleave others with
    | .go others' s' => (next s').weave others'
    | .stop s' => .stop s'
    | .void => .void

end Sys2Proof.Machine
end

