-- ==== Sys2Proof/Machine/Driver.lean ====
section
/-! DEFINITION. The commands of the register and FIFO driver (spec/41_driver.md R140 to R158): their
checks (`instrChecks`), then their effect, with the other agents between their frames. -/

namespace Sys2Proof.Machine

open Sys2Proof

/-- A command of the issuing thread `s.cur`, with its checks in their order
(spec/60_exceptions.md R329). -/
def checked (i : Instr) (s : State) (effect : Prog (List Byte)) :
    Host.Outcome State Fault Refusal :=
  command s (firstFail (instrChecks i s.cur s)) (effect.weave [])

/-- REG_READ (R140). -/
def execRegRead (a : Byte) (s : State) : Host.Outcome State Fault Refusal :=
  checked (.regRead a) s (regReadEffect a s)

/-- REG_WRITE (R142). -/
def execRegWrite (a v : Byte) (s : State) : Host.Outcome State Fault Refusal :=
  checked (.regWrite a v) s (regWriteEffect a v s)

/-- REG_READ_BURST (R143). -/
def execRegReadBurst (a : Byte) (n : BitVec 16) (buf : Byte) (s : State) :
    Host.Outcome State Fault Refusal :=
  checked (.regReadBurst a n buf) s (regReadBurstEffect a n buf s.cur s)

/-- REG_WRITE_BURST (R144). -/
def execRegWriteBurst (a : Byte) (n : BitVec 16) (buf : Byte) (s : State) :
    Host.Outcome State Fault Refusal :=
  checked (.regWriteBurst a n buf) s (regWriteBurstEffect a n buf s.cur s)

/-- REG_CHANGE_BITS (R146). -/
def execRegChangeBits (a mask val : Byte) (s : State) : Host.Outcome State Fault Refusal :=
  checked (.regChangeBits a mask val) s (regChangeBitsEffect a mask val s)

/-- REG_SET_BITS (R147). -/
def execRegSetBits (a mask : Byte) (s : State) : Host.Outcome State Fault Refusal :=
  checked (.regSetBits a mask) s (regSetBitsEffect a mask s)

/-- REG_CLEAR_BITS (R148). -/
def execRegClearBits (a mask : Byte) (s : State) : Host.Outcome State Fault Refusal :=
  checked (.regClearBits a mask) s (regClearBitsEffect a mask s)

/-- TEST_REG_READ (R149). -/
def execTestRegRead (ta : Byte) (s : State) : Host.Outcome State Fault Refusal :=
  checked (.testRegRead ta) s (testRegReadEffect ta s)

/-- TEST_REG_WRITE (R150). -/
def execTestRegWrite (ta v : Byte) (s : State) : Host.Outcome State Fault Refusal :=
  checked (.testRegWrite ta v) s (testRegWriteEffect ta v s)

/-- FIFO_WRITE (R152). -/
def execFifoWrite (buf : Byte) (bits : BitVec 16) (s : State) : Host.Outcome State Fault Refusal :=
  checked (.fifoWrite buf bits) s (fifoWriteEffect buf bits s.cur s)

/-- FIFO_READ (R155). -/
def execFifoRead (buf : Byte) (s : State) : Host.Outcome State Fault Refusal :=
  checked (.fifoRead buf) s (fifoReadEffect buf s.cur s)

/-- DIRECT_CMD (R158). -/
def execDirectCmd (c : Byte) (s : State) : Host.Outcome State Fault Refusal :=
  checked (.directCmd c) s (directCmdEffect c s)

end Sys2Proof.Machine
end

