-- ==== Sys2Proof/Machine/Codec.lean ====
section
/-! DEFINITION. The two codec commands (spec/44_iso15693_codec.md R264, R270). They need no lock,
phase or mode (R260). -/

namespace Sys2Proof.Machine

open Sys2Proof

/-- ISO15693_ENCODE_FRAME (R264). -/
def execIso15693EncodeFrame (bin : Byte) (n : BitVec 32) (bout : Byte) (s : State) :
    Host.Outcome State Fault Refusal :=
  checked (.iso15693EncodeFrame bin n bout) s (encodeEffect bin n bout s.cur s)

/-- ISO15693_DECODE_FRAME (R270). -/
def execIso15693DecodeFrame (bin : Byte) (ibits : BitVec 32) (bout : Byte) (s : State) :
    Host.Outcome State Fault Refusal :=
  checked (.iso15693DecodeFrame bin ibits bout) s (decodeEffect bin ibits bout s.cur s)

end Sys2Proof.Machine
end

