-- ==== Sys2Proof/Machine/Controller.lean ====
section
/-! DEFINITION. The controller's commands (spec/45_controller.md R300 to R310): their checks, then
their effect, with the other agents between their frames. -/

namespace Sys2Proof.Machine

open Sys2Proof

/-- INIT (R300). -/
def execInit (s : State) : Host.Outcome State Fault Refusal :=
  checked .init s (initEffect s.cur s)

/-- DEINIT (R301). -/
def execDeinit (s : State) : Host.Outcome State Fault Refusal :=
  checked .deinit s (deinitEffect s.cur s)

/-- ACQUIRE (R302). -/
def execAcquire (s : State) : Host.Outcome State Fault Refusal :=
  checked .acquire s (acquireEffect s.cur s)

/-- RELEASE (R304). -/
def execRelease (s : State) : Host.Outcome State Fault Refusal :=
  checked .release s (releaseEffect s)

/-- FIELD_ON (R306). -/
def execFieldOn (s : State) : Host.Outcome State Fault Refusal :=
  checked .fieldOn s (fieldOnEffect s.cur s)

/-- FIELD_DETECT_START (R308). -/
def execFieldDetectStart (s : State) : Host.Outcome State Fault Refusal :=
  checked .fieldDetectStart s (fieldDetectStartEffect s.cur s)

/-- FIELD_DETECT_STOP (R309). -/
def execFieldDetectStop (s : State) : Host.Outcome State Fault Refusal :=
  checked .fieldDetectStop s (fieldDetectStopEffect s.cur s)

/-- FIELD_PRESENT (R310). -/
def execFieldPresent (s : State) : Host.Outcome State Fault Refusal :=
  checked .fieldPresent s (fieldPresentEffect s)

end Sys2Proof.Machine
end

