-- ==== Sys2Proof/Machine/Events.lean ====
section
/-! DEFINITION. The commands of the event and timer arbiter (spec/42_events_timers.md R180 to
R217): their checks, then their effect. None sends a bus frame. -/

namespace Sys2Proof.Machine

open Sys2Proof

/-- LP_EXIT (R180). -/
def execLpExit (s : State) : Host.Outcome State Fault Refusal :=
  checked .lpExit s (lpExitEffect s)

/-- LP_ENTER (R181). -/
def execLpEnter (s : State) : Host.Outcome State Fault Refusal :=
  checked .lpEnter s (lpEnterEffect s)

/-- TIMER_START_FC (R196). -/
def execTimerStartFc (t : Byte) (d : BitVec 32) (s : State) : Host.Outcome State Fault Refusal :=
  checked (.timerStartFc t d) s (timerStartFcEffect t d s)

/-- TIMER_START_US (R197). -/
def execTimerStartUs (t : Byte) (d : BitVec 32) (s : State) : Host.Outcome State Fault Refusal :=
  checked (.timerStartUs t d) s (timerStartUsEffect d s)

/-- TIMER_STOP (R205). -/
def execTimerStop (t : Byte) (s : State) : Host.Outcome State Fault Refusal :=
  checked (.timerStop t) s (timerStopEffect t s)

/-- EVENT_WAIT (R210). -/
def execEventWait (tmo : BitVec 32) (s : State) : Host.Outcome State Fault Refusal :=
  checked (.eventWait tmo) s (eventWaitEffect tmo s.cur s)

/-- ABORT_REQUEST (R217). -/
def execAbortRequest (s : State) : Host.Outcome State Fault Refusal :=
  checked .abortRequest s (abortRequestEffect s)

end Sys2Proof.Machine
end

