-- ==== Sys2Proof/Machine/Technology.lean ====
section
/-! DEFINITION. The commands of the technology layer (spec/43_technology.md R231 to R249): their
checks, then their effect, with the other agents between their frames. -/

namespace Sys2Proof.Machine

open Sys2Proof

/-- SET_MODE (R231). -/
def execSetMode (mode tech : Byte) (s : State) : Host.Outcome State Fault Refusal :=
  checked (.setMode mode tech) s (setModeEffect mode tech s.cur s)

/-- RESET_MODE (R234). -/
def execResetMode (s : State) : Host.Outcome State Fault Refusal :=
  checked .resetMode s (resetModeEffect s.cur s)

/-- TRANSMIT (R237). -/
def execTransmit (buf : Byte) (bits : BitVec 16) (s : State) : Host.Outcome State Fault Refusal :=
  checked (.transmit buf bits) s (transmitEffect buf bits s.cur s)

/-- RECEIVE (R240). -/
def execReceive (buf : Byte) (s : State) : Host.Outcome State Fault Refusal :=
  checked (.receive buf) s (receiveEffect buf s.cur s)

/-- TX_SHORT_FRAME (R245). -/
def execTxShortFrame (k : Byte) (s : State) : Host.Outcome State Fault Refusal :=
  checked (.txShortFrame k) s (txShortFrameEffect k s.cur s)

/-- LISTENER_SLEEP (R247). -/
def execListenerSleep (s : State) : Host.Outcome State Fault Refusal :=
  checked .listenerSleep s (listenerSleepEffect s.cur s)

/-- LISTENER_IDLE (R248). -/
def execListenerIdle (s : State) : Host.Outcome State Fault Refusal :=
  checked .listenerIdle s (listenerIdleEffect s.cur s)

end Sys2Proof.Machine
end

