-- ==== Sys2Proof/Machine/Dispatch.lean ====
section
/-! DEFINITION. One arm for each command of spec/30_encoding.md R103. -/

namespace Sys2Proof.Machine

open Sys2Proof

def exec (i : Instr) (s : State) : Host.Outcome State Fault Refusal :=
  match i with
  | .regRead a => Sys2Proof.Machine.execRegRead a s
  | .regWrite a v => Sys2Proof.Machine.execRegWrite a v s
  | .regReadBurst a n buf => Sys2Proof.Machine.execRegReadBurst a n buf s
  | .regWriteBurst a n buf => Sys2Proof.Machine.execRegWriteBurst a n buf s
  | .regChangeBits a mask val => Sys2Proof.Machine.execRegChangeBits a mask val s
  | .regSetBits a mask => Sys2Proof.Machine.execRegSetBits a mask s
  | .regClearBits a mask => Sys2Proof.Machine.execRegClearBits a mask s
  | .testRegRead ta => Sys2Proof.Machine.execTestRegRead ta s
  | .testRegWrite ta v => Sys2Proof.Machine.execTestRegWrite ta v s
  | .fifoWrite buf bits => Sys2Proof.Machine.execFifoWrite buf bits s
  | .fifoRead buf => Sys2Proof.Machine.execFifoRead buf s
  | .directCmd c => Sys2Proof.Machine.execDirectCmd c s
  | .lpExit => Sys2Proof.Machine.execLpExit s
  | .lpEnter => Sys2Proof.Machine.execLpEnter s
  | .timerStartFc t d => Sys2Proof.Machine.execTimerStartFc t d s
  | .timerStartUs t d => Sys2Proof.Machine.execTimerStartUs t d s
  | .timerStop t => Sys2Proof.Machine.execTimerStop t s
  | .eventWait tmo => Sys2Proof.Machine.execEventWait tmo s
  | .abortRequest => Sys2Proof.Machine.execAbortRequest s
  | .setMode mode tech => Sys2Proof.Machine.execSetMode mode tech s
  | .resetMode => Sys2Proof.Machine.execResetMode s
  | .transmit buf bits => Sys2Proof.Machine.execTransmit buf bits s
  | .receive buf => Sys2Proof.Machine.execReceive buf s
  | .txShortFrame k => Sys2Proof.Machine.execTxShortFrame k s
  | .listenerSleep => Sys2Proof.Machine.execListenerSleep s
  | .listenerIdle => Sys2Proof.Machine.execListenerIdle s
  | .iso15693EncodeFrame bin n bout => Sys2Proof.Machine.execIso15693EncodeFrame bin n bout s
  | .iso15693DecodeFrame bin ibits bout => Sys2Proof.Machine.execIso15693DecodeFrame bin ibits bout s
  | .init => Sys2Proof.Machine.execInit s
  | .deinit => Sys2Proof.Machine.execDeinit s
  | .acquire => Sys2Proof.Machine.execAcquire s
  | .release => Sys2Proof.Machine.execRelease s
  | .fieldOn => Sys2Proof.Machine.execFieldOn s
  | .fieldDetectStart => Sys2Proof.Machine.execFieldDetectStart s
  | .fieldDetectStop => Sys2Proof.Machine.execFieldDetectStop s
  | .fieldPresent => Sys2Proof.Machine.execFieldPresent s

end Sys2Proof.Machine
end

