-- ==== Sys2Proof/Machine/Port.lean ====
section
/-! DEFINITION. The command port (spec/30_encoding.md R100, R106): what issuing a record does. Step
calls it. -/

namespace Sys2Proof.Machine

open Sys2Proof

/-- Thread `t` issues a record, with the steps other agents take between its frames. A blocked
thread issues nothing (log 24). An unknown opcode ends in Fault(ILLEGAL_COMMAND) (R106). A record
that is too short cannot be issued (R105, log 25). -/
def issue (t : ThreadId) (record : List Byte) (windows : List (List WindowStep)) (s : State) :
    Host.Outcome State Fault Refusal :=
  if s.blocked t then .next s
  else
    match decode record with
    | .ok (i, _) => exec i { s with cur := t, windows := windows }
    | .error (.illegalOpcode _) =>
      .next ({ s with cur := t, windows := windows }.takeFault .illegalCommand)
    | .error .shortRecord => .refused .shortRecord

/-- One item of the schedule, the block not halted. -/
def schedStep (item : SchedItem) (s : State) : Host.Outcome State Fault Refusal :=
  match item with
  | .command t record windows => issue t record windows s
  | .agent a => .next (agentStep a s)
  | .acquireTake t => .next (s.acquireTake t)
  | .wake => .next s.wake
  | .waitTimeout => .next s.waitTimeout
  | .hostBuffer t h bytes => .next (s.giveBuffer t h bytes)
  | .reset => .next s.blockReset

/-- The item of the schedule in a halted block: only the reset event is left
(spec/60_exceptions.md R327, R336). -/
def haltedStep (item : SchedItem) (c : FatalCode) (s : State) :
    Host.Outcome State Fault Refusal :=
  match item with
  | .reset => .next s.blockReset
  | _ => .fault (.halted c)

/-- A command record for the port, from a table word: bits from `nbits` up are 0. -/
def portItem (t : ThreadId) (nbits w : Nat) : SchedItem :=
  .command t (tableWordBytes nbits w) []

/-- The thread is blocked in nothing. -/
def State.unblock (s : State) (t : ThreadId) : State :=
  { s with
    waiter := if s.waiter.map Waiter.thread = some t then none else s.waiter
    acquirers := s.acquirers.filter (· ≠ t) }

end Sys2Proof.Machine
end

