-- ==== Sys2Proof/Machine/Step.lean ====
section
/-! DEFINITION. One step of the machine: the next item of the schedule (spec/20_memory.md R86). The
block has no program counter and fetches nothing (spec/10_state.md R31). -/

namespace Sys2Proof.Machine

open Sys2Proof

/-- The item at the head of the schedule is taken. With no item no agent moves and the state stays:
"after reset the block takes no step until a host thread issues a command"
(spec/70_reset_and_hazards.md R361, log 4). -/
def step (s : State) : Host.Outcome State Fault Refusal :=
  match s.sched with
  | [] => .next s
  | item :: rest =>
    match s.fault with
    | some c => haltedStep item c { s with sched := rest }
    | none => schedStep item { s with sched := rest }

/-- The command record of a table word is the next item of the schedule, issued by the thread
`s.cur`, which is not blocked. -/
def State.withFetchWord (s : State) (nbits w : Nat) : State :=
  { s.unblock s.cur with sched := portItem s.cur nbits w :: s.sched }

end Sys2Proof.Machine
end

