-- ==== Sys2Proof/Safety.lean ====
section
/-! DEFINITION. What claims call a safe state or run: no fatal check has failed
(spec/60_exceptions.md R320), and the invariants that spec/ states of every reachable state. -/

namespace Sys2Proof.Machine

open Sys2Proof

/-- No fatal check has failed. -/
def State.noFault (s : State) : Prop := s.fault = none

/-- A run of `n` steps that ends in a state with no failed check. -/
def safeRun (n : Nat) (s : State) : Prop :=
  ∃ t, Sys2Proof.core.run n s = .next t ∧ State.noFault t

/-- A timer that is torn down neither runs nor has an undelivered expiry. -/
def Timer.sound (v : Timer) : Prop := v.init = false → v.run = false ∧ v.pend = false

/-- What holds of every reachable state: mode and technology are selected together
(spec/10_state.md R36), the live context is the selected technology's (R37), the lock is free
while uninitialised (spec/45_controller.md R313), the waiter is the holder (spec/60_exceptions.md
R342), a mode is selected only while initialised, in low power and while uninitialised the timers
are torn down (spec/10_state.md R34), a torn timer is idle, and the causes fit their width (R40). -/
structure State.Inv (s : State) : Prop where
  mode_tech : s.mode = .none ↔ s.tech = none
  ctx_tech : s.ctx = s.tech
  uninit_free : s.phase = .uninit → s.holder = none
  uninit_mode : s.phase = .uninit → s.mode = .none
  uninit_lp : s.phase = .uninit → s.lp = true
  waiter_holder : ∀ w, s.waiter = some w → s.holder = some w.thread
  lp_timers : s.lp = true → s.fwt.init = false ∧ s.btx.init = false
  fwt_sound : s.fwt.sound
  btx_sound : s.btx.sound
  causes_fit : s.irqAcc < 2 ^ (8 * s.cfg.nIrqRegs)

/-- The block runs and the issuing thread holds the lock: what a driver command needs
(spec/41_driver.md R139). -/
def State.holding (s : State) : Prop := s.fault = none ∧ s.holder = some s.cur

/-- The block runs, it is initialised and the issuing thread holds the lock
(spec/42_events_timers.md R182, spec/43_technology.md R230, spec/45_controller.md R311). -/
def State.serving (s : State) : Prop :=
  s.fault = none ∧ s.phase = .ready ∧ s.holder = some s.cur

/-- A fatal check of the command fails, with the code given: the fault entry writes `S.FAULT` and
nothing else (spec/60_exceptions.md R326). With no code it says nothing. -/
def Raises (i : Instr) (s : State) (code : Option FatalCode) : Prop :=
  ∀ c, code = some c → exec i s = .next { s with fault := some c }

/-- An address that the register commands admit: no bit but the register number's and
`SPACE_B_BIT` is set (spec/20_memory.md R71; log 21 where the widths are not R11's). -/
abbrev addrLegal (cfg : Params) (a : Byte) : Prop :=
  a &&& ~~~(cfg.spaceBBit.zeroExtend 8 ||| BitVec.ofNat 8 (2 ^ cfg.regAddrBits.val - 1)) = 0

/-- The register number of an address, in the six places of a mode byte (spec/30_encoding.md
R108). -/
def regOf (cfg : Params) (a : Byte) : BitVec 6 := BitVec.ofNat 6 (a.toNat % 2 ^ cfg.regAddrBits.val)

/-- The byte before a space-B access (spec/41_driver.md R141). -/
def prefixOf (cfg : Params) (a : Byte) : List Byte :=
  if a &&& cfg.spaceBBit.zeroExtend 8 ≠ 0 then [cfg.spiSpaceBPrefix] else []

/-- The widths and the mode bits have the values of spec/00_scope.md R11. -/
def wireDefaults (cfg : Params) : Prop :=
  cfg.regAddrBits = 6 ∧ cfg.spaceBBit = 0x40 ∧ cfg.spiRegWrite = 0b00 ∧ cfg.spiRegRead = 0b01 ∧
  cfg.spiDirectCmd = 0b11

/-- The FIFO byte count of two status bytes, in `FIFO_CNT_BITS` bits (spec/41_driver.md R154). -/
def statusCount (cfg : Params) (s1 s2 : Byte) : Nat :=
  (s2.toNat / 64 * 256 + s1.toNat) % 2 ^ cfg.fifoCntBits

/-- A byte that DIRECT_CMD admits (spec/41_driver.md R158). -/
abbrev directLegal (cfg : Params) (c : Byte) : Prop :=
  c.toNat / 64 = cfg.spiDirectCmd.toNat ∧ c ≠ cfg.spiSpaceBPrefix ∧ c ≠ cfg.spiTestPrefix

/-- The handles of the issuing thread that a parameter sequence stores to. -/
def seqStores (l : List DriverCmd) : List Byte :=
  l.filterMap fun c =>
    match c with
    | .regReadBurst _ _ h => some h
    | .fifoRead h => some h
    | _ => none

/-- The command record that issues a driver command (spec/43_technology.md R232). -/
def driverInstr : DriverCmd → Instr
  | .regRead a => .regRead a
  | .regWrite a v => .regWrite a v
  | .regReadBurst a n h => .regReadBurst a n h
  | .regWriteBurst a n h => .regWriteBurst a n h
  | .regChangeBits a mask val => .regChangeBits a mask val
  | .regSetBits a mask => .regSetBits a mask
  | .regClearBits a mask => .regClearBits a mask
  | .testRegRead ta => .testRegRead ta
  | .testRegWrite ta v => .testRegWrite ta v
  | .fifoWrite h bits => .fifoWrite h bits
  | .fifoRead h => .fifoRead h
  | .directCmd c => .directCmd c

/-- `u` is what running a sequence alone leaves of `s`: the run goes on to its end; it only adds
frames and takes chip answers; no field but the bus, the chip's answers and the buffers differs; and
of the buffers only bytes of the handles the sequence stores to, since two handles never name one
buffer (the model's choice, log 35). -/
structure SeqRan (mid : Bool) (l : List DriverCmd) (s u : State) : Prop where
  runs : (runSeq mid s.cur l s).weave [] = .go () u
  frames : ∃ sent, u.bus = s.bus ++ sent
  rest : { u with bus := s.bus, chipIn := s.chipIn, draws := s.draws, bufs := s.bufs } = s
  bytes : ∀ t h j, (t ≠ s.cur ∨ h ∉ seqStores l) → u.bufByte t h j = s.bufByte t h j
  caps : ∀ t h, u.cap t h = s.cap t h

/-- A schedule item that resets the block, at once or between two frames of its command. -/
def SchedItem.resets : SchedItem → Bool
  | .reset => true
  | .command _ _ windows => windows.any fun w => w.contains .reset
  | _ => false

/-- The records that a schedule item issues: its own, and those in its windows. -/
def SchedItem.records : SchedItem → List (List Byte)
  | .command _ record windows =>
    record :: windows.flatten.filterMap fun x =>
      match x with
      | .command _ r => some r
      | _ => none
  | _ => []

/-- A schedule item that wakes a blocked EVENT_WAIT, at once or in a window. -/
def SchedItem.wakes : SchedItem → Bool
  | .wake => true
  | .command _ _ windows => windows.any fun w => w.contains .wake
  | _ => false

/-- The host-buffer table is in its one canonical form. -/
def State.bufsOk (s : State) : Prop := bufsWf s.bufs = true

/-! ## Infinite runs and their fairness (spec/70_reset_and_hazards.md R378) -/

/-- The threads that a schedule item names. -/
def SchedItem.threads : SchedItem → List ThreadId
  | .command t _ windows =>
    t :: windows.flatten.filterMap fun x =>
      match x with
      | .command u _ => some u
      | .resume u => some u
      | .hostBuffer u _ _ => some u
      | .acquireTake u => some u
      | .agent (.acquireTimeout u) => some u
      | _ => none
  | .agent (.acquireTimeout t) => [t]
  | .acquireTake t => [t]
  | .hostBuffer t _ _ => [t]
  | _ => []

/-- An infinite run: from each of its states the machine takes the item given, and none names a
thread beyond `N_THREADS` (spec/60_exceptions.md R341). A block that stays halted has no infinite
run: "A blocked command stays blocked forever" (R327). -/
structure Execution (state : Nat → State) (item : Nat → SchedItem) : Prop where
  next : ∀ n, step { state n with sched := [item n] } = .next (state (n + 1))
  threads : ∀ n, ∀ t ∈ (item n).threads, t < (state n).cfg.nThreads

/-- The states that the steps between two frames leave, one after the other. -/
def windowStates : List WindowStep → List Pending → State → List State
  | [], _, _ => []
  | x :: r, others, s =>
    match windowStep x others s with
    | (others', s') =>
      s' :: if x = .reset ∨ s'.halted = true then [] else windowStates r others' s'

/-- The states that a command passes between its frames: after each of its frames but the last, and
after each step that other agents take there. -/
def Prog.states {α : Type} (p : Prog α) (others : List Pending) : List State :=
  match p with
  | .go _ _ => []
  | .stop _ => []
  | .void => []
  | .gap s next =>
    s :: (windowStates (s.windows.headD []) others { s with windows := s.windows.tail } ++
      match s.interleave others with
      | .go others' s' => (next s').states others'
      | .stop _ => []
      | .void => [])

/-- The states that the issuing thread's command passes between its frames, its checks passed: none
where it has no run with its windows (log 7). -/
def commandStates (i : Instr) (s : State) : List State :=
  match (instrEffect i s.cur s).weave [] with
  | .void => []
  | _ => (instrEffect i s.cur s).states []

/-- The states that the machine passes in the step of an item that is the whole schedule: the state in
which the step begins and, where the item issues a command whose checks pass, those between its
frames. The state in which the step ends is the one in which the next step begins. -/
def SchedItem.states (item : SchedItem) (s : State) : List State :=
  match item with
  | .command t record windows =>
    match decode record with
    | .ok (i, _) =>
      if s.blocked t = true ∨ s.halted = true ∨ firstFail (instrChecks i t s) ≠ none then [s]
      else s :: commandStates i { s with sched := [], cur := t, windows := windows }
    | .error _ => [s]
  | _ => [s]

/-- The fairness of R378 a and b (spec/92_eei_decisions.md D54): a blocked EVENT_WAIT and a blocked
ACQUIRE end, since their timeout is taken unless something else ends them first; a running timer
stops running, since its expiry is taken unless something else stops it first; a pending delivery is
taken, or dropped, or its timer torn down. The states are all that the machine passes, those between
the frames of a command among them: what ends there has ended, also where the thread is blocked
again, or the timer pends again, before the command returns. Nothing is asked of the drain (c) and no
order among the steps (d). -/
structure Fair (state : Nat → State) (item : Nat → SchedItem) : Prop where
  wait : ∀ n w, (state n).waiter = some w →
    ∃ m, n ≤ m ∧ ∃ v ∈ (item m).states (state m), v.waiter ≠ some w
  acquire : ∀ n t, t ∈ (state n).acquirers →
    ∃ m, n ≤ m ∧ ∃ v ∈ (item m).states (state m), t ∉ v.acquirers
  expiry : ∀ n k, ((state n).tmr k).run = true →
    ∃ m, n ≤ m ∧ ∃ v ∈ (item m).states (state m), (v.tmr k).run = false
  delivery : ∀ n k, ((state n).tmr k).pend = true → ((state n).tmr k).init = true →
    ∃ m, n ≤ m ∧ ∃ v ∈ (item m).states (state m),
      (v.tmr k).pend = false ∨ (v.tmr k).init = false

end Sys2Proof.Machine
end

