-- ==== Sys2Proof/Certificates/Slice0/Obligations.lean ====
section
/-! DEFINITION. The statements for the provers, from the numbered rules of spec/. A statement whose
title says 'alone' is about a command between whose frames no other agent steps (`windows = []`);
the others hold with any steps between the frames. -/

open Sys2Proof Sys2Proof.Machine

/-! ## Records (spec/30_encoding.md) -/

/-- R100, R103: decoding a record gives its command back, with every operand at every value, and
leaves the bytes that follow. -/
def Obligations.DecodeEncodeAgree : Prop :=
  ∀ (i : Instr) (rest : List Byte), decode (encode i ++ rest) = .ok (i, rest)

/-- R100, R103: each record has one command, and a command has one record. -/
def Obligations.EncodeDecodeAgree : Prop :=
  ∀ (i : Instr) (bytes rest : List Byte), decode bytes = .ok (i, rest) → bytes = encode i ++ rest

/-- R103: records written out from the table, with the commands they stand for. -/
def Obligations.RecordWordsDecode : Prop :=
  decode [0x02, 0x43, 0x10] = .ok (.regWrite 0x43 0x10, []) ∧
  decode [0x03, 0x1E, 0x02, 0x01, 0x05] = .ok (.regReadBurst 0x1E 0x0102 0x05, []) ∧
  decode [0x12, 0x00, 0x88, 0x13, 0x00, 0x01] = .ok (.timerStartFc 0x00 0x01001388, []) ∧
  decode [0x20, 0x01, 0x02] = .ok (.setMode 0x01 0x02, []) ∧
  decode [0x30, 0x00, 0x08, 0x00, 0x00, 0x00, 0x01] = .ok (.iso15693EncodeFrame 0 8 1, []) ∧
  decode [0x47] = .ok (.fieldPresent, [])

/-- R106: an opcode that is not in R103's table halts the block with ILLEGAL_COMMAND, and nothing
else is written. -/
def Obligations.IllegalOpcodeFaults : Prop :=
  ∀ (s : State) (t : ThreadId) (op : Byte) (r : List Byte) (w : List (List WindowStep))
    (rest : List SchedItem),
    s.fault = none → s.blocked t = false → s.sched = .command t (op :: r) w :: rest →
    op ∉ ([0x01, 0x02, 0x03, 0x04, 0x05, 0x06, 0x07, 0x08, 0x09, 0x0A, 0x0B, 0x0C,
      0x10, 0x11, 0x12, 0x13, 0x14, 0x15, 0x16, 0x20, 0x21, 0x22, 0x23, 0x24, 0x25, 0x26,
      0x30, 0x31, 0x40, 0x41, 0x42, 0x43, 0x44, 0x45, 0x46, 0x47] : List Byte) →
    step s =
      .next { s with sched := rest, cur := t, windows := w, fault := some .illegalCommand }

/-! ## The step -/

/-- A step runs the decoded command: when the head of the schedule is a record that decodes to `i`,
issued by a thread that is not blocked, the step is `exec i` at that state with the head taken off,
the issuing thread and the steps between the frames noted. The model's own convention for how a
command comes to run (log 3, log 4). -/
def Obligations.StepRunsDecoded : Prop :=
  ∀ (s : State) (t : ThreadId) (record : List Byte) (w : List (List WindowStep))
    (rest : List SchedItem) (i : Instr) (r : List Byte),
    s.fault = none → s.blocked t = false → s.sched = .command t record w :: rest →
    decode record = .ok (i, r) →
    step s = exec i { s with sched := rest, cur := t, windows := w }

/-- The other steps: with no item the block takes no step (R361; the model's choice of an empty
schedule is log 4), an agent's item is that agent's step, a blocked thread's command record is not
issued (log 24), and a host thread gives one of its handles a buffer of the size and with the bytes
given; handle 0xFF names no buffer (R104). That buffers and their bytes come by such a step (log 14;
between the frames of another thread's command it is a step of a window, log 3) and that every other
handle's buffer stays, since two handles never name one buffer (log 35), are the model's choices;
every other field is as before. -/
def Obligations.StepOfOtherItems : Prop :=
  ∀ (s : State), s.fault = none →
    (s.sched = [] → step s = .next s) ∧
    (∀ a rest, s.sched = .agent a :: rest → step s = .next (agentStep a { s with sched := rest })) ∧
    (∀ t record w rest, s.sched = .command t record w :: rest → s.blocked t = true →
      step s = .next { s with sched := rest }) ∧
    (∀ t h bytes rest, s.sched = .hostBuffer t h bytes :: rest →
      ∃ u, step s = .next u ∧ { u with bufs := s.bufs } = { s with sched := rest } ∧
        (h = 0xFF → u.bufs = s.bufs) ∧
        (h ≠ 0xFF → u.buffer t h ≠ none ∧ u.cap t h = bytes.length ∧
          ∀ j, j < bytes.length → u.bufByte t h j = bytes.getD j 0) ∧
        ∀ v k, ¬(v = t ∧ k = h) → u.buffer v k = s.buffer v k)

/-! ## Halted state and reset (spec/60_exceptions.md, spec/70_reset_and_hazards.md) -/

/-- R327: while `S.FAULT` is set no command has a step, no agent's step changes anything, a blocked
command stays blocked, and the reset event is the one schedule item that is taken: it leaves the
halted state. -/
def Obligations.HaltedOnlyResetMoves : Prop :=
  ∀ (s : State) (c : FatalCode), s.fault = some c →
    (∀ i, exec i s = .fault (.halted c)) ∧
    (∀ a, agentStep a s = s) ∧
    (∀ item rest, s.sched = item :: rest → item ≠ .reset → step s = .fault (.halted c)) ∧
    (∀ rest, s.sched = .reset :: rest → ∃ t, step s = .next t ∧ t.fault = none)

/-- R360, R52: reset is available from every state, halted or not, and leaves the block state of
R52: so does the state after reset. -/
def Obligations.ResetLeavesBlockState : Prop :=
  (∀ (s : State) (rest : List SchedItem), s.sched = .reset :: rest →
    ∃ t, step s = .next t ∧ t = State.blockReset { s with sched := rest }) ∧
  ∀ t : State, (t = State.reset ∨ ∃ s : State, t = s.blockReset) →
    t.phase = .uninit ∧ t.lp = true ∧ t.mode = .none ∧ t.tech = none ∧ t.ctx = none ∧
    t.holder = none ∧ t.evf = 0 ∧ t.irqAcc = 0 ∧ t.waiter = none ∧
    t.fwt = ⟨false, false, false, 0, 0⟩ ∧ t.btx = ⟨false, false, false, 0, 0⟩ ∧
    t.fault = none ∧ t.irqAgent = .idle ∧ t.acquirers = [] ∧ t.windows = []

/-! ## Invariants -/

/-- The invariants hold after reset (R52). The host-buffer table, empty after reset, has its
canonical form: that form is the model's own choice (log 14). -/
def Obligations.InvAtReset : Prop := State.Inv State.reset ∧ State.bufsOk State.reset

/-- Every step keeps the invariants: mode and technology are selected together (R36), the context
is the selected technology's (R37), the lock is free while uninitialised (R313), no mode is selected
while uninitialised (R52, R301), which is also low power (R34), the waiter is the holder (R342), the
timers are torn down in low power (R34), a torn timer is idle (R181), the causes fit their width
(R40). R36, R313 and R342 are inferences the spec marks as its own. The statement rests on the
model's readings in log 6 (AcquireTake needs Ready), log 7 (what stands between the frames of INIT
and DEINIT) and log 19 (the causes as a number). -/
def Obligations.InvKept : Prop :=
  ∀ s t : State, s.Inv → step s = .next t → t.Inv

/-- Every step keeps the host-buffer table in its one canonical form (log 14): no store passes a
capacity (R143, R155, R264, R278). -/
def Obligations.BufferFormKept : Prop :=
  ∀ s t : State, s.bufsOk → step s = .next t → t.bufsOk

/-- R35, and R36 (an inference the spec marks as its own): mode and technology (and the context)
are written only by SET_MODE and RESET_MODE, issued by the step's own record or by one in its
windows (log 7), but for reset; mode and technology are selected together; both are None after
reset. -/
def Obligations.ModeWriters : Prop :=
  (State.reset.mode = .none ∧ State.reset.tech = none) ∧
  ∀ (s t : State) (item : SchedItem) (rest : List SchedItem),
    s.sched = item :: rest → step s = .next t →
    ((s.mode = .none ↔ s.tech = none) → (t.mode = .none ↔ t.tech = none)) ∧
    (item.resets = false →
      (∀ record ∈ item.records, ∀ i r, decode record = .ok (i, r) →
        i ≠ .resetMode ∧ ∀ m x, i ≠ .setMode m x) →
      t.mode = s.mode ∧ t.tech = s.tech ∧ t.ctx = s.ctx)

/-- R313 (an inference the spec marks as its own): the lock is free while the block is
uninitialised: after reset, and every step keeps it. -/
def Obligations.LockFreeWhileUninit : Prop :=
  (State.reset.phase = .uninit → State.reset.holder = none) ∧
  ∀ s t : State, (s.phase = .uninit → s.holder = none) → step s = .next t →
    (t.phase = .uninit → t.holder = none)

/-! ## Fatal checks (spec/60_exceptions.md R326, R329) -/

/-- R326 (partly an inference the spec marks as its own), R329: the first check of a command that
fails is taken as a fault, which writes `S.FAULT` and nothing else; and a command faults in no other
way, with whatever steps between its frames: where its checks passed and the block is halted, a
record of another thread stands in one of its windows. Such a record, too, takes its first failing
check as a fault that writes `S.FAULT` and nothing else (its place is log 3; INIT and DEINIT there:
log 7). -/
def Obligations.FailedCheckIsFault : Prop :=
  ∀ (i : Instr) (s : State), s.fault = none →
    (∀ c, firstFail (instrChecks i s.cur s) = some c →
      exec i s = .next { s with fault := some c }) ∧
    (∀ t c, exec i s = .next t → t.fault = some c →
      (firstFail (instrChecks i s.cur s) = some c ∧ t = { s with fault := some c }) ∨
      (firstFail (instrChecks i s.cur s) = none ∧
        ∃ w ∈ s.windows, ∃ u record, WindowStep.command u record ∈ w)) ∧
    (∀ u record others j r c, u ≠ s.cur → s.blocked u = false → inProgress u others = false →
      decode record = .ok (j, r) → lifecycle j = false →
      firstFail (instrChecks j u s) = some c →
      windowStep (.command u record) others s = (others, { s with fault := some c }))

/-- R139 to R158, R71, R72, R81: the checks of the driver commands in their order; a burst's are in
the order of its pseudocode (log 9). The widths of addresses and the direct-command bits are
parameters (R11); with R11's values an address has 7 bits and a space 64 registers (log 21). -/
def Obligations.CheckOrderDriver : Prop :=
  ∀ (s : State) (a v mask : Byte) (n bits : BitVec 16) (h : Byte), s.fault = none →
    let space := 2 ^ s.cfg.regAddrBits.val
    (∀ i ∈ [Instr.regRead a, .regWrite a v, .regChangeBits a mask v, .regSetBits a mask,
        .regClearBits a mask],
      Raises i s
        (if s.holder ≠ some s.cur then some .noLock
         else if ¬addrLegal s.cfg a then some .badOperand else none)) ∧
    (∀ i ∈ [Instr.testRegRead a, .testRegWrite a v],
      Raises i s
        (if s.holder ≠ some s.cur then some .noLock
         else if space ≤ a.toNat then some .badOperand else none)) ∧
    (∀ i ∈ [Instr.regReadBurst a n h, .regWriteBurst a n h],
      Raises i s
        (if s.holder ≠ some s.cur then some .noLock
         else if ¬addrLegal s.cfg a ∨ n = 0 then some .badOperand
         else if s.buffer s.cur h = none then some .nullArg
         else if s.cap s.cur h < n.toNat ∨ space < a.toNat % space + n.toNat then
           some .badOperand
         else none)) ∧
    Raises (.fifoWrite h bits) s
      (if s.holder ≠ some s.cur then some .noLock
       else if s.buffer s.cur h = none then some .nullArg
       else if bits = 0 ∨ s.cfg.fifoSize < (bits.toNat + 7) / 8 ∨
           s.cap s.cur h < (bits.toNat + 7) / 8 then some .badOperand
       else none) ∧
    Raises (.fifoRead h) s
      (if s.holder ≠ some s.cur then some .noLock
       else if s.buffer s.cur h = none then some .nullArg else none) ∧
    Raises (.directCmd a) s
      (if s.holder ≠ some s.cur then some .noLock
       else if ¬directLegal s.cfg a then some .badOperand else none)

/-- R182, R196 to R200, R205, R210, R216, R329: the checks of the arbiter's commands in their
order. Where a compensation is read, the selected role and technology are `r` and `x`. Two checks
are the model's choice, in no rule's list: with `FC_HZ = 0` TIMER_START_FC finds no ticks and raises
TIMER_RANGE (log 33), and an operand that needs more than `DUR_BITS` bits is BAD_OPERAND, which
R11's 32 never raises (log 21). -/
def Obligations.CheckOrderTimers : Prop :=
  ∀ (s : State) (t : Byte) (d tmo : BitVec 32), s.fault = none →
    let arbiter (own : Option FatalCode) : Option FatalCode :=
      if s.phase ≠ .ready then some .notInit
      else if s.holder ≠ some s.cur then some .noLock else own
    let range (ticks : Nat) : Option FatalCode :=
      if ticks = 0 ∨ 4294901760 < ticks then some .timerRange else none
    Raises .lpExit s (arbiter none) ∧
    Raises .lpEnter s (arbiter none) ∧
    Raises (.timerStop t) s (arbiter (if 2 ≤ t.toNat then some .badOperand else none)) ∧
    Raises (.timerStartUs t d) s
      (arbiter
        (if t ≠ 1 ∨ 2 ^ s.cfg.durBits ≤ d.toNat then some .badOperand
         else if s.btx.init = false then some .lowPower
         else if s.btx.run = true then some .timerRunning
         else range (d.toNat * s.cfg.timerClkHz / 1000000))) ∧
    (∀ (r : Role) (x : Tech), (s.mode ≠ .none → s.mode = modeOfRole r ∧ s.tech = some x) →
      Raises (.timerStartFc t d) s
        (arbiter
          (if 2 ≤ t.toNat ∨ 2 ^ s.cfg.durBits ≤ d.toNat then some .badOperand
           else
             let v := if t = 0 then s.fwt else s.btx
             let comp :=
               match r with
               | .poller => if t = 0 then s.cfg.compPFwt.get x else s.cfg.compPFdt.get x
               | .listener => s.cfg.compLFdt.get x
             if v.init = false then some .lowPower
             else if s.mode = .none then some .noMode
             else if v.run = true then some .timerRunning
             else if t = 0 ∧ s.mode = .listener then some .role
             else if d.toNat ≤ comp then none
             else range ((d.toNat - comp) * s.cfg.timerClkHz / s.cfg.fcHz)))) ∧
    Raises (.eventWait tmo) s
      (arbiter
        (if s.mode = .none then some .noMode
         else if 2 ^ s.cfg.durBits ≤ tmo.toNat then some .badOperand
         else if s.mode = .listener ∧ s.tech = some .v then some .unmodelled else none))

/-- R230, R231, R237, R240, R245, R247, R282, R329: the checks of the technology commands in their
order, the selected technology being `x`. All checks of TRANSMIT's path come before its first frame
(log 8). -/
def Obligations.CheckOrderTechnology : Prop :=
  ∀ (s : State) (mode tech k h : Byte) (bits : BitVec 16) (x : Tech), s.fault = none →
    (s.mode ≠ .none → s.tech = some x) →
    let session (own : Option FatalCode) : Option FatalCode :=
      if s.phase ≠ .ready then some .notInit
      else if s.holder ≠ some s.cur then some .noLock else own
    let selected (own : Option FatalCode) : Option FatalCode :=
      session (if s.mode = .none then some .noMode else own)
    Raises (.setMode mode tech) s
      (session
        (if (mode ≠ 1 ∧ mode ≠ 2) ∨ 4 ≤ tech.toNat then some .badOperand
         else if s.ctx ≠ none ∨ s.mode ≠ .none then some .contextLive
         else if mode = 2 ∧
             s.cfg.hasListener.get
               (if tech = 0 then .a else if tech = 1 then .b else if tech = 2 then .v else .f)
               = false then some .noListener
         else none)) ∧
    Raises .resetMode s (selected none) ∧
    Raises (.transmit h bits) s
      (selected
        (if s.buffer s.cur h = none then some .nullArg
         else if s.mode = .listener ∧ x = .v then some .unmodelled
         else if x = .v then
           (if bits.toNat % 8 ≠ 0 then some .encodeLength
            else if s.cap s.cur h < bits.toNat / 8 then some .badOperand
            else if s.cfg.vTxCap < bits.toNat / 2 + 2 then some .encodeCapacity
            else if s.cfg.fifoSize < bits.toNat / 2 + 2 then some .badOperand else none)
         else if bits = 0 ∨ s.cfg.fifoSize < (bits.toNat + 7) / 8 ∨
             s.cap s.cur h < (bits.toNat + 7) / 8 then some .badOperand
         else none)) ∧
    Raises (.receive h) s
      (selected
        (if s.buffer s.cur h = none then some .nullArg
         else if s.mode = .listener ∧ x = .v then some .unmodelled else none)) ∧
    Raises (.txShortFrame k) s
      (selected
        (if 2 ≤ k.toNat then some .badOperand
         else if ¬(s.mode = .poller ∧ x = .a) then some .role else none)) ∧
    (∀ i ∈ [Instr.listenerSleep, .listenerIdle],
      Raises i s (selected (if s.mode ≠ .listener then some .role else none)))

/-- R264, R266, R267, R270, R329: the checks of the codec commands in their order; a failed one
writes nothing but `S.FAULT`. That `Bin` and `Bout` are the same buffer (R264) exactly when their
handles are equal is the model's choice (log 35). -/
def Obligations.CheckOrderCodec : Prop :=
  ∀ (s : State) (bin bout : Byte) (n : BitVec 32), s.fault = none →
    Raises (.iso15693EncodeFrame bin n bout) s
      (if s.buffer s.cur bin = none ∨ s.buffer s.cur bout = none then some .nullArg
       else if n.toNat % 8 ≠ 0 then some .encodeLength
       else if s.cap s.cur bin < n.toNat / 8 ∨ bin = bout then some .badOperand
       else if s.cap s.cur bout < n.toNat / 2 + 2 then some .encodeCapacity else none) ∧
    Raises (.iso15693DecodeFrame bin n bout) s
      (if s.buffer s.cur bin = none ∨ s.buffer s.cur bout = none then some .nullArg
       else if s.cap s.cur bin < (n.toNat + 7) / 8 then some .badOperand else none)

/-- R300 to R302, R304, R311, R329: the checks of the controller's commands in their order. RELEASE
needs no phase. -/
def Obligations.CheckOrderController : Prop :=
  ∀ s : State, s.fault = none →
    Raises .init s (if s.phase = .ready then some .illegalCommand else none) ∧
    Raises .deinit s
      (if s.phase ≠ .ready then some .notInit
       else if s.holder ≠ none ∨ s.mode ≠ .none then some .contextLive else none) ∧
    Raises .acquire s (if s.phase ≠ .ready then some .notInit else none) ∧
    Raises .release s (if s.holder ≠ some s.cur then some .notHolder else none) ∧
    (∀ i ∈ [Instr.fieldOn, .fieldDetectStart, .fieldDetectStop, .fieldPresent],
      Raises i s
        (if s.phase ≠ .ready then some .notInit
         else if s.holder ≠ some s.cur then some .noLock else none))

/-- R364 (an inference the spec marks as its own): before INIT has succeeded (uninitialised, so the
lock is free, R313) every command but INIT, ISO15693_ENCODE_FRAME, ISO15693_DECODE_FRAME and
ABORT_REQUEST faults with NOT_INIT, NO_LOCK or NOT_HOLDER; none of those four does (alone: no other
thread's command stands between its frames). -/
def Obligations.BeforeInitOnlyFour : Prop :=
  ∀ (i : Instr) (s : State), s.fault = none → s.phase = .uninit → s.holder = none →
    let usable := i = .init ∨ i = .abortRequest ∨ (∃ b n o, i = .iso15693EncodeFrame b n o) ∨
      (∃ b n o, i = .iso15693DecodeFrame b n o)
    (¬usable → ∃ c, (c = .notInit ∨ c = .noLock ∨ c = .notHolder) ∧
      exec i s = .next { s with fault := some c }) ∧
    (usable → s.windows = [] → ∃ t, exec i s = .next t ∧
      t.fault ≠ some .notInit ∧ t.fault ≠ some .noLock ∧ t.fault ≠ some .notHolder)

/-! ## Driver (spec/41_driver.md) -/

/-- R110, R140, R142, R149, R150, R158: the commands of one frame that store nothing. The frame's
bytes, the answer in the result record, and nothing else changes. With the widths and mode bits of
R11 (`wireDefaults`) the legal addresses and the bytes are those R110 writes out; with others their
meaning is log 21. -/
def Obligations.OneFrameCommandsComplete : Prop :=
  ∀ (s : State) (a v : Byte), s.holding →
    let p := prefixOf s.cfg a
    let read : Byte := s.cfg.spiRegRead ++ regOf s.cfg a
    let write : Byte := s.cfg.spiRegWrite ++ regOf s.cfg a
    (addrLegal s.cfg a →
      (∃ x, s.answers 1 = [x] ∧ exec (.regRead a) s =
        .next ((s.frame (p ++ [read]) 1).reply s.cur [0x00, x])) ∧
      exec (.regWrite a v) s = .next ((s.frame (p ++ [write, v]) 0).reply s.cur [0x00])) ∧
    (a.toNat < 2 ^ s.cfg.regAddrBits.val →
      (∃ x, s.answers 1 = [x] ∧ exec (.testRegRead a) s =
        .next ((s.frame [s.cfg.spiTestPrefix, read] 1).reply s.cur [0x00, x])) ∧
      exec (.testRegWrite a v) s =
        .next ((s.frame [s.cfg.spiTestPrefix, write, v] 0).reply s.cur [0x00])) ∧
    (directLegal s.cfg a →
      exec (.directCmd a) s = .next ((s.frame [a] 0).reply s.cur [0x00])) ∧
    (wireDefaults s.cfg →
      (addrLegal s.cfg a ↔ a.toNat < 0x80) ∧ read = 0x40 ||| (a &&& 0x3F) ∧ write = a &&& 0x3F ∧
      p = (if a.getLsbD 6 then [s.cfg.spiSpaceBPrefix] else []) ∧
      (directLegal s.cfg a ↔ a.toNat / 64 = 3 ∧ a ≠ s.cfg.spiSpaceBPrefix ∧
        a ≠ s.cfg.spiTestPrefix))

/-- R143: REG_READ_BURST. The frame; byte `j` of the answer goes to byte `j` of the buffer; every
other byte of that buffer, and every other field, is as before (R51). That no byte read through
another handle changes, since two handles never name one buffer, is the model's choice (log 35). -/
def Obligations.ReadBurstCompletes : Prop :=
  ∀ (s : State) (a : Byte) (n : BitVec 16) (buf : Byte), s.holding → s.bufsOk →
    addrLegal s.cfg a → n ≠ 0 → s.buffer s.cur buf ≠ none → n.toNat ≤ s.cap s.cur buf →
    a.toNat % 2 ^ s.cfg.regAddrBits.val + n.toNat ≤ 2 ^ s.cfg.regAddrBits.val →
    ∃ t, exec (.regReadBurst a n buf) s = .next t ∧
      { t with bufs := s.bufs } =
        (s.frame (prefixOf s.cfg a ++ [s.cfg.spiRegRead ++ regOf s.cfg a]) n.toNat).reply s.cur
          [0x00] ∧
      (∀ u h j, t.bufByte u h j =
        if u = s.cur ∧ h = buf ∧ j < n.toNat then (s.answers n.toNat).getD j 0
        else s.bufByte u h j) ∧
      (∀ u h, t.cap u h = s.cap u h)

/-- R144: REG_WRITE_BURST sends the buffer's first `n` bytes after the mode byte; the buffer and
everything else stays. -/
def Obligations.WriteBurstCompletes : Prop :=
  ∀ (s : State) (a : Byte) (n : BitVec 16) (buf : Byte), s.holding →
    addrLegal s.cfg a → n ≠ 0 → s.buffer s.cur buf ≠ none → n.toNat ≤ s.cap s.cur buf →
    a.toNat % 2 ^ s.cfg.regAddrBits.val + n.toNat ≤ 2 ^ s.cfg.regAddrBits.val →
    let values := (List.range n.toNat).map fun j => s.bufByte s.cur buf j
    exec (.regWriteBurst a n buf) s =
      .next ((s.frame (prefixOf s.cfg a ++ (s.cfg.spiRegWrite ++ regOf s.cfg a) :: values) 0).reply
        s.cur [0x00])

/-- R84, R145 to R148: the three read-modify-write commands. One read frame; the new value; no
second frame when it is the value read; otherwise the other agents' steps (their place is log 3) and
one write frame of the new value. A reset of the block (R360, log 30) or a fault (R327) between the
two frames ends the command. R86, R93: not atomic. Issued by a thread that took the lock between the
frames of a DEINIT (log 7), its read frame is one step there and its write frame, of the value read
then, another, whatever stands between the two. -/
def Obligations.ReadModifyWriteCompletes : Prop :=
  (∀ (s : State) (t : ThreadId) (others : List Pending) (a mask old : Byte), s.fault = none →
    t ≠ s.cur → s.blocked t = false → inProgress t others = false → s.holder = some t →
    addrLegal s.cfg a → s.answers 1 = [old] → old ||| mask ≠ old →
    let p := prefixOf s.cfg a
    ∃ next, windowStep (.command t [0x06, a, mask]) others s =
        (others ++ [⟨t, next⟩], s.frame (p ++ [s.cfg.spiRegRead ++ regOf s.cfg a]) 1) ∧
      ∀ (u : State) (rest : List Pending), inProgress t rest = false →
        windowStep (.resume t) (rest ++ [⟨t, next⟩]) u =
          (rest, (u.frame (p ++ [s.cfg.spiRegWrite ++ regOf s.cfg a, old ||| mask]) 0).reply t
            [0x00])) ∧
  ∀ (s : State) (a mask val : Byte), s.holding → addrLegal s.cfg a →
    let p := prefixOf s.cfg a
    let m := s.frame (p ++ [s.cfg.spiRegRead ++ regOf s.cfg a]) 1
    let after (new : Byte) : State :=
      if s.answers 1 = [new] then m.reply s.cur [0x00]
      else
        match m.interleave [] with
        | .go _ u =>
          (u.frame (p ++ [s.cfg.spiRegWrite ++ regOf s.cfg a, new]) 0).reply s.cur [0x00]
        | .stop u => u
        | .void => s
    ∃ old, s.answers 1 = [old] ∧
      exec (.regChangeBits a mask val) s = .next (after ((old &&& ~~~mask) ||| (val &&& mask))) ∧
      exec (.regSetBits a mask) s = .next (after (old ||| mask)) ∧
      exec (.regClearBits a mask) s = .next (after (old &&& ~~~mask))

/-- R151, R152: FIFO_WRITE. The length registers' frame, the other agents' steps (their place is
log 3), then the load of the bytes; nothing is stored. A reset of the block (R360, log 30) or a
fault (R327) between the two frames ends the command. -/
def Obligations.FifoWriteCompletes : Prop :=
  ∀ (s : State) (buf : Byte) (bits : BitVec 16), s.holding →
    let m := (bits.toNat + 7) / 8
    s.buffer s.cur buf ≠ none → bits ≠ 0 → m ≤ s.cfg.fifoSize → m ≤ s.cap s.cur buf →
    let len1 : Byte := BitVec.ofNat 8 (bits.toNat / 8 / 32)
    let len2 : Byte := BitVec.ofNat 8 (bits.toNat / 8 % 32 * 8 + bits.toNat % 8)
    let bytes := (List.range m).map fun j => s.bufByte s.cur buf j
    exec (.fifoWrite buf bits) s =
      match (s.frame [s.cfg.spiRegWrite ++ s.cfg.regTxLen1, len1, len2] 0).interleave [] with
      | .go _ u => .next ((u.frame (s.cfg.spiFifoLoad :: bytes) 0).reply s.cur [0x00])
      | .stop u => .next u
      | .void => .next s

/-- R154 to R157: FIFO_READ alone. The status frame; EMPTY and OVERFLOW send no second frame, store
nothing, and their count bytes carry no meaning (any two bytes, log 11); otherwise the bytes are
stored and the bit count is returned. That no byte read through another handle changes is the
model's choice (log 35). -/
def Obligations.FifoReadCompletes : Prop :=
  ∀ (s : State) (buf s1 s2 : Byte), s.holding → s.bufsOk → s.windows = [] →
    s.buffer s.cur buf ≠ none → s.answers 2 = [s1, s2] →
    let m := s.frame [s.cfg.spiRegRead ++ s.cfg.regFifoStatus1] 2
    let count := statusCount s.cfg s1 s2
    let lb := s2.toNat / 2 % 8
    let rbits := if lb = 0 then count * 8 else (count - 1) * 8 + lb
    (count = 0 → ∃ f : List Byte, f.length = 2 ∧
      exec (.fifoRead buf) s = .next ((m.skip 2).reply s.cur ([0x00, 0x01] ++ f))) ∧
    (s.cap s.cur buf < count → ∃ f : List Byte, f.length = 2 ∧
      exec (.fifoRead buf) s = .next ((m.skip 2).reply s.cur ([0x00, 0x02] ++ f))) ∧
    (count ≠ 0 → count ≤ s.cap s.cur buf →
      ∃ t, exec (.fifoRead buf) s = .next t ∧
        { t with bufs := s.bufs } =
          (m.frame [s.cfg.spiFifoRead] count).reply s.cur
            [0x00, 0x00, BitVec.ofNat 8 rbits, BitVec.ofNat 8 (rbits / 256)] ∧
        (∀ u h j, t.bufByte u h j =
          if u = s.cur ∧ h = buf ∧ j < count then (m.answers count).getD j 0
          else s.bufByte u h j) ∧
        (∀ u h, t.cap u h = s.cap u h))

/-! ## Events and timers (spec/42_events_timers.md) -/

/-- R180, R181, R344: LP_EXIT starts both timers, not running, and services the line; outside low
power it changes nothing. LP_ENTER tears both timers down. The flags, the causes, PSC, ARR and
everything else stay. -/
def Obligations.LowPowerCompletes : Prop :=
  ∀ s : State, s.serving →
    (s.lp = true → exec .lpExit s =
      .next ({ s with
        lp := false
        fwt := { s.fwt with init := true, run := false, pend := false }
        btx := { s.btx with init := true, run := false, pend := false } }.reply s.cur [0x00])) ∧
    (s.lp = false → exec .lpExit s = .next (s.reply s.cur [0x00])) ∧
    exec .lpEnter s =
      .next ({ s with
        lp := true
        fwt := { s.fwt with init := false, run := false, pend := false }
        btx := { s.btx with init := false, run := false, pend := false } }.reply s.cur [0x00])

/-- R194 to R199: TIMER_START_FC with a duration above the compensation, whose ticks are in range,
arms the timer: PSC, ARR and RUN of that timer, PEND and everything else unchanged. -/
def Obligations.TimerStartFcCompletes : Prop :=
  ∀ (s : State) (d : BitVec 32) (x : Tech) (comp : Nat), s.serving → s.tech = some x →
    let ticks := (d.toNat - comp) * s.cfg.timerClkHz / s.cfg.fcHz
    let psc := (ticks - 1) / 65535
    d.toNat < 2 ^ s.cfg.durBits → comp < d.toNat → 1 ≤ ticks → ticks ≤ 4294901760 →
    (s.mode = .poller → comp = s.cfg.compPFwt.get x → s.fwt.init = true → s.fwt.run = false →
      exec (.timerStartFc 0 d) s =
        .next ({ s with fwt := { s.fwt with
          psc := BitVec.ofNat 16 psc, arr := BitVec.ofNat 16 (ticks / (psc + 1)),
          run := true } }.reply s.cur [0x00])) ∧
    ((s.mode = .poller ∧ comp = s.cfg.compPFdt.get x ∨
        s.mode = .listener ∧ comp = s.cfg.compLFdt.get x) →
      s.btx.init = true → s.btx.run = false →
      exec (.timerStartFc 1 d) s =
        .next ({ s with btx := { s.btx with
          psc := BitVec.ofNat 16 psc, arr := BitVec.ofNat 16 (ticks / (psc + 1)),
          run := true } }.reply s.cur [0x00]))

/-- R200: a start whose compensation meets or exceeds the duration changes no state: only the
result is returned. -/
def Obligations.CompensationNoOp : Prop :=
  ∀ (s : State) (d : BitVec 32) (x : Tech), s.serving → s.tech = some x →
    d.toNat < 2 ^ s.cfg.durBits →
    (s.mode = .poller → s.fwt.init = true → s.fwt.run = false →
      d.toNat ≤ s.cfg.compPFwt.get x →
      exec (.timerStartFc 0 d) s = .next (s.reply s.cur [0x00])) ∧
    ((s.mode = .poller ∧ d.toNat ≤ s.cfg.compPFdt.get x ∨
        s.mode = .listener ∧ d.toNat ≤ s.cfg.compLFdt.get x) →
      s.btx.init = true → s.btx.run = false →
      exec (.timerStartFc 1 d) s = .next (s.reply s.cur [0x00]))

/-- R194, R195, R197: TIMER_START_US arms the BTX timer without compensation and needs no mode. -/
def Obligations.TimerStartUsCompletes : Prop :=
  ∀ (s : State) (d : BitVec 32), s.serving → s.btx.init = true → s.btx.run = false →
    let ticks := d.toNat * s.cfg.timerClkHz / 1000000
    let psc := (ticks - 1) / 65535
    d.toNat < 2 ^ s.cfg.durBits → 1 ≤ ticks → ticks ≤ 4294901760 →
    exec (.timerStartUs 1 d) s =
      .next ({ s with btx := { s.btx with
        psc := BitVec.ofNat 16 psc, arr := BitVec.ofNat 16 (ticks / (psc + 1)),
        run := true } }.reply s.cur [0x00])

/-- R201 (an inference the spec marks as its own, from R195): the range facts of `Arm`. -/
def Obligations.ArmRange : Prop :=
  ∀ ticks : Nat, 1 ≤ ticks →
    (1 ≤ armArr ticks ∧ armArr ticks ≤ 65535) ∧
    (armPsc ticks > 65535 ↔ ticks > 4294901760) ∧
    (armPsc ticks + 1) * armArr ticks ≤ ticks ∧
    ticks - armPsc ticks ≤ (armPsc ticks + 1) * armArr ticks

/-- R205, R206: TIMER_STOP clears RUN and PEND of its timer, running or not; a flag already
delivered to `S.EVF` stays, as does everything else. -/
def Obligations.TimerStopCompletes : Prop :=
  ∀ s : State, s.serving →
    exec (.timerStop 0) s =
      .next ({ s with fwt := { s.fwt with run := false, pend := false } }.reply s.cur [0x00]) ∧
    exec (.timerStop 1) s =
      .next ({ s with btx := { s.btx with run := false, pend := false } }.reply s.cur [0x00])

/-- R210 to R214: EVENT_WAIT. A flag of the wait set, which always holds Abort, ends the wait at
once: the flags of the wait set are cleared, with `Irq` also the causes, and the events returned are
those of the event map (log 18), never with EV_TIMEOUT and with EV_ABORT whenever Abort fired. With
no such flag a zero timeout returns EV_TIMEOUT alone and changes nothing; another one blocks the
thread. -/
def Obligations.EventWaitCompletes : Prop :=
  ∀ (s : State) (tmo : BitVec 32) (r : Role) (x : Tech), s.serving →
    s.mode = modeOfRole r → s.tech = some x → ¬(r = .listener ∧ x = .v) →
    tmo.toNat < 2 ^ s.cfg.durBits →
    let w : BitVec 5 := s.cfg.waitMask.get r x ||| 1
    let f := s.evf &&& w
    let causes := if f.getLsbD 1 then s.irqAcc else 0
    let e := publicEvents s.cfg r x f causes
    (f ≠ 0 →
      exec (.eventWait tmo) s =
        .next ({ s with
          evf := s.evf &&& ~~~w
          irqAcc := if f.getLsbD 1 then 0 else s.irqAcc }.reply s.cur
            [0x00, e.extractLsb' 0 8, e.extractLsb' 8 8, e.extractLsb' 16 8,
              e.extractLsb' 24 8]) ∧
      e.getLsbD 0 = false ∧ (s.evf.getLsbD 0 = true → e.getLsbD 1 = true)) ∧
    (f = 0 → tmo = 0 →
      exec (.eventWait tmo) s = .next (s.reply s.cur [0x00, 0x01, 0x00, 0x00, 0x00])) ∧
    (f = 0 → tmo ≠ 0 →
      exec (.eventWait tmo) s = .next { s with waiter := some ⟨s.cur, tmo⟩ })

/-- R210, R215: a blocked wait ends by a flag of its wait set, consumed as above, or by its timeout
with EV_TIMEOUT, whichever step is taken; with no such flag a wake changes nothing (log 4). The wait
set is that of the mode and technology at the wake (log 32), the events are those of the event map
(log 18). In a fair run (R378 a, log 28) that keeps the invariants the blocked thread gets a result,
at the latest in a state that some step passes, unless a reset event is among the steps before. -/
def Obligations.BlockedWaitEnds : Prop :=
  (∀ (state : Nat → State) (item : Nat → SchedItem) (n : Nat) (w : Waiter),
    Execution state item → Fair state item → (state n).Inv → (state n).waiter = some w →
    ∃ m, n ≤ m ∧ ((item m).resets = true ∨
      ∃ v ∈ (item m).states (state m), ∃ given, v.results = (state n).results ++ given ∧
        ∃ r ∈ given, r.thread = w.thread)) ∧
  ∀ (s : State) (v : Waiter) (r : Role) (x : Tech) (rest : List SchedItem), s.fault = none →
    s.waiter = some v → s.mode = modeOfRole r → s.tech = some x →
    let w : BitVec 5 := s.cfg.waitMask.get r x ||| 1
    let f := s.evf &&& w
    let causes := if f.getLsbD 1 then s.irqAcc else 0
    (s.sched = .wake :: rest → f ≠ 0 →
      step s = .next ({ s with
        sched := rest
        evf := s.evf &&& ~~~w
        irqAcc := if f.getLsbD 1 then 0 else s.irqAcc
        waiter := none }.reply v.thread (0x00 :: bytes32 (publicEvents s.cfg r x f causes)))) ∧
    (s.sched = .wake :: rest → f = 0 → step s = .next { s with sched := rest }) ∧
    (s.sched = .waitTimeout :: rest →
      step s = .next ({ s with sched := rest, waiter := none }.reply v.thread
        [0x00, 0x01, 0x00, 0x00, 0x00]))

/-- R217: ABORT_REQUEST sets `Abort` for any thread, in any phase and mode, and does nothing else;
halted it has no step. -/
def Obligations.AbortRequestCompletes : Prop :=
  ∀ s : State,
    (s.fault = none →
      exec .abortRequest s = .next ({ s with evf := s.evf ||| 1 }.reply s.cur [0x00])) ∧
    (∀ c, s.fault = some c → exec .abortRequest s = .fault (.halted c))

/-- R218 (an inference the spec marks as its own): `Abort` stays set in every step but a consuming
EVENT_WAIT, issued or woken, DEINIT and reset, at once or between the frames of the step's command
(log 7). -/
def Obligations.AbortStays : Prop :=
  ∀ (s t : State) (item : SchedItem) (rest : List SchedItem),
    s.evf.getLsbD 0 = true → s.sched = item :: rest → item.resets = false →
    item.wakes = false →
    (∀ record ∈ item.records, ∀ i r, decode record = .ok (i, r) →
      i ≠ .deinit ∧ ∀ tmo, i ≠ .eventWait tmo) →
    step s = .next t → t.evf.getLsbD 0 = true

/-- R184, R185, R186, R187: the drain enters from Idle exactly when the line is asserted and
serviced. Draining, an asserted line is one status read ORed into the causes, register `j` at bits
`8j+7 .. 8j`; a deasserted line sets `Irq` and returns to Idle, with no read. A drain step that is
not enabled leaves the state as it is (log 4). Between two frames of a command the drain steps so
(R86), but not during INIT, where the phase is Uninit: "the IRQ drain cannot run during INIT" (R300,
R313); that a drain left Draining waits there is the model's reading (log 37). -/
def Obligations.DrainLoop : Prop :=
  ∀ s : State, s.fault = none →
    (agentStep .drainEnter s =
      if s.irqAgent = .idle ∧ s.phase = .ready ∧ s.lp = false ∧ s.irqLine = true then
        { s with irqAgent := .draining } else s) ∧
    (s.irqAgent = .draining → s.irqLine = true →
      let n := s.cfg.nIrqRegs
      let word := ((List.range n).map fun j => ((s.answers n).getD j 0).toNat * 2 ^ (8 * j)).sum
      agentStep .drainStep s =
        { s.frame [s.cfg.spiRegRead ++ s.cfg.regIrqStatusBase] n with
          irqAcc := s.irqAcc ||| word }) ∧
    (s.irqAgent = .draining → s.irqLine = false →
      agentStep .drainStep s = { s with evf := s.evf ||| 2, irqAgent := .idle }) ∧
    (s.irqAgent = .idle → agentStep .drainStep s = s) ∧
    (∀ a ∈ [AgentStep.drainEnter, .drainStep], ∀ others,
      (s.phase = .ready → windowStep (.agent a) others s = (others, agentStep a s)) ∧
      (s.phase = .uninit → windowStep (.agent a) others s = (others, s)))

/-- R202, R203: expiry of a running timer, and delivery of a pending expiry of an initialised
timer; where a step is not enabled nothing changes (log 4). In a fair run (R378 b, log 28) the flag
of an initialised timer that runs or whose expiry is pending comes to be set, at the latest in a
state that some step passes, unless a later step stops the timer (its TIMER_STOP, LP_ENTER, DEINIT,
reset) or may consume flags (EVENT_WAIT, a wake). R191, R192, R46: the abort source sets `Abort`,
TRX_IN sets `TrxRx`, the chip drives the line; each at any time the block runs, and nothing else
changes. -/
def Obligations.TimerExpiryAndDelivery : Prop :=
  (∀ (state : Nat → State) (item : Nat → SchedItem) (n : Nat) (k : TimerId),
    Execution state item → Fair state item →
    (state n).phase = .ready → (state n).lp = false → ((state n).tmr k).init = true →
    ((state n).tmr k).run = true ∨ ((state n).tmr k).pend = true →
    (∀ m, n ≤ m → (item m).resets = false ∧ (item m).wakes = false ∧
      ∀ record ∈ (item m).records, ∀ i r, decode record = .ok (i, r) →
        i ≠ .timerStop (match k with | .fwt => 0 | .btx => 1) ∧ i ≠ .lpEnter ∧ i ≠ .deinit ∧
          ∀ tmo, i ≠ .eventWait tmo) →
    ∃ m, n ≤ m ∧ ∃ v ∈ (item m).states (state m),
      v.evf.getLsbD (match k with | .fwt => 2 | .btx => 3) = true) ∧
  ∀ s : State, s.fault = none →
    agentStep .abort s = { s with evf := s.evf ||| 1 } ∧
    agentStep .trxIn s = { s with evf := s.evf ||| 16 } ∧
    (∀ level, agentStep (.line level) s = { s with irqLine := level }) ∧
    (agentStep (.expire .fwt) s =
      if s.fwt.run = true then { s with fwt := { s.fwt with run := false, pend := true } }
      else s) ∧
    (agentStep (.expire .btx) s =
      if s.btx.run = true then { s with btx := { s.btx with run := false, pend := true } }
      else s) ∧
    (agentStep (.deliver .fwt) s =
      if s.fwt.pend = true ∧ s.fwt.init = true then
        { s with fwt := { s.fwt with pend := false }, evf := s.evf ||| 4 } else s) ∧
    (agentStep (.deliver .btx) s =
      if s.btx.pend = true ∧ s.btx.init = true then
        { s with btx := { s.btx with pend := false }, evf := s.evf ||| 8 } else s)

/-- R334: a step in interrupt context (the drain, the delivery of a timer's flag) only sets flags,
reads status registers into the causes, and clears the timer's pending expiry: no other field
changes, so not mode, technology, context, lock, phase, low power, a timer's RUN, a blocked
thread or a buffer. -/
def Obligations.InterruptContext : Prop :=
  ∀ (s : State) (a : AgentStep),
    (a = .drainEnter ∨ a = .drainStep ∨ ∃ t, a = .deliver t) →
    let t := agentStep a s
    t = { s with
      evf := t.evf, irqAcc := t.irqAcc, irqAgent := t.irqAgent, bus := t.bus
      chipIn := t.chipIn, draws := t.draws
      fwt := { s.fwt with pend := t.fwt.pend }, btx := { s.btx with pend := t.btx.pend } } ∧
    t.evf &&& s.evf = s.evf ∧ t.irqAcc &&& s.irqAcc = s.irqAcc ∧
    (∃ sent, t.bus = s.bus ++ sent) ∧
    (s.fwt.pend = false → t.fwt.pend = false) ∧ (s.btx.pend = false → t.btx.pend = false)

/-- R8, R86, R334: with any steps of other agents and threads between its frames, a command of the
driver, a transmit, a receive, a short frame, a sleep, an idle or a field operation ends in a state
`m` that keeps the parameters, phase, low power, mode, technology, context, lock, waiter and the
timers' INIT, PSC and ARR, clears no flag and only adds frames and results; or in such a state with
a fault (R327), or, where a window holds a reset, in its reset (R360, log 30). What stands between
the frames is log 3. -/
def Obligations.FramesKeepSession : Prop :=
  ∀ (i : Instr) (s t : State) (a mask val h : Byte) (n : BitVec 16),
    i ∈ [Instr.regRead a, .regWrite a val, .regReadBurst a n h, .regWriteBurst a n h,
      .regChangeBits a mask val, .regSetBits a mask, .regClearBits a mask, .testRegRead a,
      .testRegWrite a val, .fifoWrite h n, .fifoRead h, .directCmd a, .transmit h n, .receive h,
      .txShortFrame a, .listenerSleep, .listenerIdle, .fieldOn, .fieldDetectStart,
      .fieldDetectStop, .fieldPresent] →
    exec i s = .next t →
    ∃ m : State,
      m.cfg = s.cfg ∧ m.phase = s.phase ∧ m.lp = s.lp ∧ m.mode = s.mode ∧ m.tech = s.tech ∧
      m.ctx = s.ctx ∧ m.holder = s.holder ∧ m.waiter = s.waiter ∧ m.fault = none ∧
      m.evf &&& s.evf = s.evf ∧
      (∀ k : TimerId, (m.tmr k).init = (s.tmr k).init ∧ (m.tmr k).psc = (s.tmr k).psc ∧
        (m.tmr k).arr = (s.tmr k).arr) ∧
      (∃ sent, m.bus = s.bus ++ sent) ∧ (∃ given, m.results = s.results ++ given) ∧
      (t = m ∨ (∃ c, t = { m with fault := some c }) ∨
        t = m.blockReset ∧ ∃ w ∈ s.windows, WindowStep.reset ∈ w)

/-! ## Technology layer (spec/43_technology.md) -/

/-- R139, R232, R312: a sequence of any driver commands runs unchecked: alone it goes on to its end
and raises nothing, adds frames, and changes only the bus, the chip's answers, the counter of free
values and bytes of the buffers it stores to. What it sends and stores for an operand that the
command's own checks refuse is the model's choice (log 22), and that bytes of the other handles stay
(log 35). -/
def Obligations.SequenceRuns : Prop :=
  ∀ (s : State) (mid : Bool) (l : List DriverCmd), s.windows = [] → ∃ u, SeqRan mid l s u

/-- R232: each command of a sequence is the driver command of its rule: from the lock's holder, where
the command's checks pass, it sends the frames and stores the bytes that the command itself does, and
stops where it stops. This holds of the first command with any steps between its frames, and of a
later one (`mid`) alone, since before its first frame, too, other agents may step. Where they fail
the command faults and does nothing else (R326), and the one of a sequence, unchecked (R139), goes on
(log 22). -/
def Obligations.SequenceCommandIsDriverCommand : Prop :=
  ∀ (mid : Bool) (c : DriverCmd) (s : State), s.holding → (mid = true → s.windows = []) →
    (firstFail (instrChecks (driverInstr c) s.cur s) = none →
      match (runDriver mid c s.cur s).weave [] with
      | .go _ u => ∃ t record, exec (driverInstr c) s = .next t ∧ t.bus = u.bus ∧
          t.bufs = u.bufs ∧ t.chipIn = u.chipIn ∧ t.results = u.results ++ [⟨s.cur, record⟩]
      | .stop u => exec (driverInstr c) s = .next u
      | .void => False) ∧
    (∀ code, firstFail (instrChecks (driverInstr c) s.cur s) = some code →
      exec (driverInstr c) s = .next { s with fault := some code } ∧
      (s.windows = [] → ∃ u, (runDriver mid c s.cur s).weave [] = .go () u ∧ u.fault = none))

/-- R231, R233: SET_MODE alone. The role's setup (empty for a listener) and the technology's
sequence run unchecked (log 22); then mode, technology and context are recorded. The timers and the
flags stay. What a sequence leaves of other handles' buffers rests on log 35. -/
def Obligations.SetModeCompletes : Prop :=
  ∀ (s : State) (r : Role) (x : Tech), s.serving → s.windows = [] → s.ctx = none →
    s.mode = .none → (r = .listener → s.cfg.hasListener.get x = true) →
    let mode : Byte := match r with | .poller => 1 | .listener => 2
    let tech : Byte := match x with | .a => 0 | .b => 1 | .v => 2 | .f => 3
    let seq := (match r with | .poller => s.cfg.roleSetupPoller | .listener => []) ++
      s.cfg.techInit.get r x
    ∃ u, SeqRan false seq s u ∧
      exec (.setMode mode tech) s =
        .next ({ u with mode := modeOfRole r, tech := some x, ctx := some x }.reply s.cur [0x00])

/-- R234, R235: RESET_MODE alone. The stop command's frame, the technology's and the neutral
sequence, all unchecked (log 22, log 34); then mode, technology and context are cleared. The timers
and the flags stay. What a sequence leaves of other handles' buffers rests on log 35. -/
def Obligations.ResetModeCompletes : Prop :=
  ∀ (s : State) (r : Role) (x : Tech), s.serving → s.windows = [] →
    s.mode = modeOfRole r → s.tech = some x →
    let seq := s.cfg.techDeinit.get r x ++ s.cfg.neutralSeq
    ∃ u, SeqRan true seq (s.frame [s.cfg.cmdStop] 0) u ∧
      exec .resetMode s =
        .next ({ u with mode := .none, tech := none, ctx := none }.reply s.cur [0x00])

/-- R237, R238: TRANSMIT alone, in technologies A, B and F: clear the FIFO, load it with the exact
bit count, transmit without CRC. No timer is started and nothing is stored. The two direct commands
are sent unchecked, whatever their bytes (log 34). -/
def Obligations.TransmitCompletes : Prop :=
  ∀ (s : State) (buf : Byte) (bits : BitVec 16) (x : Tech), s.serving → s.windows = [] →
    s.mode ≠ .none → s.tech = some x → x ≠ .v →
    let m := (bits.toNat + 7) / 8
    s.buffer s.cur buf ≠ none → bits ≠ 0 → m ≤ s.cfg.fifoSize → m ≤ s.cap s.cur buf →
    let len1 : Byte := BitVec.ofNat 8 (bits.toNat / 8 / 32)
    let len2 : Byte := BitVec.ofNat 8 (bits.toNat / 8 % 32 * 8 + bits.toNat % 8)
    let bytes := (List.range m).map fun j => s.bufByte s.cur buf j
    exec (.transmit buf bits) s =
      .next (((((s.frame [s.cfg.cmdClearFifo] 0).frame
        [s.cfg.spiRegWrite ++ s.cfg.regTxLen1, len1, len2] 0).frame
        (s.cfg.spiFifoLoad :: bytes) 0).frame
        [s.cfg.cmdTxWithoutCrc] 0).reply s.cur [0x00])

/-- R282: TRANSMIT alone, (Poller, V): the encoder's frame of the buffer's bits, `n/2 + 2` bytes,
goes through the common transmit. Nothing is stored. Where `8 * olen` passes the u16 of FIFO_WRITE's
bit count (`FIFO_SIZE` and `V_TX_CAP` of 8192 or more) no rule says what happens; that the common
transmit then goes on, and how the length bytes wrap, is the model's choice (log 36). Its direct
commands are sent unchecked (log 34). -/
def Obligations.TransmitPollerVCompletes : Prop :=
  ∀ (s : State) (buf : Byte) (bits : BitVec 16), s.serving → s.windows = [] →
    s.mode = .poller → s.tech = some .v →
    let olen := bits.toNat / 2 + 2
    s.buffer s.cur buf ≠ none → bits.toNat % 8 = 0 → bits.toNat / 8 ≤ s.cap s.cur buf →
    olen ≤ s.cfg.vTxCap → olen ≤ s.cfg.fifoSize →
    let len1 : Byte := BitVec.ofNat 8 (olen / 32)
    let len2 : Byte := BitVec.ofNat 8 (olen % 32 * 8)
    let data := (List.range (bits.toNat / 8)).map fun j => s.bufByte s.cur buf j
    exec (.transmit buf bits) s =
      .next (((((s.frame [s.cfg.cmdClearFifo] 0).frame
        [s.cfg.spiRegWrite ++ s.cfg.regTxLen1, len1, len2] 0).frame
        (s.cfg.spiFifoLoad :: encodeFrame s.cfg data) 0).frame
        [s.cfg.cmdTxWithoutCrc] 0).reply s.cur [0x00])

/-- R239, R240: RECEIVE alone, in technologies A, B and F: the FIFO read; EMPTY is RX_EMPTY_ERR and
OVERFLOW is BufferOverflow, with two bytes of no meaning (log 11) and nothing stored. That no byte
read through another handle changes is the model's choice (log 35). -/
def Obligations.ReceiveCompletes : Prop :=
  ∀ (s : State) (buf s1 s2 : Byte) (x : Tech), s.serving → s.bufsOk → s.windows = [] →
    s.mode ≠ .none → s.tech = some x → x ≠ .v →
    s.buffer s.cur buf ≠ none → s.answers 2 = [s1, s2] →
    let m := s.frame [s.cfg.spiRegRead ++ s.cfg.regFifoStatus1] 2
    let count := statusCount s.cfg s1 s2
    let lb := s2.toNat / 2 % 8
    let rbits := if lb = 0 then count * 8 else (count - 1) * 8 + lb
    (count = 0 → ∃ f : List Byte, f.length = 2 ∧
      exec (.receive buf) s = .next ((m.skip 2).reply s.cur (Err.code s.cfg.rxEmptyErr :: f))) ∧
    (s.cap s.cur buf < count → ∃ f : List Byte, f.length = 2 ∧
      exec (.receive buf) s = .next ((m.skip 2).reply s.cur (0x05 :: f))) ∧
    (count ≠ 0 → count ≤ s.cap s.cur buf →
      ∃ t, exec (.receive buf) s = .next t ∧
        { t with bufs := s.bufs } =
          (m.frame [s.cfg.spiFifoRead] count).reply s.cur
            [0x00, BitVec.ofNat 8 rbits, BitVec.ofNat 8 (rbits / 256)] ∧
        (∀ u h j, t.bufByte u h j =
          if u = s.cur ∧ h = buf ∧ j < count then (m.answers count).getD j 0
          else s.bufByte u h j) ∧
        (∀ u h, t.cap u h = s.cap u h))

/-- R283: RECEIVE alone, (Poller, V): the raw stream of the FIFO, as many bits as it reports, is
decoded into the buffer; the decode's error is returned, and the buffer's bits beyond the decoded
ones are unspecified (R279, log 13). An empty or too long FIFO stores nothing. That no byte read
through another handle changes is the model's choice (log 35). -/
def Obligations.ReceivePollerVCompletes : Prop :=
  ∀ (s : State) (buf s1 s2 : Byte), s.serving → s.bufsOk → s.windows = [] →
    s.mode = .poller → s.tech = some .v → s.buffer s.cur buf ≠ none → s.answers 2 = [s1, s2] →
    let m := s.frame [s.cfg.spiRegRead ++ s.cfg.regFifoStatus1] 2
    let count := statusCount s.cfg s1 s2
    let lb := s2.toNat / 2 % 8
    let rbits := if lb = 0 then count * 8 else (count - 1) * 8 + lb
    (count = 0 → ∃ f : List Byte, f.length = 2 ∧
      exec (.receive buf) s = .next ((m.skip 2).reply s.cur (Err.code s.cfg.rxEmptyErr :: f))) ∧
    (s.cfg.vRawCap < count → ∃ f : List Byte, f.length = 2 ∧
      exec (.receive buf) s = .next ((m.skip 2).reply s.cur (0x05 :: f))) ∧
    (count ≠ 0 → count ≤ s.cfg.vRawCap →
      ∃ t record, exec (.receive buf) s = .next t ∧
        { t with bufs := s.bufs, draws := s.draws } =
          { (m.frame [s.cfg.spiFifoRead] count).reply s.cur record with draws := s.draws } ∧
        (∀ u h j, ¬(u = s.cur ∧ h = buf ∧ j < s.cap s.cur buf) →
          t.bufByte u h j = s.bufByte u h j) ∧
        (∀ u h, t.cap u h = s.cap u h) ∧
        match decodeStream s.cfg (m.answers count) rbits (8 * s.cap s.cur buf) with
        | .ok bits =>
          record = [0x00, BitVec.ofNat 8 bits.length, BitVec.ofNat 8 (bits.length / 256)] ∧
          ∀ k, k < bits.length →
            (t.bufByte s.cur buf (k / 8)).getLsbD (k % 8) = bits.getD k false
        | .fail e => ∃ f : List Byte, f.length = 2 ∧ record = Err.code e :: f)

/-- R245, R247 to R249: TX_SHORT_FRAME, LISTENER_SLEEP and LISTENER_IDLE alone. The sequence, then
for a short frame the FIFO clear and REQA or WUPA, and for technology A's sleep and idle the go-to
command as the last frame, all unchecked (log 22, log 34). What a sequence leaves of other handles'
buffers rests on log 35. -/
def Obligations.ShortFrameAndListenerComplete : Prop :=
  ∀ (s : State) (x : Tech), s.serving → s.windows = [] → s.tech = some x →
    (s.mode = .poller → x = .a →
      ∃ u, SeqRan false s.cfg.aCrcCheckOff s u ∧
        exec (.txShortFrame 0) s =
          .next (((u.frame [s.cfg.cmdClearFifo] 0).frame [s.cfg.cmdTxReqa] 0).reply s.cur
            [0x00]) ∧
        exec (.txShortFrame 1) s =
          .next (((u.frame [s.cfg.cmdClearFifo] 0).frame [s.cfg.cmdTxWupa] 0).reply s.cur
            [0x00])) ∧
    (s.mode = .listener → x = .a →
      ∃ u, SeqRan false s.cfg.lSleep.a s u ∧
        exec .listenerSleep s = .next ((u.frame [s.cfg.cmdGotoSleep] 0).reply s.cur [0x00])) ∧
    (s.mode = .listener → x = .a →
      ∃ u, SeqRan false s.cfg.lIdle.a s u ∧
        exec .listenerIdle s = .next ((u.frame [s.cfg.cmdGotoSense] 0).reply s.cur [0x00])) ∧
    (s.mode = .listener → x ≠ .a →
      ∃ u, SeqRan false (s.cfg.lSleep.get x) s u ∧
        exec .listenerSleep s = .next (u.reply s.cur [0x00])) ∧
    (s.mode = .listener → x ≠ .a →
      ∃ u, SeqRan false (s.cfg.lIdle.get x) s u ∧
        exec .listenerIdle s = .next (u.reply s.cur [0x00]))

/-- R286 (partly an inference the spec marks as its own), R216: in (Listener, V), TRANSMIT and
RECEIVE with a buffer, and EVENT_WAIT, raise UNMODELLED. -/
def Obligations.ListenerVUnmodelled : Prop :=
  ∀ (s : State) (h : Byte) (bits : BitVec 16) (tmo : BitVec 32), s.serving →
    s.mode = .listener → s.tech = some .v → s.buffer s.cur h ≠ none →
    tmo.toNat < 2 ^ s.cfg.durBits →
    ∀ i ∈ [Instr.transmit h bits, .receive h, .eventWait tmo],
      exec i s = .next { s with fault := some .unmodelled }

/-! ## ISO15693 codec (spec/44_iso15693_codec.md) -/

/-- R261 to R265: ISO15693_ENCODE_FRAME needs no lock, phase or mode. SOF, the symbol of each group,
groups least-significant first, EOF; `olen = N/2 + 2`; every other byte of `Bout`, and every other
field, stays (R51). That the buffers are two whenever the handles differ, so that the command
completes (R264) and no byte read through another handle changes, is the model's choice (log 35). -/
def Obligations.EncodeFrameCompletes : Prop :=
  ∀ (s : State) (bin bout : Byte) (n : BitVec 32), s.fault = none → s.bufsOk →
    s.buffer s.cur bin ≠ none → s.buffer s.cur bout ≠ none → bin ≠ bout →
    n.toNat % 8 = 0 → n.toNat / 8 ≤ s.cap s.cur bin → n.toNat / 2 + 2 ≤ s.cap s.cur bout →
    let olen := n.toNat / 2 + 2
    let symbol (g : Nat) : Byte :=
      if g = 0 then 0x02 else if g = 1 then 0x08 else if g = 2 then 0x20 else s.cfg.encPat3
    ∃ t, exec (.iso15693EncodeFrame bin n bout) s = .next t ∧
      { t with bufs := s.bufs } = s.reply s.cur (0x00 :: bytes32 (BitVec.ofNat 32 olen)) ∧
      t.bufByte s.cur bout 0 = 0x21 ∧
      (∀ m j, m < n.toNat / 8 → j < 4 →
        t.bufByte s.cur bout (1 + 4 * m + j) =
          symbol ((s.bufByte s.cur bin m).toNat / 4 ^ j % 4)) ∧
      t.bufByte s.cur bout (1 + 4 * (n.toNat / 8)) = 0x04 ∧
      (∀ u h j, ¬(u = s.cur ∧ h = bout ∧ j < olen) → t.bufByte u h j = s.bufByte u h j) ∧
      (∀ u h, t.cap u h = s.cap u h)

/-- R268 (an inference the spec marks as its own): where the four symbols are distinct, the
encoder's output begins with SOF, ends with EOF, and the inverse of its symbol code gives each input
byte back. That the handles of a passed encode name two buffers is the model's choice (log 35). -/
def Obligations.EncodeRoundTrip : Prop :=
  ∀ (s t : State) (bin bout : Byte) (n : BitVec 32), s.bufsOk →
    s.cfg.encPat3 ≠ 0x02 → s.cfg.encPat3 ≠ 0x08 → s.cfg.encPat3 ≠ 0x20 →
    exec (.iso15693EncodeFrame bin n bout) s = .next t → t.fault = none →
    t.bufByte s.cur bout 0 = 0x21 ∧ t.bufByte s.cur bout (n.toNat / 2 + 2 - 1) = 0x04 ∧
    ∀ m, m < n.toNat / 8 →
      ∃ g0 g1 g2 g3 : BitVec 2,
        decPat s.cfg (t.bufByte s.cur bout (1 + 4 * m)) = some g0 ∧
        decPat s.cfg (t.bufByte s.cur bout (1 + 4 * m + 1)) = some g1 ∧
        decPat s.cfg (t.bufByte s.cur bout (1 + 4 * m + 2)) = some g2 ∧
        decPat s.cfg (t.bufByte s.cur bout (1 + 4 * m + 3)) = some g3 ∧
        g3 ++ g2 ++ g1 ++ g0 = s.bufByte s.cur bin m

/-- R270, R279, R281: ISO15693_DECODE_FRAME needs no lock, phase or mode. On success the count and
the decoded bits, bit `k` at bit `k % 8` of byte `k / 8`; on an error its code alone. The other bits
of `Bout` are unspecified (log 13), and that an error's record is its code alone is log 12. That no
byte read through another handle changes is the model's choice (log 35). -/
def Obligations.DecodeFrameCompletes : Prop :=
  ∀ (s : State) (bin bout : Byte) (ibits : BitVec 32), s.fault = none → s.bufsOk →
    s.buffer s.cur bin ≠ none → s.buffer s.cur bout ≠ none →
    (ibits.toNat + 7) / 8 ≤ s.cap s.cur bin →
    let raw := (List.range ((ibits.toNat + 7) / 8)).map fun j => s.bufByte s.cur bin j
    ∃ t record, exec (.iso15693DecodeFrame bin ibits bout) s = .next t ∧
      { t with bufs := s.bufs, draws := s.draws } = s.reply s.cur record ∧
      (∀ u h j, ¬(u = s.cur ∧ h = bout ∧ j < s.cap s.cur bout) →
        t.bufByte u h j = s.bufByte u h j) ∧
      (∀ u h, t.cap u h = s.cap u h) ∧
      match decodeStream s.cfg raw ibits.toNat (8 * s.cap s.cur bout) with
      | .ok bits =>
        record = 0x00 :: bytes32 (BitVec.ofNat 32 bits.length) ∧
        ∀ k, k < bits.length →
          (t.bufByte s.cur bout (k / 8)).getLsbD (k % 8) = bits.getD k false
      | .fail e => record = [Err.code e]

/-- R274 to R276, R278: with the default inbound code (R113) a stream of SOF, the patterns of the
data bits, EOF and at least one further bit decodes to exactly those data bits, or to DECODE_OVF_ERR
where they do not fit; the same stream cut at the EOF's last bit is DataFormat. That the EOF needs a
further bit after it is R284, an inference the spec marks as its own. -/
def Obligations.DecodeGoodFrame : Prop :=
  ∀ (cfg : Params) (bytes : List Byte) (bits trail : List Bool) (room : Nat),
    cfg.rxSof = 0x17 → cfg.eofMask = 0x1F → cfg.rxEof = 0x1D → cfg.patMask = 0x03 →
    cfg.rxPat0 = 0x01 → cfg.rxPat1 = 0x02 →
    let n := 5 + 2 * bits.length + 5 + trail.length
    streamOf bytes n =
      [true, true, true, false, true] ++
        (bits.flatMap fun b => if b then [false, true] else [true, false]) ++
        [true, false, true, true, true] ++ trail →
    (trail ≠ [] → decodeStream cfg bytes n room =
      if bits.length ≤ room then .ok bits else .fail cfg.decodeOvfErr) ∧
    (trail = [] → bits.length ≤ room → decodeStream cfg bytes n room = .fail .dataFormat)

/-- R271, R272, and R273 (partly an inference the spec marks as its own): an empty stream, and one
whose first byte fails the SOF test whatever its length, is DataFormat; a stream of exactly 8 bits
that passes it is IncompleteFrame; one of 1 to 7, 9 or 10 bits that passes it is DataFormat. That
the record of a failed decode is its error byte alone is the model's reading (log 12, R281). -/
def Obligations.ShortStreams : Prop :=
  ∀ (s : State) (bin bout : Byte) (ibits : BitVec 32), s.fault = none →
    s.buffer s.cur bin ≠ none → s.buffer s.cur bout ≠ none →
    (ibits.toNat + 7) / 8 ≤ s.cap s.cur bin →
    let sof := s.bufByte s.cur bin 0 &&& 0x1F = s.cfg.rxSof.zeroExtend 8
    ∃ t record, exec (.iso15693DecodeFrame bin ibits bout) s = .next t ∧
      t.results = s.results ++ [⟨s.cur, record⟩] ∧
      (ibits = 0 → record = [0x06]) ∧
      (ibits ≠ 0 → ¬sof → record = [0x06]) ∧
      (ibits = 8 → sof → record = [0x07]) ∧
      (ibits ≠ 0 → ibits ≠ 8 → ibits.toNat ≤ 10 → sof → record = [0x06])

/-! ## Controller (spec/45_controller.md) -/

/-- R300, R301, R312: INIT and DEINIT alone. INIT runs its sequence and takes an outcome that is not
tied to the chip's answers (log 17); only with the outcome None does the phase change, and the lock,
mode, technology, context and flags are not written. DEINIT runs its sequence and restores the
arbiter's reset values: the timers with their registers (log 10), the flags and the causes. With any
steps between its frames it ends so, or with the halt or the reset among them; but its last step is
not enabled while another thread holds the lock or a mode is selected (R313; the model's reading, log
7): with windows that leave it so nothing happens (log 4), and no check is made after a frame (R326). The
sequences run unchecked (log 22); what one leaves of other handles' buffers rests on log 35. -/
def Obligations.InitAndDeinitComplete : Prop :=
  ∀ s : State, s.fault = none →
    (s.windows = [] → s.phase = .uninit →
      ∃ u, SeqRan false s.cfg.bringupSeq s u ∧
        exec .init s =
          match u.bringup with
          | .ok =>
            .next ({ u.afterBringup with phase := .ready, lp := true }.reply s.cur [0x00])
          | .communication => .next (u.afterBringup.reply s.cur [0x02])
          | .oscillator => .next (u.afterBringup.reply s.cur [0x04])) ∧
    (s.phase = .ready → s.holder = none → s.mode = .none →
      (s.windows = [] →
        ∃ u, SeqRan false s.cfg.deinitSeq s u ∧
          exec .deinit s =
            .next ({ u with
              fwt := ⟨false, false, false, 0, 0⟩, btx := ⟨false, false, false, 0, 0⟩
              lp := true, evf := 0, irqAcc := 0, phase := .uninit }.reply s.cur [0x00])) ∧
      match (runSeq false s.cur s.cfg.deinitSeq s).weave [] with
      | .go _ u =>
        if u.holder = none ∧ u.mode = .none then
          exec .deinit s =
            .next ({ u with
              fwt := ⟨false, false, false, 0, 0⟩, btx := ⟨false, false, false, 0, 0⟩
              lp := true, evf := 0, irqAcc := 0, phase := .uninit }.reply s.cur [0x00])
        else exec .deinit s = .next s
      | .stop u => exec .deinit s = .next u
      | .void => False)

/-- R91, R302: ACQUIRE takes the free lock in one step, is Busy for the holder itself, and blocks
behind another holder. A blocked ACQUIRE ends by taking the free lock (log 6), or by its timeout
with Busy, also while the lock is free; in a fair run (R378 a, log 28) its thread gets a result, at
the latest in a state that some step passes, unless a reset event is among the steps before. Between
the frames of DEINIT, while the lock is free, another thread's ACQUIRE takes it and its RELEASE gives
it back, and a blocked one takes it (R86, log 7). -/
def Obligations.AcquireCompletes : Prop :=
  (∀ (state : Nat → State) (item : Nat → SchedItem) (n : Nat) (t : ThreadId),
    Execution state item → Fair state item → t ∈ (state n).acquirers →
    ∃ m, n ≤ m ∧ ((item m).resets = true ∨
      ∃ v ∈ (item m).states (state m), ∃ given, v.results = (state n).results ++ given ∧
        ∃ r ∈ given, r.thread = t)) ∧
  ∀ (s : State) (t : ThreadId) (rest : List SchedItem) (others : List Pending),
    s.fault = none → s.phase = .ready →
    (s.holder = none → exec .acquire s =
      .next ({ s with holder := some s.cur }.reply s.cur [0x00])) ∧
    (s.holder = some s.cur → exec .acquire s = .next (s.reply s.cur [0x01])) ∧
    (s.holder ≠ none → s.holder ≠ some s.cur → exec .acquire s =
      .next { s with acquirers := s.acquirers ++ [s.cur] }) ∧
    (t ∈ s.acquirers → s.holder = none → s.sched = .acquireTake t :: rest →
      step s = .next ({ s with
        sched := rest, holder := some t
        acquirers := s.acquirers.filter (· ≠ t) }.reply t [0x00])) ∧
    (t ∈ s.acquirers → s.sched = .agent (.acquireTimeout t) :: rest →
      step s = .next ({ s with
        sched := rest, acquirers := s.acquirers.filter (· ≠ t) }.reply t [0x01])) ∧
    (t ≠ s.cur → s.blocked t = false → inProgress t others = false → s.holder = none →
      windowStep (.command t [0x42]) others s =
        (others, { s with holder := some t }.reply t [0x00])) ∧
    (t ≠ s.cur → s.blocked t = false → inProgress t others = false → s.holder = some t →
      windowStep (.command t [0x43]) others s =
        (others, { s with holder := none }.reply t [0x00])) ∧
    (t ∈ s.acquirers → s.holder = none →
      windowStep (.acquireTake t) others s =
        (others, { s with
          holder := some t, acquirers := s.acquirers.filter (· ≠ t) }.reply t [0x00]))

/-- R304: RELEASE by the holder frees the lock and touches nothing else; by any other thread, also
when the lock is free, it faults NOT_HOLDER; halted it has no step. -/
def Obligations.ReleaseCompletes : Prop :=
  ∀ s : State,
    (s.fault = none → s.holder = some s.cur →
      exec .release s = .next ({ s with holder := none }.reply s.cur [0x00])) ∧
    (s.fault = none → s.holder ≠ some s.cur →
      exec .release s = .next { s with fault := some .notHolder }) ∧
    (∀ c, s.fault = some c → exec .release s = .fault (.halted c))

/-- R306, and R307 (an inference the spec marks as its own): FIELD_ON. A read that shows the
transmit-enable bit is the one frame; otherwise, alone, the field-on sequence runs after the read,
unchecked (log 22). What a sequence leaves of other handles' buffers rests on log 35. -/
def Obligations.FieldOnCompletes : Prop :=
  ∀ (s : State) (v : Byte), s.serving → s.answers 1 = [v] →
    let a : Byte := s.cfg.regOpControl.zeroExtend 8
    let m := s.frame (prefixOf s.cfg a ++ [s.cfg.spiRegRead ++ regOf s.cfg a]) 1
    (v &&& s.cfg.opcTxEn ≠ 0 → exec .fieldOn s = .next (m.reply s.cur [0x00])) ∧
    (v &&& s.cfg.opcTxEn = 0 → s.windows = [] →
      ∃ u, SeqRan true s.cfg.fieldOnSeq m u ∧ exec .fieldOn s = .next (u.reply s.cur [0x00]))

/-- R308 to R310: FIELD_DETECT_START and FIELD_DETECT_STOP alone run their sequences unchecked (log
22); FIELD_PRESENT is one read and answers 1 exactly when a bit of the mask is set. What a sequence
leaves of other handles' buffers rests on log 35. -/
def Obligations.FieldDetectionCompletes : Prop :=
  ∀ (s : State) (v : Byte), s.serving →
    (s.windows = [] →
      ∃ u, SeqRan false s.cfg.fieldDetectSeqOn s u ∧
        exec .fieldDetectStart s = .next (u.reply s.cur [0x00])) ∧
    (s.windows = [] →
      ∃ u, SeqRan false s.cfg.fieldDetectSeqOff s u ∧
        exec .fieldDetectStop s = .next (u.reply s.cur [0x00])) ∧
    (s.answers 1 = [v] →
      let a : Byte := s.cfg.fieldPresentReg.zeroExtend 8
      exec .fieldPresent s =
        .next ((s.frame (prefixOf s.cfg a ++ [s.cfg.spiRegRead ++ regOf s.cfg a]) 1).reply s.cur
          [0x00, if v &&& s.cfg.fieldPresentMask ≠ 0 then 1 else 0]))
end

