-- ==== Sys2Proof/Laws/State.lean ====
section
/-! SUPPORT. For each named update of the state, one lemma for each field: what it becomes, or that
it stays. -/

namespace Sys2Proof.Machine

open Sys2Proof

/-! ## State.takeFault -/

@[simp] theorem State.takeFault_cfg (s : State) (c : FatalCode) : (s.takeFault c).cfg = s.cfg := rfl
@[simp] theorem State.takeFault_phase (s : State) (c : FatalCode) : (s.takeFault c).phase = s.phase := rfl
@[simp] theorem State.takeFault_lp (s : State) (c : FatalCode) : (s.takeFault c).lp = s.lp := rfl
@[simp] theorem State.takeFault_mode (s : State) (c : FatalCode) : (s.takeFault c).mode = s.mode := rfl
@[simp] theorem State.takeFault_tech (s : State) (c : FatalCode) : (s.takeFault c).tech = s.tech := rfl
@[simp] theorem State.takeFault_ctx (s : State) (c : FatalCode) : (s.takeFault c).ctx = s.ctx := rfl
@[simp] theorem State.takeFault_holder (s : State) (c : FatalCode) : (s.takeFault c).holder = s.holder := rfl
@[simp] theorem State.takeFault_evf (s : State) (c : FatalCode) : (s.takeFault c).evf = s.evf := rfl
@[simp] theorem State.takeFault_irqAcc (s : State) (c : FatalCode) : (s.takeFault c).irqAcc = s.irqAcc := rfl
@[simp] theorem State.takeFault_waiter (s : State) (c : FatalCode) : (s.takeFault c).waiter = s.waiter := rfl
@[simp] theorem State.takeFault_fwt (s : State) (c : FatalCode) : (s.takeFault c).fwt = s.fwt := rfl
@[simp] theorem State.takeFault_btx (s : State) (c : FatalCode) : (s.takeFault c).btx = s.btx := rfl
@[simp] theorem State.takeFault_fault (s : State) (c : FatalCode) : (s.takeFault c).fault = some c := rfl
@[simp] theorem State.takeFault_irqAgent (s : State) (c : FatalCode) : (s.takeFault c).irqAgent = s.irqAgent := rfl
@[simp] theorem State.takeFault_irqLine (s : State) (c : FatalCode) : (s.takeFault c).irqLine = s.irqLine := rfl
@[simp] theorem State.takeFault_bufs (s : State) (c : FatalCode) : (s.takeFault c).bufs = s.bufs := rfl
@[simp] theorem State.takeFault_acquirers (s : State) (c : FatalCode) : (s.takeFault c).acquirers = s.acquirers := rfl
@[simp] theorem State.takeFault_cur (s : State) (c : FatalCode) : (s.takeFault c).cur = s.cur := rfl
@[simp] theorem State.takeFault_windows (s : State) (c : FatalCode) : (s.takeFault c).windows = s.windows := rfl
@[simp] theorem State.takeFault_sched (s : State) (c : FatalCode) : (s.takeFault c).sched = s.sched := rfl
@[simp] theorem State.takeFault_chipIn (s : State) (c : FatalCode) : (s.takeFault c).chipIn = s.chipIn := rfl
@[simp] theorem State.takeFault_bringupIn (s : State) (c : FatalCode) : (s.takeFault c).bringupIn = s.bringupIn := rfl
@[simp] theorem State.takeFault_draws (s : State) (c : FatalCode) : (s.takeFault c).draws = s.draws := rfl
@[simp] theorem State.takeFault_bus (s : State) (c : FatalCode) : (s.takeFault c).bus = s.bus := rfl
@[simp] theorem State.takeFault_results (s : State) (c : FatalCode) : (s.takeFault c).results = s.results := rfl

/-! ## State.reply -/

@[simp] theorem State.reply_cfg (s : State) (t : ThreadId) (r : List Byte) : (s.reply t r).cfg = s.cfg := rfl
@[simp] theorem State.reply_phase (s : State) (t : ThreadId) (r : List Byte) : (s.reply t r).phase = s.phase := rfl
@[simp] theorem State.reply_lp (s : State) (t : ThreadId) (r : List Byte) : (s.reply t r).lp = s.lp := rfl
@[simp] theorem State.reply_mode (s : State) (t : ThreadId) (r : List Byte) : (s.reply t r).mode = s.mode := rfl
@[simp] theorem State.reply_tech (s : State) (t : ThreadId) (r : List Byte) : (s.reply t r).tech = s.tech := rfl
@[simp] theorem State.reply_ctx (s : State) (t : ThreadId) (r : List Byte) : (s.reply t r).ctx = s.ctx := rfl
@[simp] theorem State.reply_holder (s : State) (t : ThreadId) (r : List Byte) : (s.reply t r).holder = s.holder := rfl
@[simp] theorem State.reply_evf (s : State) (t : ThreadId) (r : List Byte) : (s.reply t r).evf = s.evf := rfl
@[simp] theorem State.reply_irqAcc (s : State) (t : ThreadId) (r : List Byte) : (s.reply t r).irqAcc = s.irqAcc := rfl
@[simp] theorem State.reply_waiter (s : State) (t : ThreadId) (r : List Byte) : (s.reply t r).waiter = s.waiter := rfl
@[simp] theorem State.reply_fwt (s : State) (t : ThreadId) (r : List Byte) : (s.reply t r).fwt = s.fwt := rfl
@[simp] theorem State.reply_btx (s : State) (t : ThreadId) (r : List Byte) : (s.reply t r).btx = s.btx := rfl
@[simp] theorem State.reply_fault (s : State) (t : ThreadId) (r : List Byte) : (s.reply t r).fault = s.fault := rfl
@[simp] theorem State.reply_irqAgent (s : State) (t : ThreadId) (r : List Byte) : (s.reply t r).irqAgent = s.irqAgent := rfl
@[simp] theorem State.reply_irqLine (s : State) (t : ThreadId) (r : List Byte) : (s.reply t r).irqLine = s.irqLine := rfl
@[simp] theorem State.reply_bufs (s : State) (t : ThreadId) (r : List Byte) : (s.reply t r).bufs = s.bufs := rfl
@[simp] theorem State.reply_acquirers (s : State) (t : ThreadId) (r : List Byte) : (s.reply t r).acquirers = s.acquirers := rfl
@[simp] theorem State.reply_cur (s : State) (t : ThreadId) (r : List Byte) : (s.reply t r).cur = s.cur := rfl
@[simp] theorem State.reply_windows (s : State) (t : ThreadId) (r : List Byte) : (s.reply t r).windows = s.windows := rfl
@[simp] theorem State.reply_sched (s : State) (t : ThreadId) (r : List Byte) : (s.reply t r).sched = s.sched := rfl
@[simp] theorem State.reply_chipIn (s : State) (t : ThreadId) (r : List Byte) : (s.reply t r).chipIn = s.chipIn := rfl
@[simp] theorem State.reply_bringupIn (s : State) (t : ThreadId) (r : List Byte) : (s.reply t r).bringupIn = s.bringupIn := rfl
@[simp] theorem State.reply_draws (s : State) (t : ThreadId) (r : List Byte) : (s.reply t r).draws = s.draws := rfl
@[simp] theorem State.reply_bus (s : State) (t : ThreadId) (r : List Byte) : (s.reply t r).bus = s.bus := rfl
@[simp] theorem State.reply_results (s : State) (t : ThreadId) (r : List Byte) : (s.reply t r).results = s.results ++ [⟨t, r⟩] := rfl

/-! ## State.skip -/

@[simp] theorem State.skip_cfg (s : State) (n : Nat) : (s.skip n).cfg = s.cfg := rfl
@[simp] theorem State.skip_phase (s : State) (n : Nat) : (s.skip n).phase = s.phase := rfl
@[simp] theorem State.skip_lp (s : State) (n : Nat) : (s.skip n).lp = s.lp := rfl
@[simp] theorem State.skip_mode (s : State) (n : Nat) : (s.skip n).mode = s.mode := rfl
@[simp] theorem State.skip_tech (s : State) (n : Nat) : (s.skip n).tech = s.tech := rfl
@[simp] theorem State.skip_ctx (s : State) (n : Nat) : (s.skip n).ctx = s.ctx := rfl
@[simp] theorem State.skip_holder (s : State) (n : Nat) : (s.skip n).holder = s.holder := rfl
@[simp] theorem State.skip_evf (s : State) (n : Nat) : (s.skip n).evf = s.evf := rfl
@[simp] theorem State.skip_irqAcc (s : State) (n : Nat) : (s.skip n).irqAcc = s.irqAcc := rfl
@[simp] theorem State.skip_waiter (s : State) (n : Nat) : (s.skip n).waiter = s.waiter := rfl
@[simp] theorem State.skip_fwt (s : State) (n : Nat) : (s.skip n).fwt = s.fwt := rfl
@[simp] theorem State.skip_btx (s : State) (n : Nat) : (s.skip n).btx = s.btx := rfl
@[simp] theorem State.skip_fault (s : State) (n : Nat) : (s.skip n).fault = s.fault := rfl
@[simp] theorem State.skip_irqAgent (s : State) (n : Nat) : (s.skip n).irqAgent = s.irqAgent := rfl
@[simp] theorem State.skip_irqLine (s : State) (n : Nat) : (s.skip n).irqLine = s.irqLine := rfl
@[simp] theorem State.skip_bufs (s : State) (n : Nat) : (s.skip n).bufs = s.bufs := rfl
@[simp] theorem State.skip_acquirers (s : State) (n : Nat) : (s.skip n).acquirers = s.acquirers := rfl
@[simp] theorem State.skip_cur (s : State) (n : Nat) : (s.skip n).cur = s.cur := rfl
@[simp] theorem State.skip_windows (s : State) (n : Nat) : (s.skip n).windows = s.windows := rfl
@[simp] theorem State.skip_sched (s : State) (n : Nat) : (s.skip n).sched = s.sched := rfl
@[simp] theorem State.skip_chipIn (s : State) (n : Nat) : (s.skip n).chipIn = s.chipIn := rfl
@[simp] theorem State.skip_bringupIn (s : State) (n : Nat) : (s.skip n).bringupIn = s.bringupIn := rfl
@[simp] theorem State.skip_draws (s : State) (n : Nat) : (s.skip n).draws = s.draws + n := rfl
@[simp] theorem State.skip_bus (s : State) (n : Nat) : (s.skip n).bus = s.bus := rfl
@[simp] theorem State.skip_results (s : State) (n : Nat) : (s.skip n).results = s.results := rfl

/-! ## State.frame -/

@[simp] theorem State.frame_cfg (s : State) (tx : List Byte) (n : Nat) : (s.frame tx n).cfg = s.cfg := rfl
@[simp] theorem State.frame_phase (s : State) (tx : List Byte) (n : Nat) : (s.frame tx n).phase = s.phase := rfl
@[simp] theorem State.frame_lp (s : State) (tx : List Byte) (n : Nat) : (s.frame tx n).lp = s.lp := rfl
@[simp] theorem State.frame_mode (s : State) (tx : List Byte) (n : Nat) : (s.frame tx n).mode = s.mode := rfl
@[simp] theorem State.frame_tech (s : State) (tx : List Byte) (n : Nat) : (s.frame tx n).tech = s.tech := rfl
@[simp] theorem State.frame_ctx (s : State) (tx : List Byte) (n : Nat) : (s.frame tx n).ctx = s.ctx := rfl
@[simp] theorem State.frame_holder (s : State) (tx : List Byte) (n : Nat) : (s.frame tx n).holder = s.holder := rfl
@[simp] theorem State.frame_evf (s : State) (tx : List Byte) (n : Nat) : (s.frame tx n).evf = s.evf := rfl
@[simp] theorem State.frame_irqAcc (s : State) (tx : List Byte) (n : Nat) : (s.frame tx n).irqAcc = s.irqAcc := rfl
@[simp] theorem State.frame_waiter (s : State) (tx : List Byte) (n : Nat) : (s.frame tx n).waiter = s.waiter := rfl
@[simp] theorem State.frame_fwt (s : State) (tx : List Byte) (n : Nat) : (s.frame tx n).fwt = s.fwt := rfl
@[simp] theorem State.frame_btx (s : State) (tx : List Byte) (n : Nat) : (s.frame tx n).btx = s.btx := rfl
@[simp] theorem State.frame_fault (s : State) (tx : List Byte) (n : Nat) : (s.frame tx n).fault = s.fault := rfl
@[simp] theorem State.frame_irqAgent (s : State) (tx : List Byte) (n : Nat) : (s.frame tx n).irqAgent = s.irqAgent := rfl
@[simp] theorem State.frame_irqLine (s : State) (tx : List Byte) (n : Nat) : (s.frame tx n).irqLine = s.irqLine := rfl
@[simp] theorem State.frame_bufs (s : State) (tx : List Byte) (n : Nat) : (s.frame tx n).bufs = s.bufs := rfl
@[simp] theorem State.frame_acquirers (s : State) (tx : List Byte) (n : Nat) : (s.frame tx n).acquirers = s.acquirers := rfl
@[simp] theorem State.frame_cur (s : State) (tx : List Byte) (n : Nat) : (s.frame tx n).cur = s.cur := rfl
@[simp] theorem State.frame_windows (s : State) (tx : List Byte) (n : Nat) : (s.frame tx n).windows = s.windows := rfl
@[simp] theorem State.frame_sched (s : State) (tx : List Byte) (n : Nat) : (s.frame tx n).sched = s.sched := rfl
@[simp] theorem State.frame_chipIn (s : State) (tx : List Byte) (n : Nat) : (s.frame tx n).chipIn = s.chipIn.drop n := rfl
@[simp] theorem State.frame_bringupIn (s : State) (tx : List Byte) (n : Nat) : (s.frame tx n).bringupIn = s.bringupIn := rfl
@[simp] theorem State.frame_draws (s : State) (tx : List Byte) (n : Nat) : (s.frame tx n).draws = s.draws + (n - s.chipIn.length) := rfl
@[simp] theorem State.frame_bus (s : State) (tx : List Byte) (n : Nat) : (s.frame tx n).bus = s.bus ++ [⟨tx, s.answers n⟩] := rfl
@[simp] theorem State.frame_results (s : State) (tx : List Byte) (n : Nat) : (s.frame tx n).results = s.results := rfl

/-! ## State.setFlag -/

@[simp] theorem State.setFlag_cfg (s : State) (f : Flag) : (s.setFlag f).cfg = s.cfg := rfl
@[simp] theorem State.setFlag_phase (s : State) (f : Flag) : (s.setFlag f).phase = s.phase := rfl
@[simp] theorem State.setFlag_lp (s : State) (f : Flag) : (s.setFlag f).lp = s.lp := rfl
@[simp] theorem State.setFlag_mode (s : State) (f : Flag) : (s.setFlag f).mode = s.mode := rfl
@[simp] theorem State.setFlag_tech (s : State) (f : Flag) : (s.setFlag f).tech = s.tech := rfl
@[simp] theorem State.setFlag_ctx (s : State) (f : Flag) : (s.setFlag f).ctx = s.ctx := rfl
@[simp] theorem State.setFlag_holder (s : State) (f : Flag) : (s.setFlag f).holder = s.holder := rfl
@[simp] theorem State.setFlag_evf (s : State) (f : Flag) : (s.setFlag f).evf = s.evf ||| f.bit := rfl
@[simp] theorem State.setFlag_irqAcc (s : State) (f : Flag) : (s.setFlag f).irqAcc = s.irqAcc := rfl
@[simp] theorem State.setFlag_waiter (s : State) (f : Flag) : (s.setFlag f).waiter = s.waiter := rfl
@[simp] theorem State.setFlag_fwt (s : State) (f : Flag) : (s.setFlag f).fwt = s.fwt := rfl
@[simp] theorem State.setFlag_btx (s : State) (f : Flag) : (s.setFlag f).btx = s.btx := rfl
@[simp] theorem State.setFlag_fault (s : State) (f : Flag) : (s.setFlag f).fault = s.fault := rfl
@[simp] theorem State.setFlag_irqAgent (s : State) (f : Flag) : (s.setFlag f).irqAgent = s.irqAgent := rfl
@[simp] theorem State.setFlag_irqLine (s : State) (f : Flag) : (s.setFlag f).irqLine = s.irqLine := rfl
@[simp] theorem State.setFlag_bufs (s : State) (f : Flag) : (s.setFlag f).bufs = s.bufs := rfl
@[simp] theorem State.setFlag_acquirers (s : State) (f : Flag) : (s.setFlag f).acquirers = s.acquirers := rfl
@[simp] theorem State.setFlag_cur (s : State) (f : Flag) : (s.setFlag f).cur = s.cur := rfl
@[simp] theorem State.setFlag_windows (s : State) (f : Flag) : (s.setFlag f).windows = s.windows := rfl
@[simp] theorem State.setFlag_sched (s : State) (f : Flag) : (s.setFlag f).sched = s.sched := rfl
@[simp] theorem State.setFlag_chipIn (s : State) (f : Flag) : (s.setFlag f).chipIn = s.chipIn := rfl
@[simp] theorem State.setFlag_bringupIn (s : State) (f : Flag) : (s.setFlag f).bringupIn = s.bringupIn := rfl
@[simp] theorem State.setFlag_draws (s : State) (f : Flag) : (s.setFlag f).draws = s.draws := rfl
@[simp] theorem State.setFlag_bus (s : State) (f : Flag) : (s.setFlag f).bus = s.bus := rfl
@[simp] theorem State.setFlag_results (s : State) (f : Flag) : (s.setFlag f).results = s.results := rfl

/-! ## State.consume -/

@[simp] theorem State.consume_cfg (s : State) : (s.consume).cfg = s.cfg := rfl
@[simp] theorem State.consume_phase (s : State) : (s.consume).phase = s.phase := rfl
@[simp] theorem State.consume_lp (s : State) : (s.consume).lp = s.lp := rfl
@[simp] theorem State.consume_mode (s : State) : (s.consume).mode = s.mode := rfl
@[simp] theorem State.consume_tech (s : State) : (s.consume).tech = s.tech := rfl
@[simp] theorem State.consume_ctx (s : State) : (s.consume).ctx = s.ctx := rfl
@[simp] theorem State.consume_holder (s : State) : (s.consume).holder = s.holder := rfl
@[simp] theorem State.consume_evf (s : State) : (s.consume).evf = s.evf &&& ~~~s.waitSet := rfl
@[simp] theorem State.consume_irqAcc (s : State) : (s.consume).irqAcc = if Flag.irq.isIn s.fired then 0 else s.irqAcc := rfl
@[simp] theorem State.consume_waiter (s : State) : (s.consume).waiter = s.waiter := rfl
@[simp] theorem State.consume_fwt (s : State) : (s.consume).fwt = s.fwt := rfl
@[simp] theorem State.consume_btx (s : State) : (s.consume).btx = s.btx := rfl
@[simp] theorem State.consume_fault (s : State) : (s.consume).fault = s.fault := rfl
@[simp] theorem State.consume_irqAgent (s : State) : (s.consume).irqAgent = s.irqAgent := rfl
@[simp] theorem State.consume_irqLine (s : State) : (s.consume).irqLine = s.irqLine := rfl
@[simp] theorem State.consume_bufs (s : State) : (s.consume).bufs = s.bufs := rfl
@[simp] theorem State.consume_acquirers (s : State) : (s.consume).acquirers = s.acquirers := rfl
@[simp] theorem State.consume_cur (s : State) : (s.consume).cur = s.cur := rfl
@[simp] theorem State.consume_windows (s : State) : (s.consume).windows = s.windows := rfl
@[simp] theorem State.consume_sched (s : State) : (s.consume).sched = s.sched := rfl
@[simp] theorem State.consume_chipIn (s : State) : (s.consume).chipIn = s.chipIn := rfl
@[simp] theorem State.consume_bringupIn (s : State) : (s.consume).bringupIn = s.bringupIn := rfl
@[simp] theorem State.consume_draws (s : State) : (s.consume).draws = s.draws := rfl
@[simp] theorem State.consume_bus (s : State) : (s.consume).bus = s.bus := rfl
@[simp] theorem State.consume_results (s : State) : (s.consume).results = s.results := rfl

/-! ## State.tearTimers -/

@[simp] theorem State.tearTimers_cfg (s : State) : (s.tearTimers).cfg = s.cfg := rfl
@[simp] theorem State.tearTimers_phase (s : State) : (s.tearTimers).phase = s.phase := rfl
@[simp] theorem State.tearTimers_lp (s : State) : (s.tearTimers).lp = s.lp := rfl
@[simp] theorem State.tearTimers_mode (s : State) : (s.tearTimers).mode = s.mode := rfl
@[simp] theorem State.tearTimers_tech (s : State) : (s.tearTimers).tech = s.tech := rfl
@[simp] theorem State.tearTimers_ctx (s : State) : (s.tearTimers).ctx = s.ctx := rfl
@[simp] theorem State.tearTimers_holder (s : State) : (s.tearTimers).holder = s.holder := rfl
@[simp] theorem State.tearTimers_evf (s : State) : (s.tearTimers).evf = s.evf := rfl
@[simp] theorem State.tearTimers_irqAcc (s : State) : (s.tearTimers).irqAcc = s.irqAcc := rfl
@[simp] theorem State.tearTimers_waiter (s : State) : (s.tearTimers).waiter = s.waiter := rfl
@[simp] theorem State.tearTimers_fwt (s : State) : (s.tearTimers).fwt = s.fwt.torn := rfl
@[simp] theorem State.tearTimers_btx (s : State) : (s.tearTimers).btx = s.btx.torn := rfl
@[simp] theorem State.tearTimers_fault (s : State) : (s.tearTimers).fault = s.fault := rfl
@[simp] theorem State.tearTimers_irqAgent (s : State) : (s.tearTimers).irqAgent = s.irqAgent := rfl
@[simp] theorem State.tearTimers_irqLine (s : State) : (s.tearTimers).irqLine = s.irqLine := rfl
@[simp] theorem State.tearTimers_bufs (s : State) : (s.tearTimers).bufs = s.bufs := rfl
@[simp] theorem State.tearTimers_acquirers (s : State) : (s.tearTimers).acquirers = s.acquirers := rfl
@[simp] theorem State.tearTimers_cur (s : State) : (s.tearTimers).cur = s.cur := rfl
@[simp] theorem State.tearTimers_windows (s : State) : (s.tearTimers).windows = s.windows := rfl
@[simp] theorem State.tearTimers_sched (s : State) : (s.tearTimers).sched = s.sched := rfl
@[simp] theorem State.tearTimers_chipIn (s : State) : (s.tearTimers).chipIn = s.chipIn := rfl
@[simp] theorem State.tearTimers_bringupIn (s : State) : (s.tearTimers).bringupIn = s.bringupIn := rfl
@[simp] theorem State.tearTimers_draws (s : State) : (s.tearTimers).draws = s.draws := rfl
@[simp] theorem State.tearTimers_bus (s : State) : (s.tearTimers).bus = s.bus := rfl
@[simp] theorem State.tearTimers_results (s : State) : (s.tearTimers).results = s.results := rfl

/-! ## State.setTmr -/

@[simp] theorem State.setTmr_cfg (s : State) (t : TimerId) (v : Timer) : (s.setTmr t v).cfg = s.cfg := by cases t <;> rfl
@[simp] theorem State.setTmr_phase (s : State) (t : TimerId) (v : Timer) : (s.setTmr t v).phase = s.phase := by cases t <;> rfl
@[simp] theorem State.setTmr_lp (s : State) (t : TimerId) (v : Timer) : (s.setTmr t v).lp = s.lp := by cases t <;> rfl
@[simp] theorem State.setTmr_mode (s : State) (t : TimerId) (v : Timer) : (s.setTmr t v).mode = s.mode := by cases t <;> rfl
@[simp] theorem State.setTmr_tech (s : State) (t : TimerId) (v : Timer) : (s.setTmr t v).tech = s.tech := by cases t <;> rfl
@[simp] theorem State.setTmr_ctx (s : State) (t : TimerId) (v : Timer) : (s.setTmr t v).ctx = s.ctx := by cases t <;> rfl
@[simp] theorem State.setTmr_holder (s : State) (t : TimerId) (v : Timer) : (s.setTmr t v).holder = s.holder := by cases t <;> rfl
@[simp] theorem State.setTmr_evf (s : State) (t : TimerId) (v : Timer) : (s.setTmr t v).evf = s.evf := by cases t <;> rfl
@[simp] theorem State.setTmr_irqAcc (s : State) (t : TimerId) (v : Timer) : (s.setTmr t v).irqAcc = s.irqAcc := by cases t <;> rfl
@[simp] theorem State.setTmr_waiter (s : State) (t : TimerId) (v : Timer) : (s.setTmr t v).waiter = s.waiter := by cases t <;> rfl
@[simp] theorem State.setTmr_fault (s : State) (t : TimerId) (v : Timer) : (s.setTmr t v).fault = s.fault := by cases t <;> rfl
@[simp] theorem State.setTmr_irqAgent (s : State) (t : TimerId) (v : Timer) : (s.setTmr t v).irqAgent = s.irqAgent := by cases t <;> rfl
@[simp] theorem State.setTmr_irqLine (s : State) (t : TimerId) (v : Timer) : (s.setTmr t v).irqLine = s.irqLine := by cases t <;> rfl
@[simp] theorem State.setTmr_bufs (s : State) (t : TimerId) (v : Timer) : (s.setTmr t v).bufs = s.bufs := by cases t <;> rfl
@[simp] theorem State.setTmr_acquirers (s : State) (t : TimerId) (v : Timer) : (s.setTmr t v).acquirers = s.acquirers := by cases t <;> rfl
@[simp] theorem State.setTmr_cur (s : State) (t : TimerId) (v : Timer) : (s.setTmr t v).cur = s.cur := by cases t <;> rfl
@[simp] theorem State.setTmr_windows (s : State) (t : TimerId) (v : Timer) : (s.setTmr t v).windows = s.windows := by cases t <;> rfl
@[simp] theorem State.setTmr_sched (s : State) (t : TimerId) (v : Timer) : (s.setTmr t v).sched = s.sched := by cases t <;> rfl
@[simp] theorem State.setTmr_chipIn (s : State) (t : TimerId) (v : Timer) : (s.setTmr t v).chipIn = s.chipIn := by cases t <;> rfl
@[simp] theorem State.setTmr_bringupIn (s : State) (t : TimerId) (v : Timer) : (s.setTmr t v).bringupIn = s.bringupIn := by cases t <;> rfl
@[simp] theorem State.setTmr_draws (s : State) (t : TimerId) (v : Timer) : (s.setTmr t v).draws = s.draws := by cases t <;> rfl
@[simp] theorem State.setTmr_bus (s : State) (t : TimerId) (v : Timer) : (s.setTmr t v).bus = s.bus := by cases t <;> rfl
@[simp] theorem State.setTmr_results (s : State) (t : TimerId) (v : Timer) : (s.setTmr t v).results = s.results := by cases t <;> rfl

/-! ## State.afterBringup -/

@[simp] theorem State.afterBringup_cfg (s : State) : (s.afterBringup).cfg = s.cfg := by unfold State.afterBringup; split <;> rfl
@[simp] theorem State.afterBringup_phase (s : State) : (s.afterBringup).phase = s.phase := by unfold State.afterBringup; split <;> rfl
@[simp] theorem State.afterBringup_lp (s : State) : (s.afterBringup).lp = s.lp := by unfold State.afterBringup; split <;> rfl
@[simp] theorem State.afterBringup_mode (s : State) : (s.afterBringup).mode = s.mode := by unfold State.afterBringup; split <;> rfl
@[simp] theorem State.afterBringup_tech (s : State) : (s.afterBringup).tech = s.tech := by unfold State.afterBringup; split <;> rfl
@[simp] theorem State.afterBringup_ctx (s : State) : (s.afterBringup).ctx = s.ctx := by unfold State.afterBringup; split <;> rfl
@[simp] theorem State.afterBringup_holder (s : State) : (s.afterBringup).holder = s.holder := by unfold State.afterBringup; split <;> rfl
@[simp] theorem State.afterBringup_evf (s : State) : (s.afterBringup).evf = s.evf := by unfold State.afterBringup; split <;> rfl
@[simp] theorem State.afterBringup_irqAcc (s : State) : (s.afterBringup).irqAcc = s.irqAcc := by unfold State.afterBringup; split <;> rfl
@[simp] theorem State.afterBringup_waiter (s : State) : (s.afterBringup).waiter = s.waiter := by unfold State.afterBringup; split <;> rfl
@[simp] theorem State.afterBringup_fwt (s : State) : (s.afterBringup).fwt = s.fwt := by unfold State.afterBringup; split <;> rfl
@[simp] theorem State.afterBringup_btx (s : State) : (s.afterBringup).btx = s.btx := by unfold State.afterBringup; split <;> rfl
@[simp] theorem State.afterBringup_fault (s : State) : (s.afterBringup).fault = s.fault := by unfold State.afterBringup; split <;> rfl
@[simp] theorem State.afterBringup_irqAgent (s : State) : (s.afterBringup).irqAgent = s.irqAgent := by unfold State.afterBringup; split <;> rfl
@[simp] theorem State.afterBringup_irqLine (s : State) : (s.afterBringup).irqLine = s.irqLine := by unfold State.afterBringup; split <;> rfl
@[simp] theorem State.afterBringup_bufs (s : State) : (s.afterBringup).bufs = s.bufs := by unfold State.afterBringup; split <;> rfl
@[simp] theorem State.afterBringup_acquirers (s : State) : (s.afterBringup).acquirers = s.acquirers := by unfold State.afterBringup; split <;> rfl
@[simp] theorem State.afterBringup_cur (s : State) : (s.afterBringup).cur = s.cur := by unfold State.afterBringup; split <;> rfl
@[simp] theorem State.afterBringup_windows (s : State) : (s.afterBringup).windows = s.windows := by unfold State.afterBringup; split <;> rfl
@[simp] theorem State.afterBringup_sched (s : State) : (s.afterBringup).sched = s.sched := by unfold State.afterBringup; split <;> rfl
@[simp] theorem State.afterBringup_chipIn (s : State) : (s.afterBringup).chipIn = s.chipIn := by unfold State.afterBringup; split <;> rfl
@[simp] theorem State.afterBringup_bus (s : State) : (s.afterBringup).bus = s.bus := by unfold State.afterBringup; split <;> rfl
@[simp] theorem State.afterBringup_results (s : State) : (s.afterBringup).results = s.results := by unfold State.afterBringup; split <;> rfl

/-! ## State.store -/

@[simp] theorem State.store_cfg (s : State) (t : ThreadId) (h : Byte) (b : List Byte) : (s.store t h b).cfg = s.cfg := by unfold State.store; split <;> rfl
@[simp] theorem State.store_phase (s : State) (t : ThreadId) (h : Byte) (b : List Byte) : (s.store t h b).phase = s.phase := by unfold State.store; split <;> rfl
@[simp] theorem State.store_lp (s : State) (t : ThreadId) (h : Byte) (b : List Byte) : (s.store t h b).lp = s.lp := by unfold State.store; split <;> rfl
@[simp] theorem State.store_mode (s : State) (t : ThreadId) (h : Byte) (b : List Byte) : (s.store t h b).mode = s.mode := by unfold State.store; split <;> rfl
@[simp] theorem State.store_tech (s : State) (t : ThreadId) (h : Byte) (b : List Byte) : (s.store t h b).tech = s.tech := by unfold State.store; split <;> rfl
@[simp] theorem State.store_ctx (s : State) (t : ThreadId) (h : Byte) (b : List Byte) : (s.store t h b).ctx = s.ctx := by unfold State.store; split <;> rfl
@[simp] theorem State.store_holder (s : State) (t : ThreadId) (h : Byte) (b : List Byte) : (s.store t h b).holder = s.holder := by unfold State.store; split <;> rfl
@[simp] theorem State.store_evf (s : State) (t : ThreadId) (h : Byte) (b : List Byte) : (s.store t h b).evf = s.evf := by unfold State.store; split <;> rfl
@[simp] theorem State.store_irqAcc (s : State) (t : ThreadId) (h : Byte) (b : List Byte) : (s.store t h b).irqAcc = s.irqAcc := by unfold State.store; split <;> rfl
@[simp] theorem State.store_waiter (s : State) (t : ThreadId) (h : Byte) (b : List Byte) : (s.store t h b).waiter = s.waiter := by unfold State.store; split <;> rfl
@[simp] theorem State.store_fwt (s : State) (t : ThreadId) (h : Byte) (b : List Byte) : (s.store t h b).fwt = s.fwt := by unfold State.store; split <;> rfl
@[simp] theorem State.store_btx (s : State) (t : ThreadId) (h : Byte) (b : List Byte) : (s.store t h b).btx = s.btx := by unfold State.store; split <;> rfl
@[simp] theorem State.store_fault (s : State) (t : ThreadId) (h : Byte) (b : List Byte) : (s.store t h b).fault = s.fault := by unfold State.store; split <;> rfl
@[simp] theorem State.store_irqAgent (s : State) (t : ThreadId) (h : Byte) (b : List Byte) : (s.store t h b).irqAgent = s.irqAgent := by unfold State.store; split <;> rfl
@[simp] theorem State.store_irqLine (s : State) (t : ThreadId) (h : Byte) (b : List Byte) : (s.store t h b).irqLine = s.irqLine := by unfold State.store; split <;> rfl
@[simp] theorem State.store_acquirers (s : State) (t : ThreadId) (h : Byte) (b : List Byte) : (s.store t h b).acquirers = s.acquirers := by unfold State.store; split <;> rfl
@[simp] theorem State.store_cur (s : State) (t : ThreadId) (h : Byte) (b : List Byte) : (s.store t h b).cur = s.cur := by unfold State.store; split <;> rfl
@[simp] theorem State.store_windows (s : State) (t : ThreadId) (h : Byte) (b : List Byte) : (s.store t h b).windows = s.windows := by unfold State.store; split <;> rfl
@[simp] theorem State.store_sched (s : State) (t : ThreadId) (h : Byte) (b : List Byte) : (s.store t h b).sched = s.sched := by unfold State.store; split <;> rfl
@[simp] theorem State.store_chipIn (s : State) (t : ThreadId) (h : Byte) (b : List Byte) : (s.store t h b).chipIn = s.chipIn := by unfold State.store; split <;> rfl
@[simp] theorem State.store_bringupIn (s : State) (t : ThreadId) (h : Byte) (b : List Byte) : (s.store t h b).bringupIn = s.bringupIn := by unfold State.store; split <;> rfl
@[simp] theorem State.store_draws (s : State) (t : ThreadId) (h : Byte) (b : List Byte) : (s.store t h b).draws = s.draws := by unfold State.store; split <;> rfl
@[simp] theorem State.store_bus (s : State) (t : ThreadId) (h : Byte) (b : List Byte) : (s.store t h b).bus = s.bus := by unfold State.store; split <;> rfl
@[simp] theorem State.store_results (s : State) (t : ThreadId) (h : Byte) (b : List Byte) : (s.store t h b).results = s.results := by unfold State.store; split <;> rfl

/-! ## State.giveBuffer -/

@[simp] theorem State.giveBuffer_cfg (s : State) (t : ThreadId) (h : Byte) (b : List Byte) : (s.giveBuffer t h b).cfg = s.cfg := by unfold State.giveBuffer; split <;> rfl
@[simp] theorem State.giveBuffer_phase (s : State) (t : ThreadId) (h : Byte) (b : List Byte) : (s.giveBuffer t h b).phase = s.phase := by unfold State.giveBuffer; split <;> rfl
@[simp] theorem State.giveBuffer_lp (s : State) (t : ThreadId) (h : Byte) (b : List Byte) : (s.giveBuffer t h b).lp = s.lp := by unfold State.giveBuffer; split <;> rfl
@[simp] theorem State.giveBuffer_mode (s : State) (t : ThreadId) (h : Byte) (b : List Byte) : (s.giveBuffer t h b).mode = s.mode := by unfold State.giveBuffer; split <;> rfl
@[simp] theorem State.giveBuffer_tech (s : State) (t : ThreadId) (h : Byte) (b : List Byte) : (s.giveBuffer t h b).tech = s.tech := by unfold State.giveBuffer; split <;> rfl
@[simp] theorem State.giveBuffer_ctx (s : State) (t : ThreadId) (h : Byte) (b : List Byte) : (s.giveBuffer t h b).ctx = s.ctx := by unfold State.giveBuffer; split <;> rfl
@[simp] theorem State.giveBuffer_holder (s : State) (t : ThreadId) (h : Byte) (b : List Byte) : (s.giveBuffer t h b).holder = s.holder := by unfold State.giveBuffer; split <;> rfl
@[simp] theorem State.giveBuffer_evf (s : State) (t : ThreadId) (h : Byte) (b : List Byte) : (s.giveBuffer t h b).evf = s.evf := by unfold State.giveBuffer; split <;> rfl
@[simp] theorem State.giveBuffer_irqAcc (s : State) (t : ThreadId) (h : Byte) (b : List Byte) : (s.giveBuffer t h b).irqAcc = s.irqAcc := by unfold State.giveBuffer; split <;> rfl
@[simp] theorem State.giveBuffer_waiter (s : State) (t : ThreadId) (h : Byte) (b : List Byte) : (s.giveBuffer t h b).waiter = s.waiter := by unfold State.giveBuffer; split <;> rfl
@[simp] theorem State.giveBuffer_fwt (s : State) (t : ThreadId) (h : Byte) (b : List Byte) : (s.giveBuffer t h b).fwt = s.fwt := by unfold State.giveBuffer; split <;> rfl
@[simp] theorem State.giveBuffer_btx (s : State) (t : ThreadId) (h : Byte) (b : List Byte) : (s.giveBuffer t h b).btx = s.btx := by unfold State.giveBuffer; split <;> rfl
@[simp] theorem State.giveBuffer_fault (s : State) (t : ThreadId) (h : Byte) (b : List Byte) : (s.giveBuffer t h b).fault = s.fault := by unfold State.giveBuffer; split <;> rfl
@[simp] theorem State.giveBuffer_irqAgent (s : State) (t : ThreadId) (h : Byte) (b : List Byte) : (s.giveBuffer t h b).irqAgent = s.irqAgent := by unfold State.giveBuffer; split <;> rfl
@[simp] theorem State.giveBuffer_irqLine (s : State) (t : ThreadId) (h : Byte) (b : List Byte) : (s.giveBuffer t h b).irqLine = s.irqLine := by unfold State.giveBuffer; split <;> rfl
@[simp] theorem State.giveBuffer_acquirers (s : State) (t : ThreadId) (h : Byte) (b : List Byte) : (s.giveBuffer t h b).acquirers = s.acquirers := by unfold State.giveBuffer; split <;> rfl
@[simp] theorem State.giveBuffer_cur (s : State) (t : ThreadId) (h : Byte) (b : List Byte) : (s.giveBuffer t h b).cur = s.cur := by unfold State.giveBuffer; split <;> rfl
@[simp] theorem State.giveBuffer_windows (s : State) (t : ThreadId) (h : Byte) (b : List Byte) : (s.giveBuffer t h b).windows = s.windows := by unfold State.giveBuffer; split <;> rfl
@[simp] theorem State.giveBuffer_sched (s : State) (t : ThreadId) (h : Byte) (b : List Byte) : (s.giveBuffer t h b).sched = s.sched := by unfold State.giveBuffer; split <;> rfl
@[simp] theorem State.giveBuffer_chipIn (s : State) (t : ThreadId) (h : Byte) (b : List Byte) : (s.giveBuffer t h b).chipIn = s.chipIn := by unfold State.giveBuffer; split <;> rfl
@[simp] theorem State.giveBuffer_bringupIn (s : State) (t : ThreadId) (h : Byte) (b : List Byte) : (s.giveBuffer t h b).bringupIn = s.bringupIn := by unfold State.giveBuffer; split <;> rfl
@[simp] theorem State.giveBuffer_draws (s : State) (t : ThreadId) (h : Byte) (b : List Byte) : (s.giveBuffer t h b).draws = s.draws := by unfold State.giveBuffer; split <;> rfl
@[simp] theorem State.giveBuffer_bus (s : State) (t : ThreadId) (h : Byte) (b : List Byte) : (s.giveBuffer t h b).bus = s.bus := by unfold State.giveBuffer; split <;> rfl
@[simp] theorem State.giveBuffer_results (s : State) (t : ThreadId) (h : Byte) (b : List Byte) : (s.giveBuffer t h b).results = s.results := by unfold State.giveBuffer; split <;> rfl

/-! ## The timer written and the other one -/

@[simp] theorem State.setTmr_tmr (s : State) (t : TimerId) (v : Timer) : (s.setTmr t v).tmr t = v := by
  cases t <;> rfl

theorem State.setTmr_tmr_of_ne (s : State) (t u : TimerId) (v : Timer) (h : u ≠ t) :
    (s.setTmr t v).tmr u = s.tmr u := by
  cases t <;> cases u <;> first | rfl | exact absurd rfl h

@[simp] theorem State.setFlag_tmr (s : State) (f : Flag) (t : TimerId) :
    (s.setFlag f).tmr t = s.tmr t := by
  cases t <;> rfl

/-! ## The reset event -/

@[simp] theorem State.blockReset_fault (s : State) : s.blockReset.fault = none := rfl
@[simp] theorem State.blockReset_cfg (s : State) : s.blockReset.cfg = s.cfg := rfl
@[simp] theorem State.blockReset_bufs (s : State) : s.blockReset.bufs = s.bufs := rfl
@[simp] theorem State.blockReset_phase (s : State) : s.blockReset.phase = .uninit := rfl
@[simp] theorem State.blockReset_holder (s : State) : s.blockReset.holder = none := rfl
@[simp] theorem State.blockReset_bus (s : State) : s.blockReset.bus = s.bus := rfl

end Sys2Proof.Machine
end

