-- ==== Sys2Proof/Laws/Ops.lean ====
section
/-! SUPPORT. What the shared operations do: bytes of a buffer and their canonical form, the
host-buffer table, chip answers, the first failing check, and the shape of a command. -/

namespace Sys2Proof.Machine

open Sys2Proof

/-! ## Bytes by index -/

/-- Reading after a write: the written index gives the byte written, every other one what it gave
before. -/
theorem Memory.read_write (m : Memory) (i : Nat) (b : Byte) (lo hi : Nat)
    (hm : Memory.wfBetween lo hi m = true) (j : Nat) :
    Memory.read (Memory.write m i b) j = if j = i then b else Memory.read m j := by
  induction m generalizing lo with
  | nil =>
    simp only [Memory.write]
    split <;> simp_all [Memory.read, memFill]
  | cons c r ih =>
    obtain ⟨a, v⟩ := c
    simp only [Memory.wfBetween, Bool.and_eq_true, decide_eq_true_eq] at hm
    have below : ∀ (r : Memory) (lo : Nat), Memory.wfBetween lo hi r = true → ∀ k, k < lo →
        Memory.read r k = memFill := by
      intro r
      induction r with
      | nil => intros; rfl
      | cons c r ih2 =>
        intro lo hr k hk
        obtain ⟨a', v'⟩ := c
        simp only [Memory.wfBetween, Bool.and_eq_true, decide_eq_true_eq] at hr
        have hne : k ≠ a' := by omega
        simp only [Memory.read, hne, if_false]
        exact ih2 (a' + 1) hr.2 k (by omega)
    have hr := ih (a + 1) hm.2
    simp only [Memory.write]
    by_cases h1 : i < a
    · simp only [h1, if_true]
      have hi' : Memory.read ((a, v) :: r) i = memFill :=
        below ((a, v) :: r) a (by simp [Memory.wfBetween, hm.2, hm.1.1.2, hm.1.2]) i h1
      split
      · by_cases hj : j = i
        · subst hj; simp_all
        · simp [hj]
      · simp only [Memory.read]
    · simp only [h1, if_false]
      by_cases h2 : i = a
      · subst h2
        simp only [if_true]
        have hi' : Memory.read r i = memFill := below r (i + 1) hm.2 i (by omega)
        split
        · by_cases hj : j = i
          · subst hj; simp_all
          · simp [hj, Memory.read]
        · by_cases hj : j = i <;> simp [hj, Memory.read]
      · simp only [h2, if_false, Memory.read, hr]
        by_cases hj : j = a
        · subst hj; simp [Ne.symm h2]
        · simp [hj]

/-- A write below the capacity keeps the canonical form. -/
theorem Memory.write_wfBetween (m : Memory) (i : Nat) (b : Byte) (lo hi : Nat)
    (hm : Memory.wfBetween lo hi m = true) (hlo : lo ≤ i) (hhi : i < hi) :
    Memory.wfBetween lo hi (Memory.write m i b) = true := by
  induction m generalizing lo with
  | nil =>
    simp only [Memory.write]
    split <;> simp_all [Memory.wfBetween]
  | cons c r ih =>
    obtain ⟨a, v⟩ := c
    simp only [Memory.wfBetween, Bool.and_eq_true, decide_eq_true_eq] at hm
    simp only [Memory.write]
    by_cases h1 : i < a
    · simp only [h1, if_true]
      split
      · simp [Memory.wfBetween, hm]
      · simp [Memory.wfBetween, *]
    · simp only [h1, if_false]
      by_cases h2 : i = a
      · subst h2
        simp only [if_true]
        split
        · have mono : ∀ (r : Memory), Memory.wfBetween (i + 1) hi r = true →
              Memory.wfBetween lo hi r = true := by
            intro r hr
            cases r with
            | nil => rfl
            | cons c r =>
              obtain ⟨a', v'⟩ := c
              simp only [Memory.wfBetween, Bool.and_eq_true, decide_eq_true_eq] at hr ⊢
              exact ⟨⟨⟨by omega, hr.1.1.2⟩, hr.1.2⟩, hr.2⟩
          exact mono r hm.2
        · simp [Memory.wfBetween, *]
      · simp only [h2, if_false, Memory.wfBetween, Bool.and_eq_true, decide_eq_true_eq]
        exact ⟨hm.1, ih (a + 1) hm.2 (by omega)⟩

/-- Writing a list below the capacity keeps the canonical form. -/
theorem Memory.writeList_wfBetween (bs : List Byte) (m : Memory) (i hi : Nat)
    (hm : Memory.wfBetween 0 hi m = true) (hhi : i + bs.length ≤ hi) :
    Memory.wfBetween 0 hi (Memory.writeList m i bs) = true := by
  induction bs generalizing m i with
  | nil => exact hm
  | cons b bs ih =>
    simp only [List.length_cons] at hhi
    exact ih _ _ (Memory.write_wfBetween m i b 0 hi hm (by omega) (by omega)) (by omega)

/-- Reading after writing a list: the written indexes give the bytes, every other one what it gave
before. -/
theorem Memory.read_writeList (bs : List Byte) (m : Memory) (i hi : Nat)
    (hm : Memory.wfBetween 0 hi m = true) (hhi : i + bs.length ≤ hi) (j : Nat) :
    Memory.read (Memory.writeList m i bs) j =
      if i ≤ j ∧ j < i + bs.length then bs.getD (j - i) 0 else Memory.read m j := by
  induction bs generalizing m i with
  | nil =>
    have h0 : ¬(i ≤ j ∧ j < i + ([] : List Byte).length) := by simp
    rw [if_neg h0, Memory.writeList]
  | cons b bs ih =>
    simp only [List.length_cons] at hhi
    have hw := Memory.write_wfBetween m i b 0 hi hm (by omega) (by omega)
    rw [Memory.writeList, ih _ _ hw (by omega), Memory.read_write m i b 0 hi hm]
    by_cases h1 : j = i
    · subst h1; simp
    · by_cases h2 : i + 1 ≤ j ∧ j < i + 1 + bs.length
      · have h3 : i ≤ j ∧ j < i + (bs.length + 1) := by omega
        have h4 : j - i = (j - (i + 1)) + 1 := by omega
        simp only [h2, List.length_cons, h3, if_true, h4, List.getD_cons_succ, and_self]
      · have h3 : ¬(i ≤ j ∧ j < i + (bs.length + 1)) := by omega
        rw [if_neg h2, if_neg h1, if_neg (by simpa using h3)]

/-! ## The host-buffer table -/

/-- The entry put at a key is found there, and every other key finds what it found before. -/
theorem bufGet_bufPut (m : List (Nat × Buffer)) (i j : Nat) (b : Buffer) :
    bufGet (bufPut m i b) j = if j = i then some b else bufGet m j := by
  induction m with
  | nil => simp [bufPut, bufGet]
  | cons c r ih =>
    obtain ⟨k, x⟩ := c
    simp only [bufPut]
    by_cases h1 : i < k
    · simp [h1, bufGet]
    · by_cases h2 : i = k
      · subst h2
        by_cases hj : j = i <;> simp [hj, bufGet]
      · simp only [h1, h2, if_false, bufGet, ih]
        by_cases hj : j = k
        · subst hj; simp [Ne.symm h2]
        · simp [hj]

/-- Putting a well-formed buffer keeps the table's canonical form. -/
theorem bufPut_wf (m : List (Nat × Buffer)) (i : Nat) (b : Buffer) (lo : Nat)
    (hm : bufsWfFrom lo m = true) (hlo : lo ≤ i) (hb : Memory.wf b.cap b.mem = true) :
    bufsWfFrom lo (bufPut m i b) = true := by
  induction m generalizing lo with
  | nil => simp [bufPut, bufsWfFrom, hlo, hb]
  | cons c r ih =>
    obtain ⟨k, x⟩ := c
    simp only [bufsWfFrom, Bool.and_eq_true, decide_eq_true_eq] at hm
    simp only [bufPut]
    by_cases h1 : i < k
    · simp only [h1, if_true, bufsWfFrom, Bool.and_eq_true, decide_eq_true_eq]
      exact ⟨⟨hlo, hb⟩, ⟨by omega, hm.1.2⟩, hm.2⟩
    · by_cases h2 : i = k
      · subst h2
        simp [bufsWfFrom, hlo, hb, hm.2]
      · simp only [h1, h2, if_false, bufsWfFrom, Bool.and_eq_true, decide_eq_true_eq]
        exact ⟨hm.1, ih (k + 1) hm.2 (by omega)⟩

/-- A buffer found in a well-formed table is well formed. -/
theorem bufGet_wf (m : List (Nat × Buffer)) (i lo : Nat) (b : Buffer)
    (hm : bufsWfFrom lo m = true) (h : bufGet m i = some b) : Memory.wf b.cap b.mem = true := by
  induction m generalizing lo with
  | nil => simp [bufGet] at h
  | cons c r ih =>
    obtain ⟨k, x⟩ := c
    simp only [bufsWfFrom, Bool.and_eq_true, decide_eq_true_eq] at hm
    simp only [bufGet] at h
    split at h
    · cases h; exact hm.1.2
    · exact ih (k + 1) hm.2 h

/-- The keys of two threads' handles differ, and so do those of two handles. -/
theorem bufKey_inj {t u : ThreadId} {h k : Byte} (e : bufKey t h = bufKey u k) : t = u ∧ h = k := by
  have h1 := h.isLt
  have h2 := k.isLt
  simp only [bufKey] at e
  have ht : @Eq Nat t u := by omega
  exact ⟨ht, BitVec.eq_of_toNat_eq (by rw [show t = u from ht] at e; omega)⟩

/-- What a handle names after a store: the buffer stored to keeps its capacity, every other handle
names what it named before. -/
theorem State.buffer_store (s : State) (t u : ThreadId) (h k : Byte) (bytes : List Byte) :
    (s.store t h bytes).buffer u k =
      if u = t ∧ k = h then
        (s.buffer t h).map fun b => { b with mem := Memory.writeList b.mem 0 (bytes.take b.cap) }
      else s.buffer u k := by
  unfold State.store
  cases hb : s.buffer t h with
  | none =>
    by_cases e : u = t ∧ k = h
    · obtain ⟨rfl, rfl⟩ := e; simp [hb]
    · simp [e]
  | some b =>
    have hk : h ≠ 0xFF := by
      intro e; simp [State.buffer, e] at hb
    simp only [State.buffer, bufGet_bufPut, Option.map_some]
    by_cases e : u = t ∧ k = h
    · obtain ⟨rfl, rfl⟩ := e; simpa using hk
    · have hne : bufKey u k ≠ bufKey t h := fun e' => e (bufKey_inj e')
      simp [e, hne]

/-- A store keeps every capacity. -/
theorem State.cap_store (s : State) (t u : ThreadId) (h k : Byte) (bytes : List Byte) :
    (s.store t h bytes).cap u k = s.cap u k := by
  simp only [State.cap, State.buffer_store s]
  split
  · rename_i e; obtain ⟨rfl, rfl⟩ := e
    cases s.buffer u k <;> rfl
  · rfl

/-- A host thread that gives one of its buffers changes no other thread's. -/
theorem State.buffer_giveBuffer (s : State) {t u : ThreadId} (h : Byte) (bytes : List Byte)
    (hu : u ≠ t) (k : Byte) : (s.giveBuffer t h bytes).buffer u k = s.buffer u k := by
  unfold State.giveBuffer
  split
  · rfl
  · have hne : bufKey u k ≠ bufKey t h := fun e => hu (bufKey_inj e).1
    simp [State.buffer, bufGet_bufPut, hne]

/-- A store writes the buffer table and nothing else. -/
theorem State.store_only (s : State) (t : ThreadId) (h : Byte) (bytes : List Byte) :
    ∃ b, s.store t h bytes = { s with bufs := b } := by
  unfold State.store
  split <;> exact ⟨_, rfl⟩

/-- What a byte of a buffer reads after a store that fits: the stored indexes give the bytes, every
other byte of every buffer what it gave before. -/
theorem State.bufByte_store (s : State) (hs : bufsWf s.bufs = true) (t u : ThreadId) (h k : Byte)
    (bytes : List Byte) (hc : bytes.length ≤ s.cap t h) (hb : s.buffer t h ≠ none) (j : Nat) :
    (s.store t h bytes).bufByte u k j =
      if u = t ∧ k = h ∧ j < bytes.length then bytes.getD j 0 else s.bufByte u k j := by
  simp only [State.bufByte, State.buffer_store s]
  by_cases e : u = t ∧ k = h
  · obtain ⟨rfl, rfl⟩ := e
    cases hbb : s.buffer u k with
    | none => exact absurd hbb hb
    | some b =>
      have hwf : Memory.wf b.cap b.mem = true := by
        simp only [State.buffer] at hbb
        split at hbb
        · cases hbb
        · exact bufGet_wf _ _ 0 b hs hbb
      have hcap : bytes.length ≤ b.cap := by simpa [State.cap, hbb] using hc
      simp only [and_self, if_true, Option.map_some, Option.getD_some, true_and]
      rw [List.take_of_length_le hcap,
        Memory.read_writeList bytes b.mem 0 b.cap hwf (by omega) j]
      simp
  · rw [if_neg e, if_neg fun h => e ⟨h.1, h.2.1⟩]

/-- A store keeps the canonical form. -/
theorem State.store_wf (s : State) (hs : bufsWf s.bufs = true) (t : ThreadId) (h : Byte)
    (bytes : List Byte) : bufsWf (s.store t h bytes).bufs = true := by
  unfold State.store
  cases hb : s.buffer t h with
  | none => exact hs
  | some b =>
    have hget : bufGet s.bufs (bufKey t h) = some b := by
      simp only [State.buffer] at hb; split at hb
      · cases hb
      · exact hb
    exact bufPut_wf _ _ _ 0 hs (by omega)
      (Memory.writeList_wfBetween _ b.mem 0 b.cap (bufGet_wf _ _ 0 b hs hget) (by simp))

/-- A buffer given by the host keeps the canonical form. -/
theorem State.giveBuffer_wf (s : State) (hs : bufsWf s.bufs = true) (t : ThreadId) (h : Byte)
    (bytes : List Byte) : bufsWf (s.giveBuffer t h bytes).bufs = true := by
  unfold State.giveBuffer
  split
  · exact hs
  · exact bufPut_wf _ _ _ 0 hs (by omega)
      (Memory.writeList_wfBetween bytes [] 0 bytes.length rfl (by omega))

/-- The reset state's table has the canonical form. -/
theorem reset_bufsWf : bufsWf State.reset.bufs = true := rfl

/-! ## Chip answers -/

/-- The chip answers as many bytes as the frame receives. -/
@[simp] theorem State.answers_length (s : State) (n : Nat) : (s.answers n).length = n := by
  simp [State.answers]; omega

/-- Bytes the chip has ready are what it answers. -/
theorem State.answers_of_ready (s : State) (n : Nat) (h : n ≤ s.chipIn.length) :
    s.answers n = s.chipIn.take n := by
  simp [State.answers, Nat.sub_eq_zero_of_le h]

@[simp] theorem State.freeBytes_length (s : State) (n : Nat) : (s.freeBytes n).length = n := by
  simp [State.freeBytes]

@[simp] theorem State.skip_zero (s : State) : s.skip 0 = s := rfl

@[simp] theorem State.bufBytes_length (s : State) (t : ThreadId) (h : Byte) (n : Nat) :
    (s.bufBytes t h n).length = n := by
  simp [State.bufBytes]

/-- A sequence sends as many bytes as its command names. -/
@[simp] theorem State.bytesOrFree_length (s : State) (t : ThreadId) (h : Byte) (n : Nat) :
    (s.bytesOrFree t h n).length = n := by
  simp [State.bytesOrFree]; omega

/-- Bytes inside the capacity are the buffer's. -/
theorem State.bytesOrFree_of_fits (s : State) (t : ThreadId) (h : Byte) (n : Nat)
    (hn : n ≤ s.cap t h) : s.bytesOrFree t h n = s.bufBytes t h n := by
  simp [State.bytesOrFree, Nat.min_eq_left hn, Nat.sub_eq_zero_of_le hn, State.freeBytes]

/-! ## Checks and commands -/

/-- No check fails exactly when none of the list does. -/
theorem firstFail_eq_none (l : List Check) : firstFail l = none ↔ ∀ c ∈ l, c.1 = false := by
  induction l with
  | nil => simp [firstFail]
  | cons c r ih =>
    obtain ⟨b, x⟩ := c
    cases b <;> simp [firstFail, ih]

/-- The check reported is one of the list that fails, and none before it does. -/
theorem firstFail_eq_some (l : List Check) (x : FatalCode) :
    firstFail l = some x ↔ ∃ pre post, l = pre ++ (true, x) :: post ∧ ∀ c ∈ pre, c.1 = false := by
  induction l with
  | nil => simp [firstFail]
  | cons c r ih =>
    obtain ⟨b, y⟩ := c
    cases b with
    | true =>
      simp only [firstFail, if_true, Option.some.injEq]
      constructor
      · rintro rfl; exact ⟨[], r, rfl, by simp⟩
      · rintro ⟨pre, post, h, hp⟩
        cases pre with
        | nil => simp at h; exact h.1
        | cons p pre =>
          simp only [List.cons_append, List.cons.injEq] at h
          have := hp p (by simp)
          rw [← h.1] at this; cases this
    | false =>
      simp only [firstFail, Bool.false_eq_true, if_false, ih]
      constructor
      · rintro ⟨pre, post, rfl, hp⟩
        exact ⟨(false, y) :: pre, post, rfl, by simpa using hp⟩
      · rintro ⟨pre, post, h, hp⟩
        cases pre with
        | nil => simp at h
        | cons p pre =>
          simp only [List.cons_append, List.cons.injEq] at h
          exact ⟨pre, post, h.2, fun c hc => hp c (by simp [hc])⟩

@[simp] theorem firstFail_nil : firstFail [] = none := rfl
@[simp] theorem firstFail_cons (b : Bool) (c : FatalCode) (r : List Check) :
    firstFail ((b, c) :: r) = if b then some c else firstFail r := rfl

@[simp] theorem Prog.go_andThen {α β : Type} (a : α) (s : State) (k : α → State → Prog β) :
    (Prog.go a s).andThen k = k a s := rfl
@[simp] theorem Prog.stop_andThen {α β : Type} (s : State) (k : α → State → Prog β) :
    (Prog.stop s).andThen k = .stop s := rfl
@[simp] theorem Prog.void_andThen {α β : Type} (k : α → State → Prog β) :
    (Prog.void : Prog α).andThen k = .void := rfl
@[simp] theorem Prog.gap_andThen {α β : Type} (s : State) (next : State → Prog α)
    (k : α → State → Prog β) :
    (Prog.gap s next).andThen k = .gap s fun u => (next u).andThen k := rfl
@[simp] theorem Run.go_close (r : List Byte) (m s : State) :
    (Run.go r m).close s = m.reply s.cur r := rfl
@[simp] theorem Run.stop_close (m s : State) : (Run.stop m).close s = m := rfl
@[simp] theorem Run.void_close (s : State) : (Run.void).close s = s := rfl

/-- Running in two parts. -/
theorem Prog.andThen_assoc {α β γ : Type} (p : Prog α) (k : α → State → Prog β)
    (l : β → State → Prog γ) :
    (p.andThen k).andThen l = p.andThen fun a s => (k a s).andThen l := by
  induction p with
  | go | stop | void => rfl
  | gap s next ih => exact congrArg (Prog.gap s) (funext ih)

/-- Everything a command can answer: a halted block has no step; a failed check writes `S.FAULT`
and nothing else; otherwise the effect's state. -/
theorem command_cases (s : State) (check : Option FatalCode) (effect : Run (List Byte)) :
    (∃ c, s.fault = some c ∧ command s check effect = .fault (.halted c)) ∨
    (∃ c, s.fault = none ∧ check = some c ∧ command s check effect = .next (s.takeFault c)) ∨
    (s.fault = none ∧ check = none ∧ command s check effect = .next (effect.close s)) := by
  unfold command
  cases s.fault with
  | some c => exact .inl ⟨c, rfl, rfl⟩
  | none =>
    cases check with
    | some c => exact .inr (.inl ⟨c, rfl, rfl, rfl⟩)
    | none => exact .inr (.inr ⟨rfl, rfl, rfl⟩)

end Sys2Proof.Machine
end

