-- ==== Sys2Proof/Laws/Agents.lean ====
section
/-! SUPPORT. What the agents and a bus frame leave alone: `Spares` and `Quiet`, with one lemma for
each shared operation. -/

namespace Sys2Proof.Machine

open Sys2Proof

/-- What agents, bus frames and, beside a command that holds the lock, other threads leave alone:
parameters, phase, low power, mode, technology, context, lock, waiter, issuing thread, schedule and
fault; a timer's INIT, PSC and ARR; the capacities of the issuing thread's buffers. They keep a torn
timer idle, the causes inside their width, every flag that is set and the table's form, they only add
frames and results, and they put nothing into the coming windows. A thread blocked in ACQUIRE stays
blocked or gets a result (spec/45_controller.md R302); a running timer runs, or its expiry is
pending, or its flag is set, and a pending expiry stays pending, or its flag is set
(spec/42_events_timers.md R202, R203). -/
structure Spares (s s' : State) : Prop where
  cfg : s'.cfg = s.cfg
  phase : s'.phase = s.phase
  lp : s'.lp = s.lp
  mode : s'.mode = s.mode
  tech : s'.tech = s.tech
  ctx : s'.ctx = s.ctx
  holder : s'.holder = s.holder
  waiter : s'.waiter = s.waiter
  cur : s'.cur = s.cur
  sched : s'.sched = s.sched
  bringupIn : s'.bringupIn = s.bringupIn
  fault : s'.fault = s.fault
  init (t : TimerId) : (s'.tmr t).init = (s.tmr t).init
  psc (t : TimerId) : (s'.tmr t).psc = (s.tmr t).psc
  arr (t : TimerId) : (s'.tmr t).arr = (s.tmr t).arr
  sound (t : TimerId) : (s.tmr t).sound → (s'.tmr t).sound
  running (t : TimerId) : (s.tmr t).run = true →
    (s'.tmr t).run = true ∨ (s'.tmr t).pend = true ∨ s'.evf.getLsbD t.flag.pos = true
  pending (t : TimerId) : (s.tmr t).pend = true →
    (s'.tmr t).pend = true ∨ s'.evf.getLsbD t.flag.pos = true
  causes : s.irqAcc < 2 ^ (8 * s.cfg.nIrqRegs) → s'.irqAcc < 2 ^ (8 * s.cfg.nIrqRegs)
  flags (k : Nat) : s.evf.getLsbD k = true → s'.evf.getLsbD k = true
  wf : bufsWf s.bufs = true → bufsWf s'.bufs = true
  own (h : Byte) : s'.cap s.cur h = s.cap s.cur h
  bus : ∃ l, s'.bus = s.bus ++ l
  results : ∃ l, s'.results = s.results ++ l ∧
    ∀ t ∈ s.acquirers, t ∈ s'.acquirers ∨ ∃ r ∈ l, r.thread = t
  wins : ∀ w ∈ s'.windows, w ∈ s.windows

/-- What agents and bus frames leave alone: that, and every buffer's capacity. -/
structure Quiet (s s' : State) : Prop extends Spares s s' where
  caps (t : ThreadId) (h : Byte) : s'.cap t h = s.cap t h

theorem Spares.refl (s : State) : Spares s s where
  cfg := rfl
  phase := rfl
  lp := rfl
  mode := rfl
  tech := rfl
  ctx := rfl
  holder := rfl
  waiter := rfl
  cur := rfl
  sched := rfl
  bringupIn := rfl
  fault := rfl
  init _ := rfl
  psc _ := rfl
  arr _ := rfl
  sound _ h := h
  running _ h := .inl h
  pending _ h := .inl h
  causes h := h
  flags _ h := h
  wf h := h
  own _ := rfl
  bus := ⟨[], by simp⟩
  results := ⟨[], by simp, fun _ h => .inl h⟩
  wins _ h := h

theorem Spares.trans {a b c : State} (h : Spares a b) (k : Spares b c) : Spares a c where
  cfg := k.cfg.trans h.cfg
  phase := k.phase.trans h.phase
  lp := k.lp.trans h.lp
  mode := k.mode.trans h.mode
  tech := k.tech.trans h.tech
  ctx := k.ctx.trans h.ctx
  holder := k.holder.trans h.holder
  waiter := k.waiter.trans h.waiter
  cur := k.cur.trans h.cur
  sched := k.sched.trans h.sched
  bringupIn := k.bringupIn.trans h.bringupIn
  fault := k.fault.trans h.fault
  init t := (k.init t).trans (h.init t)
  psc t := (k.psc t).trans (h.psc t)
  arr t := (k.arr t).trans (h.arr t)
  sound t x := k.sound t (h.sound t x)
  running t x := by
    rcases h.running t x with y | y | y
    · exact k.running t y
    · exact .inr (k.pending t y)
    · exact .inr (.inr (k.flags _ y))
  pending t x := (h.pending t x).elim (k.pending t) fun y => .inr (k.flags _ y)
  causes x := by have := k.causes; rw [h.cfg] at this; exact this (h.causes x)
  flags n x := k.flags n (h.flags n x)
  wf x := k.wf (h.wf x)
  own u := by have := k.own u; rw [h.cur] at this; exact this.trans (h.own u)
  bus := by
    obtain ⟨l, hl⟩ := h.bus; obtain ⟨m, hm⟩ := k.bus
    exact ⟨l ++ m, by rw [hm, hl, List.append_assoc]⟩
  results := by
    obtain ⟨l, hl, x⟩ := h.results; obtain ⟨m, hm, y⟩ := k.results
    refine ⟨l ++ m, by rw [hm, hl, List.append_assoc], fun t ht => ?_⟩
    rcases x t ht with z | ⟨r, hr, e⟩
    · exact (y t z).imp id fun ⟨r, hr, e⟩ => ⟨r, List.mem_append_right _ hr, e⟩
    · exact .inr ⟨r, List.mem_append_left _ hr, e⟩
  wins w x := h.wins w (k.wins w x)

theorem Quiet.refl (s : State) : Quiet s s := { Spares.refl s with caps := fun _ _ => rfl }

theorem Quiet.trans {a b c : State} (h : Quiet a b) (k : Quiet b c) : Quiet a c :=
  { h.toSpares.trans k.toSpares with caps := fun t u => (k.caps t u).trans (h.caps t u) }

/-- A change of fields that `Quiet` does not speak of. -/
theorem Quiet.of_fields {s s' : State} (h0 : s'.cfg = s.cfg) (h1 : s'.phase = s.phase)
    (h2 : s'.lp = s.lp) (h3 : s'.mode = s.mode) (h4 : s'.tech = s.tech) (h5 : s'.ctx = s.ctx)
    (h6 : s'.holder = s.holder) (h7 : s'.waiter = s.waiter) (h8 : s'.cur = s.cur)
    (h9 : s'.sched = s.sched) (h10 : s'.bringupIn = s.bringupIn) (h11 : s'.fault = s.fault)
    (h12 : s'.fwt = s.fwt) (h13 : s'.btx = s.btx) (h14 : s'.irqAcc = s.irqAcc)
    (h15 : s'.bufs = s.bufs) (h16 : ∃ l, s'.bus = s.bus ++ l)
    (h17 : ∃ l, s'.results = s.results ++ l ∧
      ∀ t ∈ s.acquirers, t ∈ s'.acquirers ∨ ∃ r ∈ l, r.thread = t)
    (h18 : ∀ k, s.evf.getLsbD k = true → s'.evf.getLsbD k = true := by intro _ h; exact h)
    (h19 : ∀ w ∈ s'.windows, w ∈ s.windows := by intro _ h; exact h) :
    Quiet s s' where
  cfg := h0
  phase := h1
  lp := h2
  mode := h3
  tech := h4
  ctx := h5
  holder := h6
  waiter := h7
  cur := h8
  sched := h9
  bringupIn := h10
  fault := h11
  init t := by cases t <;> simp [State.tmr, h12, h13]
  psc t := by cases t <;> simp [State.tmr, h12, h13]
  arr t := by cases t <;> simp [State.tmr, h12, h13]
  sound t x := by cases t <;> simpa [State.tmr, h12, h13] using x
  running t x := .inl (by cases t <;> simpa [State.tmr, h12, h13] using x)
  pending t x := .inl (by cases t <;> simpa [State.tmr, h12, h13] using x)
  causes x := by rw [h14]; exact x
  flags := h18
  wf x := by rw [h15]; exact x
  own u := by simp only [State.cap, State.buffer, h15]
  caps t u := by simp only [State.cap, State.buffer, h15]
  bus := h16
  results := h17
  wins := h19

theorem quiet_frame (s : State) (tx : List Byte) (n : Nat) : Quiet s (s.frame tx n) :=
  Quiet.of_fields rfl rfl rfl rfl rfl rfl rfl rfl rfl rfl rfl rfl rfl rfl rfl rfl
    ⟨_, rfl⟩ ⟨[], by simp, fun _ h => .inl h⟩

theorem quiet_reply (s : State) (t : ThreadId) (r : List Byte) : Quiet s (s.reply t r) :=
  Quiet.of_fields rfl rfl rfl rfl rfl rfl rfl rfl rfl rfl rfl rfl rfl rfl rfl rfl
    ⟨[], by simp⟩ ⟨_, rfl, fun _ h => .inl h⟩

/-- Setting a flag keeps every flag that is set (spec/42_events_timers.md R183). -/
theorem setFlag_keeps (s : State) (f : Flag) (k : Nat) (h : s.evf.getLsbD k = true) :
    (s.setFlag f).evf.getLsbD k = true := by
  simp [State.setFlag, h]

theorem quiet_setFlag (s : State) (f : Flag) : Quiet s (s.setFlag f) :=
  Quiet.of_fields rfl rfl rfl rfl rfl rfl rfl rfl rfl rfl rfl rfl rfl rfl rfl rfl
    ⟨[], by simp⟩ ⟨[], by simp, fun _ h => .inl h⟩ (setFlag_keeps s f)

theorem quiet_skip (s : State) (n : Nat) : Quiet s (s.skip n) :=
  Quiet.of_fields rfl rfl rfl rfl rfl rfl rfl rfl rfl rfl rfl rfl rfl rfl rfl rfl
    ⟨[], by simp⟩ ⟨[], by simp, fun _ h => .inl h⟩

theorem quiet_store (s : State) (t : ThreadId) (h : Byte) (bytes : List Byte) :
    Quiet s (s.store t h bytes) where
  cfg := by simp
  phase := by simp
  lp := by simp
  mode := by simp
  tech := by simp
  ctx := by simp
  holder := by simp
  waiter := by simp
  cur := by simp
  sched := by simp
  bringupIn := by simp
  fault := by simp
  init u := by cases u <;> simp [State.tmr]
  psc u := by cases u <;> simp [State.tmr]
  arr u := by cases u <;> simp [State.tmr]
  sound u x := by cases u <;> simpa [State.tmr] using x
  running u x := .inl (by cases u <;> simpa [State.tmr] using x)
  pending u x := .inl (by cases u <;> simpa [State.tmr] using x)
  causes x := by simpa using x
  flags k x := by simpa using x
  wf x := State.store_wf s x t h bytes
  own k := State.cap_store s t s.cur h k bytes
  caps u k := State.cap_store s t u h k bytes
  bus := ⟨[], by simp⟩
  results := ⟨[], by simp, fun _ h => .inl (by simpa using h)⟩
  wins w x := by simpa using x

/-- A timer changed in RUN and PEND and the flag word, a torn timer kept idle: it expires, or its
flag is delivered. -/
theorem quiet_setTmr (s : State) (t : TimerId) (v : Timer) (e : BitVec 5)
    (h1 : v.init = (s.tmr t).init) (h2 : v.psc = (s.tmr t).psc) (h3 : v.arr = (s.tmr t).arr)
    (h4 : (s.tmr t).sound → v.sound)
    (h5 : ∀ k, s.evf.getLsbD k = true → e.getLsbD k = true)
    (h6 : (s.tmr t).run = true → v.run = true ∨ v.pend = true ∨ e.getLsbD t.flag.pos = true)
    (h7 : (s.tmr t).pend = true → v.pend = true ∨ e.getLsbD t.flag.pos = true) :
    Quiet s { s.setTmr t v with evf := e } where
  cfg := by simp
  phase := by simp
  lp := by simp
  mode := by simp
  tech := by simp
  ctx := by simp
  holder := by simp
  waiter := by simp
  cur := by simp
  sched := by simp
  bringupIn := by simp
  fault := by simp
  init u := by cases t <;> cases u <;> first | rfl | exact h1
  psc u := by cases t <;> cases u <;> first | rfl | exact h2
  arr u := by cases t <;> cases u <;> first | rfl | exact h3
  sound u x := by cases t <;> cases u <;> first | exact x | exact h4 x
  running u x := by cases t <;> cases u <;> first | exact h6 x | exact .inl x
  pending u x := by cases t <;> cases u <;> first | exact h7 x | exact .inl x
  causes x := by simpa using x
  flags := h5
  wf x := by simpa using x
  own k := by simp [State.cap, State.buffer]
  caps u k := by simp [State.cap, State.buffer]
  bus := ⟨[], by simp⟩
  results := ⟨[], by simp, fun _ h => .inl (by simpa using h)⟩
  wins w x := by simpa using x

/-! ## Interrupt agents -/

/-- The cause word of `n` status bytes has `8n` bits (spec/42_events_timers.md R186). -/
theorem irqWord_lt (l : List Byte) : irqWord l < 2 ^ (8 * l.length) := by
  induction l with
  | nil => simp [irqWord]
  | cons b r ih =>
    have hb := b.isLt
    have e : 2 ^ (8 * (r.length + 1)) = 2 ^ (8 * r.length) * 256 := by
      rw [Nat.mul_add, Nat.pow_add]
    simp only [irqWord, List.length_cons, e]
    omega

theorem quiet_drainStep (s : State) : Quiet s s.drainStep := by
  unfold State.drainStep
  split
  · exact Quiet.refl s
  · split
    · exact
        { quiet_frame s (drainFrame s.cfg) s.cfg.nIrqRegs with
          causes := fun x => Nat.or_lt_two_pow x (by
            have := irqWord_lt (s.answers s.cfg.nIrqRegs)
            rwa [State.answers_length] at this)
          sound := fun t x => by cases t <;> exact x
          running := fun t x => .inl (by cases t <;> exact x)
          pending := fun t x => .inl (by cases t <;> exact x)
          init := fun t => by cases t <;> rfl
          psc := fun t => by cases t <;> rfl
          arr := fun t => by cases t <;> rfl
          flags := fun _ x => x
          wf := fun x => x
          own := fun _ => rfl
          caps := fun _ _ => rfl
          bus := ⟨_, rfl⟩
          results := ⟨[], by simp, fun _ h => .inl h⟩
          wins := fun _ x => x }
    · exact Quiet.of_fields rfl rfl rfl rfl rfl rfl rfl rfl rfl rfl rfl rfl rfl rfl rfl rfl
        ⟨[], by simp⟩ ⟨[], by simp, fun _ h => .inl h⟩ (setFlag_keeps s .irq)

theorem quiet_expire (s : State) (t : TimerId) : Quiet s (s.expire t) := by
  unfold State.expire
  split
  · rename_i hr
    have h := quiet_setTmr s t (s.tmr t).expired s.evf rfl rfl rfl
      (fun x hi => by simp [(x hi).1] at hr) (fun _ h => h) (fun _ => .inr (.inl rfl))
      fun _ => .inl rfl
    cases t <;> exact h
  · exact Quiet.refl s

theorem quiet_deliver (s : State) (t : TimerId) : Quiet s (s.deliver t) := by
  unfold State.deliver
  split
  · have hf : (s.evf ||| t.flag.bit).getLsbD t.flag.pos = true := by
      cases t <;> simp [TimerId.flag, Flag.bit, Flag.pos]
    have h := quiet_setTmr s t { s.tmr t with pend := false } (s.evf ||| t.flag.bit) rfl rfl rfl
      (fun x hi => ⟨(x hi).1, rfl⟩) (fun k h => by simp [h]) (fun h => .inl h) fun _ => .inr hf
    cases t <;> exact h
  · exact Quiet.refl s

theorem quiet_acquireTimeout (s : State) (t : ThreadId) : Quiet s (s.acquireTimeout t) := by
  unfold State.acquireTimeout
  split
  · refine Quiet.of_fields rfl rfl rfl rfl rfl rfl rfl rfl rfl rfl rfl rfl rfl rfl rfl rfl
      ⟨[], by simp⟩ ⟨_, rfl, fun u hu => ?_⟩
    by_cases e : u = t
    · exact .inr ⟨_, List.mem_singleton.2 rfl, e.symm⟩
    · exact .inl (List.mem_filter.2 ⟨hu, by simpa using e⟩)
  · exact Quiet.refl s

/-- A step of an agent is quiet. -/
theorem quiet_agentStep (a : AgentStep) (s : State) : Quiet s (agentStep a s) := by
  unfold agentStep
  split
  · exact Quiet.refl s
  · cases a with
    | line level =>
      exact Quiet.of_fields rfl rfl rfl rfl rfl rfl rfl rfl rfl rfl rfl rfl rfl rfl rfl rfl
        ⟨[], by simp⟩ ⟨[], by simp, fun _ h => .inl h⟩
    | drainEnter =>
      dsimp only
      split
      · exact Quiet.of_fields rfl rfl rfl rfl rfl rfl rfl rfl rfl rfl rfl rfl rfl rfl rfl rfl
          ⟨[], by simp⟩ ⟨[], by simp, fun _ h => .inl h⟩
      · exact Quiet.refl s
    | drainStep => exact quiet_drainStep s
    | expire t => exact quiet_expire s t
    | deliver t => exact quiet_deliver s t
    | abort => exact quiet_setFlag s .abort
    | trxIn => exact quiet_setFlag s .trxRx
    | acquireTimeout t => exact quiet_acquireTimeout s t

/-- A step of an agent between two frames is quiet. -/
theorem quiet_windowAgent (a : AgentStep) (s : State) : Quiet s (windowAgent a s) := by
  unfold windowAgent
  split
  · exact Quiet.refl s
  · exact quiet_agentStep a s

/-- Between the frames of a command of an initialised block an agent steps as it does elsewhere. -/
theorem windowAgent_ready (a : AgentStep) {s : State} (h : s.phase = .ready) :
    windowAgent a s = agentStep a s := by
  simp [windowAgent, h]

/-! ## Codec buffers -/

/-- The encoder's frame has a byte for SOF, four for each data byte and one for EOF
(spec/44_iso15693_codec.md R265). -/
theorem encodeFrame_length (cfg : Params) (data : List Byte) :
    (encodeFrame cfg data).length = 4 * data.length + 2 := by
  have h : ∀ l : List Byte, (l.flatMap (symbols cfg)).length = 4 * l.length := by
    intro l
    induction l with
    | nil => rfl
    | cons x r ih => simp [List.flatMap_cons, ih, symbols]; omega
  simp [encodeFrame, h]

@[simp] theorem packBits_length (bits : List Bool) (free : List Byte) :
    (packBits bits free).length = free.length := by
  simp [packBits]

theorem quiet_decodeInto (raw : List Byte) (ibits : Nat) (bout : Byte) (t : ThreadId) (s : State) :
    Quiet s (decodeInto raw ibits bout t s).2 :=
  (quiet_skip s (s.cap t bout)).trans
    (quiet_store _ t bout _)

/-- The encoder's store fits where its checks passed. -/
theorem encode_fits (bin : Byte) (n : BitVec 32) (bout : Byte) (t : ThreadId) (s : State)
    (h : firstFail (encodeChecks bin n bout t s) = none) :
    (encodeFrame s.cfg (s.bufBytes t bin (n.toNat / 8))).length ≤ s.cap t bout := by
  rw [firstFail_eq_none] at h
  have h1 := h (decide (n.toNat % 8 ≠ 0), .encodeLength) (by simp [encodeChecks, encodeSizeChecks])
  have h2 := h (decide (s.cap t bout < n.toNat / 2 + 2), .encodeCapacity)
    (by simp [encodeChecks, encodeSizeChecks])
  simp only [decide_eq_false_iff_not] at h1 h2
  rw [encodeFrame_length, State.bufBytes_length]
  omega

end Sys2Proof.Machine
end

