-- ==== Sys2Proof/Laws/Decode.lean ====
section
/-! SUPPORT. The multi-byte fields of a record (spec/30_encoding.md R100): a field from its bytes,
and the bytes of a field. -/

namespace Sys2Proof

/-- Bit `k` of a 16-bit field is bit `k % 8` of its byte `k / 8`. -/
theorem le16_getLsbD (b0 b1 : Byte) (k : Nat) :
    (le16 b0 b1).getLsbD k = if k < 8 then b0.getLsbD k else b1.getLsbD (k - 8) := by
  have := BitVec.getLsbD_append (x := b1) (y := b0) (i := k)
  simpa [le16] using this

/-- Bit `k` of a 32-bit field is bit `k % 8` of its byte `k / 8`. -/
theorem le32_getLsbD (b0 b1 b2 b3 : Byte) (k : Nat) :
    (le32 b0 b1 b2 b3).getLsbD k =
      if k < 8 then b0.getLsbD k else if k < 16 then b1.getLsbD (k - 8)
      else if k < 24 then b2.getLsbD (k - 16) else b3.getLsbD (k - 24) := by
  have h1 := BitVec.getLsbD_append (x := b3 ++ b2 ++ b1) (y := b0) (i := k)
  have h2 := BitVec.getLsbD_append (x := b3 ++ b2) (y := b1) (i := k - 8)
  have h3 := BitVec.getLsbD_append (x := b3) (y := b2) (i := k - 8 - 8)
  have e : (le32 b0 b1 b2 b3).getLsbD k = (b3 ++ b2 ++ b1 ++ b0).getLsbD k := rfl
  rw [e, h1, h2, h3]
  by_cases c1 : k < 8
  · simp [c1]
  · by_cases c2 : k < 16
    · have : k - 8 < 8 := by omega
      simp [c1, c2, this]
    · have n2 : ¬ k - 8 < 8 := by omega
      by_cases c3 : k < 24
      · have : k - 8 - 8 < 8 := by omega
        have e2 : k - 8 - 8 = k - 16 := by omega
        simp only [c1, n2, this, c2, c3, if_true, if_false]
        rw [e2]
      · have n3 : ¬ k - 8 - 8 < 8 := by omega
        have e3 : k - 8 - 8 - 8 = k - 24 := by omega
        simp only [c1, n2, n3, c2, c3, if_false]
        rw [e3]

theorem byteAt_getLsbD {w : Nat} (v : BitVec w) (k i : Nat) (h : i < 8) :
    (byteAt v k).getLsbD i = v.getLsbD (8 * k + i) := by
  simp [byteAt, h]

@[simp] theorem le16_byteAt (v : BitVec 16) : le16 (byteAt v 0) (byteAt v 1) = v := by
  refine BitVec.eq_of_getLsbD_eq fun k hk => ?_
  rw [le16_getLsbD]
  split
  · rw [byteAt_getLsbD _ _ _ (by omega)]; congr 1; omega
  · rw [byteAt_getLsbD _ _ _ (by omega)]; congr 1; omega

@[simp] theorem le32_byteAt (v : BitVec 32) :
    le32 (byteAt v 0) (byteAt v 1) (byteAt v 2) (byteAt v 3) = v := by
  refine BitVec.eq_of_getLsbD_eq fun k hk => ?_
  rw [le32_getLsbD]
  repeat' split
  all_goals (rw [byteAt_getLsbD _ _ _ (by omega)]; congr 1; omega)

@[simp] theorem bytes16_le16 (b0 b1 : Byte) : bytes16 (le16 b0 b1) = [b0, b1] := by
  have h0 : byteAt (le16 b0 b1) 0 = b0 := BitVec.eq_of_getLsbD_eq fun k hk => by
    rw [byteAt_getLsbD _ _ _ hk, le16_getLsbD, if_pos (by omega)]; congr 1; simp
  have h1 : byteAt (le16 b0 b1) 1 = b1 := BitVec.eq_of_getLsbD_eq fun k hk => by
    rw [byteAt_getLsbD _ _ _ hk, le16_getLsbD, if_neg (by omega)]; congr 1; simp
  simp [bytes16, h0, h1]

@[simp] theorem bytes32_le32 (b0 b1 b2 b3 : Byte) :
    bytes32 (le32 b0 b1 b2 b3) = [b0, b1, b2, b3] := by
  have h0 : byteAt (le32 b0 b1 b2 b3) 0 = b0 := BitVec.eq_of_getLsbD_eq fun k hk => by
    rw [byteAt_getLsbD _ _ _ hk, le32_getLsbD, if_pos (by omega)]; congr 1; simp
  have h1 : byteAt (le32 b0 b1 b2 b3) 1 = b1 := BitVec.eq_of_getLsbD_eq fun k hk => by
    rw [byteAt_getLsbD _ _ _ hk, le32_getLsbD, if_neg (by omega), if_pos (by omega)]
    congr 1; omega
  have h2 : byteAt (le32 b0 b1 b2 b3) 2 = b2 := BitVec.eq_of_getLsbD_eq fun k hk => by
    rw [byteAt_getLsbD _ _ _ hk, le32_getLsbD, if_neg (by omega), if_neg (by omega),
      if_pos (by omega)]
    congr 1; omega
  have h3 : byteAt (le32 b0 b1 b2 b3) 3 = b3 := BitVec.eq_of_getLsbD_eq fun k hk => by
    rw [byteAt_getLsbD _ _ _ hk, le32_getLsbD, if_neg (by omega), if_neg (by omega),
      if_neg (by omega)]
    congr 1; omega
  simp [bytes32, h0, h1, h2, h3]

@[simp] theorem bytes16_length (v : BitVec 16) : (bytes16 v).length = 2 := rfl
@[simp] theorem bytes32_length (v : BitVec 32) : (bytes32 v).length = 4 := rfl

end Sys2Proof
end

