-- ==== Sys2Proof/Laws/Run.lean ====
section
/-! SUPPORT. What the frames of a command can do, whatever stands between them: `Prog.Calm`, and one
lemma for each bus operation, for a driver command, for a sequence and for the common transmit and
receive. -/

namespace Sys2Proof.Machine

open Sys2Proof

/-! ## Parts of a command -/

/-- What a command of thread `t` relies on between its frames: the other agents leave the phase and
the capacities of its thread's buffers. -/
structure Rely (t : ThreadId) (s s' : State) : Prop where
  phase : s'.phase = s.phase
  caps (h : Byte) : s'.cap t h = s.cap t h

theorem Rely.refl (t : ThreadId) (s : State) : Rely t s s := ⟨rfl, fun _ => rfl⟩

theorem Rely.trans {t : ThreadId} {a b c : State} (h : Rely t a b) (k : Rely t b c) : Rely t a c :=
  ⟨k.phase.trans h.phase, fun u => (k.caps u).trans (h.caps u)⟩

theorem Quiet.rely {s m : State} (h : Quiet s m) (t : ThreadId) : Rely t s m := ⟨h.phase, h.caps t⟩

/-- A part of a command of thread `t`, begun in the state given: up to each place where other agents
may step it is quiet, and goes on so in every state that leaves what it relies on; it ends, after
quiet steps, as `F` says. It never stops, so that no check of it fails
(spec/60_exceptions.md R326), and it has a run, unless `V` holds. -/
def Prog.Calm {α : Type} (t : ThreadId) (V : Prop) (F : α → State → State → Prop) :
    Prog α → State → Prop
  | .go a m, s => ∃ k, Quiet s k ∧ F a k m
  | .stop _, _ => False
  | .void, _ => V
  | .gap m next, s => Quiet s m ∧ ∀ u, Rely t m u → (next u).Calm t V F u

/-- A calm part that has a run, ends with a value of which `A` holds, and writes nothing more. -/
abbrev Prog.Gives {α : Type} (t : ThreadId) (A : α → Prop) (p : Prog α) (s : State) : Prop :=
  p.Calm t False (fun a k m => m = k ∧ A a) s

/-- A calm part that ends with any value. -/
abbrev Prog.Runs {α : Type} (t : ThreadId) (p : Prog α) (s : State) : Prop :=
  p.Gives t (fun _ => True) s

/-- A calm part after quiet steps. -/
theorem Prog.Calm.after {α : Type} {t : ThreadId} {V : Prop} {F : α → State → State → Prop}
    {p : Prog α} {s m : State} (hq : Quiet s m) (h : p.Calm t V F m) : p.Calm t V F s := by
  cases p with
  | go a u => exact let ⟨k, hk, hF⟩ := h; ⟨k, hq.trans hk, hF⟩
  | stop | void => exact h
  | gap u next => exact ⟨hq.trans h.1, h.2⟩

theorem Prog.Calm.mono {α : Type} {t : ThreadId} {V W : Prop} {F G : α → State → State → Prop}
    {p : Prog α} {s : State} (h : p.Calm t V F s) (hVW : V → W)
    (hFG : ∀ a k m, F a k m → G a k m) : p.Calm t W G s := by
  induction p generalizing s with
  | go a m => exact let ⟨k, hk, hF⟩ := h; ⟨k, hk, hFG a k m hF⟩
  | stop m => exact h
  | void => exact hVW h
  | gap m next ih => exact ⟨h.1, fun u hu => ih u (h.2 u hu)⟩

/-- What follows a calm part begins in a state that leaves what the command relies on. -/
theorem Prog.Calm.bind {α β : Type} {t : ThreadId} {A : α → Prop} {V : Prop}
    {F : β → State → State → Prop} {p : Prog α} {s : State} {c : α → State → Prog β}
    (h : p.Gives t A s) (hc : ∀ a k, A a → Rely t s k → (c a k).Calm t V F k) :
    (p.andThen c).Calm t V F s := by
  suffices ∀ (p : Prog α) (m : State), Rely t s m → p.Gives t A m → (p.andThen c).Calm t V F m from
    this p s (Rely.refl t s) h
  intro p
  induction p with
  | go a m =>
    intro u hu ⟨k, hk, e, hV⟩
    subst e
    exact (hc a m hV (hu.trans (hk.rely t))).after hk
  | stop | void => exact fun _ _ h => h.elim
  | gap m next ih =>
    exact fun u hu h => ⟨h.1, fun v hv => ih v v (hu.trans ((h.1.rely t).trans hv)) (h.2 v hv)⟩

/-- A part that ends at once. -/
theorem Prog.Calm.ran {α : Type} {t : ThreadId} {s m : State} (a : α) (hq : Quiet s m) :
    (Prog.go a m).Runs t s := ⟨m, hq, rfl, trivial⟩

/-! ## Bus operations -/

/-- A command's first frame: nothing stands before it. -/
@[simp] theorem busFrame_first (tx : List Byte) (n : Nat) (s : State) :
    busFrame false tx n s = .go (s.answers n) (s.frame tx n) := rfl

/-- A later frame: other agents may step before it. -/
@[simp] theorem busFrame_later (tx : List Byte) (n : Nat) (s : State) :
    busFrame true tx n s = .gap s fun u => .go (u.answers n) (u.frame tx n) := rfl

variable (t : ThreadId)

/-- A frame goes on with as many bytes as it receives. -/
theorem busFrame_calm (mid : Bool) (tx : List Byte) (n : Nat) (s : State) :
    (busFrame mid tx n s).Gives t (fun rx => rx.length = n) s := by
  have h (u : State) : (Prog.go (u.answers n) (u.frame tx n)).Gives t (fun rx => rx.length = n) u :=
    ⟨_, quiet_frame u tx n, rfl, by simp⟩
  cases mid
  · exact h s
  · exact ⟨Quiet.refl s, fun u _ => h u⟩

/-- A part whose value is dropped. -/
theorem Prog.Calm.drop {α : Type} {t : ThreadId} {A : α → Prop} {p : Prog α} {s : State}
    (h : p.Gives t A s) : (p.andThen fun _ s => .go () s).Runs t s :=
  h.bind fun _ k _ _ => .ran () (Quiet.refl k)

theorem opRegRead_calm (mid : Bool) (a : Byte) (s : State) : (opRegRead mid a s).Runs t s :=
  (busFrame_calm t mid _ 1 s).bind fun _ k _ _ => .ran _ (Quiet.refl k)

theorem opRegWrite_calm (mid : Bool) (a v : Byte) (s : State) : (opRegWrite mid a v s).Runs t s :=
  (busFrame_calm t mid _ 0 s).drop

theorem opReadBurst_calm (mid : Bool) (a : Byte) (n : Nat) (h : Byte) (s : State) :
    (opReadBurst mid a n h t s).Runs t s :=
  (busFrame_calm t mid _ n s).bind fun rx k _ _ => .ran () (quiet_store k t h rx)

theorem opWriteBurst_calm (mid : Bool) (a : Byte) (bytes : List Byte) (s : State) :
    (opWriteBurst mid a bytes s).Runs t s := (busFrame_calm t mid _ 0 s).drop

theorem opRmw_calm (mid : Bool) (a : Byte) (f : Byte → Byte) (s : State) :
    (opRmw mid a f s).Runs t s := by
  refine (opRegRead_calm t mid a s).bind fun old k _ _ => ?_
  split
  · exact .ran () (Quiet.refl k)
  · exact opRegWrite_calm t true a (f old) k

theorem opTestRead_calm (mid : Bool) (ta : Byte) (s : State) : (opTestRead mid ta s).Runs t s :=
  (busFrame_calm t mid _ 1 s).bind fun _ k _ _ => .ran _ (Quiet.refl k)

theorem opTestWrite_calm (mid : Bool) (ta v : Byte) (s : State) :
    (opTestWrite mid ta v s).Runs t s := (busFrame_calm t mid _ 0 s).drop

theorem opFifoLoad_calm (mid : Bool) (bytes : List Byte) (bits : Nat) (s : State) :
    (opFifoLoad mid bytes bits s).Runs t s :=
  (busFrame_calm t mid _ 0 s).bind fun _ k _ _ => (busFrame_calm t true _ 0 k).drop

/-- An unload that succeeds answers no more bytes than the capacity (spec/41_driver.md R155). -/
theorem opFifoUnload_calm (mid : Bool) (cap : Nat) (s : State) :
    (opFifoUnload mid cap s).Gives t
      (fun ans => ∀ bytes rbits, ans = .ok bytes rbits → bytes.length ≤ cap) s := by
  refine (busFrame_calm t mid _ 2 s).bind fun st k _ _ => ?_
  simp only []
  split
  · exact ⟨k, Quiet.refl k, rfl, nofun⟩
  · split
    · exact ⟨k, Quiet.refl k, rfl, nofun⟩
    · rename_i hcap
      refine (busFrame_calm t true _ _ k).bind fun rx m hn _ => ⟨m, Quiet.refl m, rfl, ?_⟩
      intro bytes rbits e
      cases e
      omega

theorem opFifoRead_calm (mid : Bool) (h : Byte) (s : State) :
    (opFifoRead mid h t s).Runs t s := by
  refine (opFifoUnload_calm t mid (s.cap t h) s).bind fun ans k _ _ => ?_
  cases ans with
  | ok bytes rbits =>
    exact .ran _ (quiet_store k t h bytes)
  | empty => exact .ran _ (Quiet.refl k)
  | overflow => exact .ran _ (Quiet.refl k)

theorem opDirect_calm (mid : Bool) (c : Byte) (s : State) : (opDirect mid c s).Runs t s :=
  (busFrame_calm t mid _ 0 s).drop

/-! ## Driver commands and sequences -/

/-- The room a burst's checks leave. -/
theorem burst_fits (a : Byte) (n : BitVec 16) (h : Byte) (t : ThreadId) (s : State)
    (hc : firstFail (burstChecks a n h t s) = none) : n.toNat ≤ s.cap t h := by
  rw [firstFail_eq_none] at hc
  have := hc (_, .badOperand) (List.mem_cons_of_mem _ (List.mem_cons_of_mem _ (List.mem_cons_self ..)))
  simp only [Bool.or_eq_false_iff, decide_eq_false_iff_not] at this
  omega

theorem runDriver_calm (mid : Bool) (c : DriverCmd) (s : State) : (runDriver mid c t s).Runs t s := by
  cases c with
  | regRead a => exact (opRegRead_calm t mid a s).drop
  | regWrite a v => exact opRegWrite_calm t mid a v s
  | regReadBurst a n h => exact opReadBurst_calm t mid a n.toNat h s
  | regWriteBurst a n h => exact (opWriteBurst_calm t mid a _ _).after (quiet_skip s _)
  | regChangeBits a mask val => exact opRmw_calm t mid a _ s
  | regSetBits a mask => exact opRmw_calm t mid a _ s
  | regClearBits a mask => exact opRmw_calm t mid a _ s
  | testRegRead ta => exact (opTestRead_calm t mid ta s).drop
  | testRegWrite ta v => exact opTestWrite_calm t mid ta v s
  | fifoWrite h bits => exact (opFifoLoad_calm t mid _ _ _).after (quiet_skip s _)
  | fifoRead h => exact (opFifoRead_calm t mid h s).drop
  | directCmd c => exact opDirect_calm t mid c s

theorem runSeq_calm (mid : Bool) (l : List DriverCmd) (s : State) : (runSeq mid t l s).Runs t s := by
  induction l generalizing mid s with
  | nil => exact .ran () (Quiet.refl s)
  | cons c r ih => exact (runDriver_calm t mid c s).bind fun _ k _ _ => ih true k

/-- A sequence in two parts. -/
theorem runSeq_append (mid : Bool) (t : ThreadId) (l r : List DriverCmd) (s : State) :
    runSeq mid t (l ++ r) s =
      (runSeq mid t l s).andThen fun _ u => runSeq (mid || !l.isEmpty) t r u := by
  induction l generalizing mid s with
  | nil => simp [runSeq]
  | cons c l ih =>
    simp only [List.cons_append, runSeq, Prog.andThen_assoc]
    congr 1
    funext _ u
    rw [ih]
    simp

theorem commonTx_calm (bytes : List Byte) (bits : Nat) (s : State) :
    (commonTx bytes bits s).Runs t s :=
  (opDirect_calm t false _ s).bind fun _ k _ _ =>
    (opFifoLoad_calm t true bytes bits k).bind fun _ m _ _ => opDirect_calm t true _ m

theorem receiveError_calm (e : Err) (s : State) : (receiveError e s).Runs t s :=
  .ran _ (quiet_skip s 2)

theorem commonRx_calm (h : Byte) (s : State) : (commonRx h t s).Runs t s := by
  refine (opFifoRead_calm t false h s).bind fun ans k _ _ => ?_
  cases ans with
  | ok bytes rbits => exact .ran _ (Quiet.refl k)
  | empty => exact receiveError_calm t _ k
  | overflow => exact receiveError_calm t _ k

theorem pollerRxV_calm (h : Byte) (s : State) : (pollerRxV h t s).Runs t s := by
  refine (opFifoUnload_calm t false _ s).bind fun ans k _ _ => ?_
  cases ans with
  | ok raw rbits =>
    have hd := quiet_decodeInto raw rbits h t k
    simp only []
    split <;> rename_i e <;> rw [e] at hd
    · exact .ran _ hd
    · exact (receiveError_calm t _ _).after hd
  | empty => exact receiveError_calm t _ k
  | overflow => exact receiveError_calm t _ k

theorem pollerTxV_calm (h : Byte) (bits : Nat) (s : State) : (pollerTxV h bits t s).Runs t s :=
  commonTx_calm t _ _ s

/-! ## The codec -/

theorem decodeEffect_calm (bin : Byte) (ibits : BitVec 32) (bout : Byte) (s : State) :
    (decodeEffect bin ibits bout t s).Runs t s := by
  unfold decodeEffect
  have h := quiet_decodeInto (s.bufBytes t bin (bytesFor ibits.toNat)) ibits.toNat bout t s
  split <;> rename_i e <;> rw [e] at h <;> exact .ran _ h

theorem encodeEffect_calm (bin : Byte) (n : BitVec 32) (bout : Byte) (s : State) :
    (encodeEffect bin n bout t s).Runs t s := .ran _ (quiet_store s t bout _)

end Sys2Proof.Machine
end

