-- ==== Sys2Proof/Laws/Effects.lean ====
section
/-! SUPPORT. Everything a command's effect can do, said once for all commands: its frames are quiet,
and after the last one it writes what `Finishes` says; a command without frames writes what `Writes`
says. And what the passed checks of a command tell about the session. -/

namespace Sys2Proof.Machine

open Sys2Proof

/-! ## What passed checks tell -/

/-- The checks that a passing list of checks held. -/
theorem check_passed {l : List Check} (h : firstFail l = none) {b : Bool} {c : FatalCode}
    (hm : (b, c) ∈ l) : b = false :=
  (firstFail_eq_none l).1 h (b, c) hm

theorem needReady_passed {l : List Check} {s : State} (h : firstFail l = none)
    (hm : needReady s ∈ l) : s.phase = .ready := by
  simpa using check_passed h hm

theorem needLock_passed {l : List Check} {t : ThreadId} {s : State} (h : firstFail l = none)
    (hm : needLock t s ∈ l) : s.holder = some t := by
  simpa using check_passed h hm

/-- What the passed checks tell about the session, for the commands that write it. -/
structure Session (t : ThreadId) (s : State) : Prop where
  ready : s.phase = .ready
  lock : s.holder = some t

theorem session_of_checks {i : Instr} {t : ThreadId} {s : State}
    (h : firstFail (instrChecks i t s) = none) :
    match i with
    | .lpExit | .lpEnter | .timerStartFc _ _ | .timerStartUs _ _ | .timerStop _ | .eventWait _
    | .setMode _ _ | .resetMode => Session t s
    | .init => s.phase = .uninit
    | .deinit => s.phase = .ready
    | .acquire => s.phase = .ready
    | _ => True := by
  cases i <;> simp only []
  case lpExit => exact ⟨needReady_passed h (by simp [instrChecks, arbiterChecks]),
    needLock_passed h (by simp [instrChecks, arbiterChecks])⟩
  case lpEnter => exact ⟨needReady_passed h (by simp [instrChecks, arbiterChecks]),
    needLock_passed h (by simp [instrChecks, arbiterChecks])⟩
  case timerStartFc => exact
    ⟨needReady_passed h (by simp [instrChecks, timerStartFcChecks, arbiterChecks]),
     needLock_passed h (by simp [instrChecks, timerStartFcChecks, arbiterChecks])⟩
  case timerStartUs => exact
    ⟨needReady_passed h (by simp [instrChecks, timerStartUsChecks, arbiterChecks]),
     needLock_passed h (by simp [instrChecks, timerStartUsChecks, arbiterChecks])⟩
  case timerStop => exact
    ⟨needReady_passed h (by simp [instrChecks, timerStopChecks, arbiterChecks]),
     needLock_passed h (by simp [instrChecks, timerStopChecks, arbiterChecks])⟩
  case eventWait => exact
    ⟨needReady_passed h (by simp [instrChecks, eventWaitChecks, arbiterChecks]),
     needLock_passed h (by simp [instrChecks, eventWaitChecks, arbiterChecks])⟩
  case setMode => exact ⟨needReady_passed h (by simp [instrChecks, setModeChecks]),
    needLock_passed h (by simp [instrChecks, setModeChecks])⟩
  case resetMode => exact ⟨needReady_passed h (by simp [instrChecks, techChecks]),
    needLock_passed h (by simp [instrChecks, techChecks])⟩
  case init =>
    have : (decide (s.phase = .ready)) = false := check_passed h (List.mem_cons_self ..)
    cases hp : s.phase with
    | uninit => rfl
    | ready => simp [hp] at this
  case deinit => exact needReady_passed h (by simp [instrChecks, deinitChecks])
  case acquire => exact needReady_passed h (by simp [instrChecks])

/-- The commands that need no lock (spec/92_eei_decisions.md D29). -/
def lockless : Instr → Bool
  | .abortRequest => true
  | .iso15693EncodeFrame _ _ _ => true
  | .iso15693DecodeFrame _ _ _ => true
  | .init => true
  | .deinit => true
  | .acquire => true
  | _ => false

/-- Every other command's checks pass only for the holder. -/
theorem lock_of_checks {i : Instr} {t : ThreadId} {s : State}
    (h : firstFail (instrChecks i t s) = none) (hi : lockless i = false) : s.holder = some t := by
  have lock : ∀ {l : List Check}, firstFail l = none → needLock t s ∈ l → s.holder = some t :=
    fun h hm => needLock_passed h hm
  cases i
  case abortRequest | iso15693EncodeFrame | iso15693DecodeFrame | init | deinit | acquire => cases hi
  case release =>
    simpa using check_passed h (b := decide (s.holder ≠ some t)) (c := .notHolder)
      (List.mem_cons_self ..)
  case lpExit | lpEnter => exact lock h (by simp [instrChecks, arbiterChecks])
  case timerStartFc => exact lock h (by simp [instrChecks, timerStartFcChecks, arbiterChecks])
  case timerStartUs => exact lock h (by simp [instrChecks, timerStartUsChecks, arbiterChecks])
  case timerStop => exact lock h (by simp [instrChecks, timerStopChecks, arbiterChecks])
  case eventWait => exact lock h (by simp [instrChecks, eventWaitChecks, arbiterChecks])
  case setMode => exact lock h (by simp [instrChecks, setModeChecks])
  case resetMode => exact lock h (by simp [instrChecks, techChecks])
  case transmit => exact lock h (by simp [instrChecks, transmitChecks, techChecks])
  case receive => exact lock h (by simp [instrChecks, receiveChecks, techChecks])
  case txShortFrame => exact lock h (by simp [instrChecks, txShortChecks, techChecks])
  case listenerSleep | listenerIdle =>
    exact lock h (by simp [instrChecks, listenerChecks, techChecks])
  case fieldOn | fieldDetectStart | fieldDetectStop | fieldPresent =>
    exact lock h (by simp [instrChecks, fieldChecks])
  all_goals exact lock h (List.mem_cons_self ..)

/-! ## Everything a command's effect can do -/

/-- What a command with frames writes, in the step of its last frame; `m` is the state after that
frame. -/
inductive Finishes (t : ThreadId) (m s' : State) : Instr → Prop where
  | setMode (mode tech : Byte) (r : Role) (x : Tech) (ready : m.phase = .ready)
      (eq : s' = { m with mode := modeOfRole r, tech := some x, ctx := some x }.reply t [0x00]) :
      Finishes t m s' (.setMode mode tech)
  | resetMode (ready : m.phase = .ready)
      (eq : s' = { m with mode := .none, tech := none, ctx := none }.reply t [0x00]) :
      Finishes t m s' .resetMode
  | initFails (e : Err) (eq : s' = m.afterBringup.reply t (errRecord e [])) : Finishes t m s' .init
  | initDone (uninit : m.phase = .uninit)
      (eq : s' = { m.afterBringup with phase := .ready, lp := true }.reply t [0x00]) :
      Finishes t m s' .init
  | deinit (free : m.holder = none) (unset : m.mode = .none)
      (eq : s' = { m with
        fwt := Timer.reset, btx := Timer.reset, lp := true, evf := 0, irqAcc := 0
        phase := .uninit }.reply t [0x00]) : Finishes t m s' .deinit

/-- What a command without frames writes that has an effect of its own on the block state, its
checks passed. -/
inductive Writes (t : ThreadId) (s s' : State) : Instr → Prop where
  | lpExit (low : s.lp = true)
      (eq : s' = { s with fwt := s.fwt.started, btx := s.btx.started, lp := false }.reply
        t [0x00]) : Writes t s s' .lpExit
  | lpEnter (eq : s' = { s.tearTimers with lp := true }.reply t [0x00]) : Writes t s s' .lpEnter
  | timerStartFc (tm : Byte) (d : BitVec 32) (x : TimerId) (ticks : Nat) (which : timerOf tm = some x)
      (up : (s.tmr x).init = true)
      (eq : s' = (s.setTmr x ((s.tmr x).armed ticks)).reply t [0x00]) :
      Writes t s s' (.timerStartFc tm d)
  | timerStartUs (tm : Byte) (d : BitVec 32) (ticks : Nat) (up : s.btx.init = true)
      (eq : s' = { s with btx := s.btx.armed ticks }.reply t [0x00]) :
      Writes t s s' (.timerStartUs tm d)
  | timerStop (tm : Byte) (x : TimerId) (which : timerOf tm = some x)
      (eq : s' = (s.setTmr x (s.tmr x).stopped).reply t [0x00]) : Writes t s s' (.timerStop tm)
  | waitEnds (tmo : BitVec 32) (record : List Byte) (eq : s' = s.consume.reply t record) :
      Writes t s s' (.eventWait tmo)
  | waitBlocks (tmo : BitVec 32) (eq : s' = { s with waiter := some ⟨t, tmo⟩ }) :
      Writes t s s' (.eventWait tmo)
  | acquireTakes (free : s.holder = none)
      (eq : s' = { s with holder := some t }.reply t [0x00]) : Writes t s s' .acquire
  | acquireBlocks (held : s.holder ≠ none) (eq : s' = { s with acquirers := s.acquirers ++ [t] }) :
      Writes t s s' .acquire
  | release (held : s.holder = some t)
      (eq : s' = { s with holder := none }.reply t [0x00]) : Writes t s s' .release

/-- How a command ends that is calm: with its result and nothing more, or as `Finishes` says. -/
def Leaves (i : Instr) (t : ThreadId) (record : List Byte) (k m : State) : Prop :=
  m = k ∨ Finishes t k (m.reply t record) i

/-- A command that sends no frame leaves a state of which `C` holds. -/
def Prog.AtOnce (t : ThreadId) (C : State → Prop) : Prog (List Byte) → Prop
  | .go record m => C (m.reply t record)
  | .stop m => C m
  | .void => False
  | .gap _ _ => False

theorem Prog.Calm.leaves {t : ThreadId} {V : List Byte → Prop} {p : Prog (List Byte)} {s : State}
    (h : p.Gives t V s) (i : Instr) : p.Calm t (i = .deinit) (Leaves i t) s :=
  h.mono False.elim fun _ _ _ h => .inl h.1

theorem doneOk_calm {t : ThreadId} {p : Prog Unit} {s : State} (h : p.Runs t s) :
    (p.andThen doneOk).Runs t s :=
  h.bind fun _ k _ _ => .ran _ (Quiet.refl k)

/-- Everything the effect of a command of thread `t` can do, its checks passed. Only DEINIT
may have no run (log 7). -/
theorem effect_cases (i : Instr) (t : ThreadId) (s : State)
    (hc : firstFail (instrChecks i t s) = none) :
    (instrEffect i t s).Calm t (i = .deinit) (Leaves i t) s ∨
      (instrEffect i t s).AtOnce t fun s' => Writes t s s' i := by
  have calm {p : Prog (List Byte)} (i : Instr) (h : p.Runs t s) {C} :
      p.Calm t (i = .deinit) (Leaves i t) s ∨ p.AtOnce t C := .inl (h.leaves i)
  have seq {l : List DriverCmd} (i : Instr) {C} :
      ((runSeq false t l s).andThen doneOk).Calm t (i = .deinit) (Leaves i t) s ∨
        ((runSeq false t l s).andThen doneOk).AtOnce t C :=
    calm i (doneOk_calm (runSeq_calm t false l s))
  cases i with
  | regRead a =>
    exact calm _ ((opRegRead_calm t false a s).bind fun _ k _ _ => .ran _ (Quiet.refl k))
  | regWrite a v => exact calm _ (doneOk_calm (opRegWrite_calm t false a v s))
  | regReadBurst a n buf => exact calm _ (doneOk_calm (opReadBurst_calm t false a n.toNat buf s))
  | regWriteBurst a n buf => exact calm _ (doneOk_calm (opWriteBurst_calm t false a _ s))
  | regChangeBits a mask val => exact calm _ (doneOk_calm (opRmw_calm t false a _ s))
  | regSetBits a mask => exact calm _ (doneOk_calm (opRmw_calm t false a _ s))
  | regClearBits a mask => exact calm _ (doneOk_calm (opRmw_calm t false a _ s))
  | testRegRead ta =>
    exact calm _ ((opTestRead_calm t false ta s).bind fun _ k _ _ => .ran _ (Quiet.refl k))
  | testRegWrite ta v => exact calm _ (doneOk_calm (opTestWrite_calm t false ta v s))
  | fifoWrite buf bits => exact calm _ (doneOk_calm (opFifoLoad_calm t false _ _ s))
  | fifoRead buf =>
    refine calm _ ((opFifoRead_calm t false buf s).bind fun ans k _ _ => ?_)
    cases ans with
    | ok bytes rbits => exact .ran _ (Quiet.refl k)
    | empty => exact .ran _ (quiet_skip k 2)
    | overflow => exact .ran _ (quiet_skip k 2)
  | directCmd c => exact calm _ (doneOk_calm (opDirect_calm t false c s))
  | lpExit =>
    cases hl : s.lp with
    | true =>
      refine .inr (.lpExit hl ?_)
      simp [hl, okRecord]
    | false => exact calm _ (.ran _ (by simp only [hl]; exact Quiet.refl s))
  | lpEnter => exact .inr (.lpEnter rfl)
  | timerStartFc tm d =>
    cases ht : timerOf tm with
    | none =>
      have := check_passed hc (b := true) (c := .badOperand)
        (by simp [instrChecks, timerStartFcChecks, ht])
      cases this
    | some x =>
      have hi := check_passed hc (b := !(s.tmr x).init) (c := .lowPower)
        (by simp [instrChecks, timerStartFcChecks, ht])
      simp only [instrEffect, timerStartFcEffect, ht]
      split
      · exact calm _ (.ran _ (Quiet.refl s))
      · exact .inr (.timerStartFc _ _ x (fcToTicks s.cfg (d.toNat - s.comp x)) ht
          (by simpa using hi) rfl)
  | timerStartUs tm d =>
    have hi := check_passed hc (b := !s.btx.init) (c := .lowPower)
      (by simp [instrChecks, timerStartUsChecks])
    exact .inr (.timerStartUs _ _ _ (by simpa using hi) rfl)
  | timerStop tm =>
    cases ht : timerOf tm with
    | none =>
      have := check_passed hc (b := decide (timerOf tm = none)) (c := .badOperand)
        (by simp [instrChecks, timerStopChecks])
      simp [ht] at this
    | some x =>
      simp only [instrEffect, timerStopEffect, ht]
      exact .inr (.timerStop _ x ht rfl)
  | eventWait tmo =>
    simp only [instrEffect, eventWaitEffect]
    split
    · exact .inr (.waitEnds _ _ rfl)
    · split
      · exact calm _ (.ran _ (Quiet.refl s))
      · exact .inr (.waitBlocks _ rfl)
  | abortRequest => exact calm _ (.ran _ (quiet_setFlag s _))
  | setMode mode tech =>
    have hr : s.phase = .ready := (session_of_checks hc).ready
    simp only [instrEffect, setModeEffect]
    split
    · exact .inl ((runSeq_calm t false _ s).bind fun _ k _ hk =>
        ⟨k, Quiet.refl k, .inr (.setMode _ _ _ _ (hk.phase.trans hr) rfl)⟩)
    · have := check_passed hc (b := true) (c := .badOperand) (by
        simp [instrChecks, setModeChecks])
      cases this
  | resetMode =>
    have hr : s.phase = .ready := (session_of_checks hc).ready
    exact .inl ((runSeq_calm t false _ s).bind fun _ k _ hk =>
      ⟨k, Quiet.refl k, .inr (.resetMode (hk.phase.trans hr) rfl)⟩)
  | transmit buf bits =>
    refine calm _ (doneOk_calm ?_)
    split
    · exact pollerTxV_calm t buf bits.toNat s
    · exact commonTx_calm t _ _ s
  | receive buf =>
    refine calm _ ?_
    simp only [instrEffect, receiveEffect]
    split
    · exact pollerRxV_calm t buf s
    · exact commonRx_calm t buf s
  | txShortFrame k => exact seq _
  | listenerSleep => exact seq _
  | listenerIdle => exact seq _
  | iso15693EncodeFrame bin n bout => exact calm _ (encodeEffect_calm t bin n bout s)
  | iso15693DecodeFrame bin ibits bout => exact calm _ (decodeEffect_calm t bin ibits bout s)
  | init =>
    have hr : s.phase = .uninit := session_of_checks hc
    refine .inl ((runSeq_calm t false _ s).bind fun _ k _ hk => ?_)
    simp only []
    split
    · exact ⟨k, Quiet.refl k, .inr (.initDone (hk.phase.trans hr) rfl)⟩
    · exact ⟨k, Quiet.refl k, .inr (.initFails _ rfl)⟩
    · exact ⟨k, Quiet.refl k, .inr (.initFails _ rfl)⟩
  | deinit =>
    refine .inl ((runSeq_calm t false _ s).bind fun _ k _ _ => ?_)
    split
    · rfl
    · rename_i hl
      simp only [not_or, not_not] at hl
      exact ⟨k, Quiet.refl k, .inr (.deinit hl.1 hl.2 rfl)⟩
  | acquire =>
    simp only [instrEffect, acquireEffect]
    split
    · exact calm _ (.ran _ (Quiet.refl s))
    · split
      · rename_i h; exact .inr (.acquireTakes h rfl)
      · rename_i h; exact .inr (.acquireBlocks h rfl)
  | release =>
    have := check_passed hc (b := decide (s.holder ≠ some t)) (c := .notHolder)
      (by simp [instrChecks, releaseChecks])
    exact .inr (.release (by simpa using this) rfl)
  | fieldOn =>
    simp only [instrEffect, fieldOnEffect]
    refine calm _ ((opRegRead_calm t false _ s).bind fun v k _ _ => ?_)
    split
    · exact .ran _ (Quiet.refl k)
    · exact doneOk_calm (runSeq_calm t true _ k)
  | fieldDetectStart => exact seq _
  | fieldDetectStop => exact seq _
  | fieldPresent =>
    exact calm _ ((opRegRead_calm t false _ s).bind fun _ k _ _ => .ran _ (Quiet.refl k))

end Sys2Proof.Machine
end

