-- ==== Sys2Proof/Laws/Windows.lean ====
section
/-! SUPPORT. What may stand between two frames of a command (spec/20_memory.md R86): everything one
step there can do (`Act`), `Keeps`, which lifts what each step keeps to the command with all that
stands between its frames, and its two uses: always (`keeps_acts`), and where the command in progress
is sheltered, so that its windows spare the session (`keeps_sheltered`). -/

namespace Sys2Proof.Machine

open Sys2Proof

/-- A window step halts the block: it is a record of another thread, and it writes the fault and
nothing else (spec/60_exceptions.md R326). -/
def Halts (x : WindowStep) (s t : State) : Prop :=
  ∃ u record c, x = .command u record ∧ t = s.takeFault c

/-- An early end of a command: steps that keep `D`, then one of the window steps `A` that halts the
block, or a reset among them. -/
def Ends (D : State → State → Prop) (A : WindowStep → Prop) (s t : State) : Prop :=
  ∃ m, D s m ∧ ((∃ x, A x ∧ Halts x m t) ∨ A .reset ∧ t = m.blockReset)

/-- A step of a coming window. -/
def Ahead (s : State) (x : WindowStep) : Prop := ∃ w ∈ s.windows, x ∈ w

/-! ## What no step between two frames changes -/

/-- What no step between two frames changes: parameters, phase, issuing thread, schedule and fault;
the capacities of the issuing thread's buffers and the table's form. They only add frames and
results. -/
structure Tame (s s' : State) : Prop where
  cfg : s'.cfg = s.cfg
  phase : s'.phase = s.phase
  cur : s'.cur = s.cur
  sched : s'.sched = s.sched
  bringupIn : s'.bringupIn = s.bringupIn
  fault : s'.fault = s.fault
  wf : bufsWf s.bufs = true → bufsWf s'.bufs = true
  own (h : Byte) : s'.cap s.cur h = s.cap s.cur h
  bus : ∃ l, s'.bus = s.bus ++ l
  results : ∃ l, s'.results = s.results ++ l
  wins : ∀ w ∈ s'.windows, w ∈ s.windows

theorem Spares.tame {s m : State} (h : Spares s m) : Tame s m where
  cfg := h.cfg
  phase := h.phase
  cur := h.cur
  sched := h.sched
  bringupIn := h.bringupIn
  fault := h.fault
  wf := h.wf
  own := h.own
  bus := h.bus
  results := let ⟨l, hl, _⟩ := h.results; ⟨l, hl⟩
  wins := h.wins

theorem Quiet.tame {s m : State} (h : Quiet s m) : Tame s m := h.toSpares.tame

theorem Tame.refl (s : State) : Tame s s := (Quiet.refl s).tame

theorem Tame.trans {a b c : State} (h : Tame a b) (k : Tame b c) : Tame a c where
  cfg := k.cfg.trans h.cfg
  phase := k.phase.trans h.phase
  cur := k.cur.trans h.cur
  sched := k.sched.trans h.sched
  bringupIn := k.bringupIn.trans h.bringupIn
  fault := k.fault.trans h.fault
  wf x := k.wf (h.wf x)
  own u := by have := k.own u; rw [h.cur] at this; exact this.trans (h.own u)
  bus := by
    obtain ⟨l, hl⟩ := h.bus; obtain ⟨m, hm⟩ := k.bus
    exact ⟨l ++ m, by rw [hm, hl, List.append_assoc]⟩
  results := by
    obtain ⟨l, hl⟩ := h.results; obtain ⟨m, hm⟩ := k.results
    exact ⟨l ++ m, by rw [hm, hl, List.append_assoc]⟩
  wins w x := h.wins w (k.wins w x)

theorem Tame.rely {s m : State} (h : Tame s m) : Rely s.cur s m := ⟨h.phase, h.own⟩

/-- A change of fields that `Tame` does not speak of. -/
structure Apart (s s' : State) : Prop where
  cfg : s'.cfg = s.cfg := by rfl
  phase : s'.phase = s.phase := by rfl
  cur : s'.cur = s.cur := by rfl
  sched : s'.sched = s.sched := by rfl
  bringupIn : s'.bringupIn = s.bringupIn := by rfl
  fault : s'.fault = s.fault := by rfl
  bufs : s'.bufs = s.bufs := by rfl
  bus : s'.bus = s.bus := by rfl
  results : ∃ l, s'.results = s.results ++ l := by exact ⟨_, rfl⟩
  windows : s'.windows = s.windows := by rfl

theorem Apart.tame {s s' : State} (h : Apart s s') : Tame s s' where
  cfg := h.cfg
  phase := h.phase
  cur := h.cur
  sched := h.sched
  bringupIn := h.bringupIn
  fault := h.fault
  wf x := by rw [h.bufs]; exact x
  own u := by simp only [State.cap, State.buffer, h.bufs]
  bus := ⟨[], by simp [h.bus]⟩
  results := h.results
  wins w x := by rwa [h.windows] at x

theorem Apart.rely {s s' : State} (h : Apart s s') (t : ThreadId) : Rely t s s' :=
  ⟨h.phase, fun u => by simp only [State.cap, State.buffer, h.bufs]⟩

theorem Apart.refl (s : State) : Apart s s where
  results := ⟨[], by simp⟩

/-- What a command without frames writes. -/
theorem Writes.apart {i : Instr} {t : ThreadId} {s s' : State} (h : Writes t s s' i) :
    Apart s s' := by
  cases h with
  | timerStartFc tm d x ticks which up eq => subst eq; cases x <;> exact {}
  | timerStop tm x which eq => subst eq; cases x <;> exact {}
  | waitBlocks tmo eq => subst eq; exact { results := ⟨[], by simp⟩ }
  | acquireBlocks held eq => subst eq; exact { results := ⟨[], by simp⟩ }
  | _ => subst s'; exact {}

/-- What a command with frames other than INIT and DEINIT writes after its last frame. -/
theorem Finishes.apart {i : Instr} {t : ThreadId} {m s' : State} (h : Finishes t m s' i)
    (hl : lifecycle i = false) : Apart m s' := by
  cases h with
  | setMode mode tech r x ready eq => subst eq; exact {}
  | resetMode ready eq => subst eq; exact {}
  | initFails | initDone | deinit => cases hl

theorem apart_acquireTake (s : State) (t : ThreadId) : Apart s (s.acquireTake t) := by
  unfold State.acquireTake
  split
  · exact {}
  · exact Apart.refl s

theorem apart_wake (s : State) : Apart s s.wake := by
  unfold State.wake
  split
  · exact Apart.refl s
  · split
    · exact Apart.refl s
    · exact {}

theorem apart_waitTimeout (s : State) : Apart s s.waitTimeout := by
  unfold State.waitTimeout
  split
  · exact Apart.refl s
  · exact {}

/-! ## The steps of a window -/

/-- A command that needs no lock, INIT and DEINIT apart, sends no frame. -/
theorem frameless {i : Instr} (h : lockless i = true) (hl : lifecycle i = false) (t : ThreadId)
    (s m : State) (next : State → Prog (List Byte)) : instrEffect i t s ≠ .gap m next := by
  intro e
  cases i <;> first | (cases h; done) | (cases hl; done) | skip
  case abortRequest | iso15693EncodeFrame => cases e
  case iso15693DecodeFrame =>
    simp only [instrEffect, decodeEffect] at e
    split at e <;> cases e
  case acquire =>
    simp only [instrEffect, acquireEffect] at e
    split at e
    · cases e
    · split at e <;> cases e

/-- A command record of thread `t` that a step of the windows issues; `Q` is what is known of those
steps. -/
def Issued (Q : WindowStep → Prop) (i : Instr) (t : ThreadId) : Prop :=
  ∃ record r, Q (.command t record) ∧ decode record = .ok (i, r)

/-- A command of another thread that is in progress: its thread holds the lock, and whatever leaves
what it relies on, it goes on calmly. -/
structure Pending.Ok (Q : WindowStep → Prop) (s : State) (p : Pending) : Prop where
  other : p.thread ≠ s.cur
  holds : s.holder = some p.thread
  goesOn : ∃ i, Issued Q i p.thread ∧ lifecycle i = false ∧
    ∀ u, Rely p.thread s u → (p.next u).Calm p.thread (i = .deinit) (Leaves i p.thread) u

theorem Pending.Ok.keep {Q : WindowStep → Prop} {s s' : State} {p : Pending} (h : p.Ok Q s)
    (hc : s'.cur = s.cur) (hh : s'.holder = s.holder) (hr : Rely p.thread s s') : p.Ok Q s' where
  other := by rw [hc]; exact h.other
  holds := hh.trans h.holds
  goesOn := let ⟨i, hi, hl, hn⟩ := h.goesOn; ⟨i, hi, hl, fun u hu => hn u (hr.trans hu)⟩

/-- Everything a step between two frames can do but to halt or reset the block: quiet steps, of an
agent or of another thread's frames; another thread's own writes, at once or after its last frame; a
blocked command's end; a buffer of a thread that runs no command. -/
inductive Act (Q : WindowStep → Prop) (others : List Pending) (s s' : State) : Prop where
  | quiet (kept : Quiet s s')
  | writes (i : Instr) (t : ThreadId) (issued : Issued Q i t) (other : t ≠ s.cur)
      (idle : s.blocked t = false) (free : ∀ p ∈ others, p.thread ≠ t)
      (passed : firstFail (instrChecks i t s) = none) (eff : Writes t s s' i)
  | finishes (i : Instr) (t : ThreadId) (m : State) (issued : Issued Q i t)
      (inner : lifecycle i = false) (kept : Quiet s m) (eff : Finishes t m s' i)
  | take (t : ThreadId) (eq : s' = s.acquireTake t)
  | wake (known : Q .wake) (waits : s.otherWaits = true) (eq : s' = s.wake)
  | waitTimeout (waits : s.otherWaits = true) (eq : s' = s.waitTimeout)
  | buffer (t : ThreadId) (h : Byte) (bytes : List Byte) (other : t ≠ s.cur)
      (idle : ∀ p ∈ others, p.thread ≠ t) (eq : s' = s.giveBuffer t h bytes)

/-- A buffer that another thread is given. -/
theorem spares_giveBuffer (s : State) {t : ThreadId} (h : Byte) (bytes : List Byte)
    (ht : s.cur ≠ t) : Spares s (s.giveBuffer t h bytes) where
  cfg := by simp
  phase := by simp
  lp := by simp
  mode := by simp
  tech := by simp
  ctx := by simp
  holder := by simp
  waiter := by simp
  cur := by simp
  sched := by simp
  bringupIn := by simp
  fault := by simp
  init u := by cases u <;> simp [State.tmr]
  psc u := by cases u <;> simp [State.tmr]
  arr u := by cases u <;> simp [State.tmr]
  sound u x := by cases u <;> simpa [State.tmr] using x
  running u x := .inl (by cases u <;> simpa [State.tmr] using x)
  pending u x := .inl (by cases u <;> simpa [State.tmr] using x)
  causes x := by simpa using x
  flags k x := by simpa using x
  wf x := State.giveBuffer_wf s x t h bytes
  own k := by simp only [State.cap, State.buffer_giveBuffer s h bytes ht k]
  bus := ⟨[], by simp⟩
  results := ⟨[], by simp, fun _ h => .inl (by simpa using h)⟩
  wins w x := by simpa using x

theorem Act.tame {Q : WindowStep → Prop} {others : List Pending} {s s' : State}
    (h : Act Q others s s') : Tame s s' := by
  cases h with
  | quiet kept => exact kept.tame
  | writes i t issued other idle free passed eff => exact eff.apart.tame
  | finishes i t m issued inner kept eff => exact kept.tame.trans (eff.apart inner).tame
  | take t eq => subst eq; exact (apart_acquireTake s t).tame
  | wake known waits eq => subst eq; exact (apart_wake s).tame
  | waitTimeout waits eq => subst eq; exact (apart_waitTimeout s).tame
  | buffer t h bytes other idle eq =>
    subst eq; exact (spares_giveBuffer s h bytes other.symm).tame

/-- A step between two frames leaves what the commands in progress rely on. -/
theorem Act.rely {Q : WindowStep → Prop} {others : List Pending} {s s' : State} {u : ThreadId}
    (h : Act Q others s s') (hu : ∃ p ∈ others, p.thread = u) : Rely u s s' := by
  cases h with
  | quiet kept => exact kept.rely u
  | writes i t issued other idle free passed eff => exact eff.apart.rely u
  | finishes i t m issued inner kept eff => exact (kept.rely u).trans ((eff.apart inner).rely u)
  | take t eq => subst eq; exact (apart_acquireTake s t).rely u
  | wake known waits eq => subst eq; exact (apart_wake s).rely u
  | waitTimeout waits eq => subst eq; exact (apart_waitTimeout s).rely u
  | buffer t h bytes other idle eq =>
    subst eq
    obtain ⟨p, hp, rfl⟩ := hu
    exact ⟨by simp, fun k => by
      simp only [State.cap, State.buffer_giveBuffer s h bytes (idle p hp) k]⟩

/-- A step between two frames leaves the lock with a thread whose command is in progress. -/
theorem Act.lock {Q : WindowStep → Prop} {others : List Pending} {s s' : State} {p : Pending}
    (h : Act Q others s s') (hp : p ∈ others) (hh : s.holder = some p.thread) :
    s'.holder = s.holder := by
  cases h with
  | quiet kept => exact kept.holder
  | writes i t issued other idle free passed eff =>
    cases eff with
    | acquireTakes no eq => rw [hh] at no; cases no
    | release held eq => rw [hh] at held; exact absurd (Option.some.inj held) (free p hp)
    | timerStartFc tm d x ticks which up eq => subst eq; cases x <;> rfl
    | timerStop tm x which eq => subst eq; cases x <;> rfl
    | _ => subst s'; rfl
  | finishes i t m issued inner kept eff =>
    refine Eq.trans ?_ kept.holder
    cases eff with
    | setMode | resetMode => subst s'; rfl
    | initFails | initDone | deinit => cases inner
  | take t eq => subst eq; simp [State.acquireTake, hh]
  | wake known waits eq => subst eq; unfold State.wake; split; rfl; split <;> rfl
  | waitTimeout waits eq => subst eq; unfold State.waitTimeout; split <;> rfl
  | buffer t h bytes other idle eq => subst eq; simp

/-- What a window step that does not halt the block answers: an act, after which the commands in
progress go on. -/
def Settled (Q : WindowStep → Prop) (others : List Pending) (s : State)
    (r : List Pending × State) : Prop :=
  Act Q others s r.2 ∧ ∀ p ∈ r.1, p.Ok Q r.2

/-- The commands in progress go on after an act. -/
theorem Act.settled {Q : WindowStep → Prop} {others rest : List Pending} {s s' : State}
    (h : Act Q others s s') (ho : ∀ p ∈ others, p.Ok Q s) (hr : ∀ p ∈ rest, p ∈ others) :
    Settled Q others s (rest, s') :=
  ⟨h, fun p hp =>
    let ok := ho p (hr p hp)
    ok.keep h.tame.cur (h.lock (hr p hp) ok.holds) (h.rely ⟨p, hr p hp, rfl⟩)⟩

/-- A part of another thread's command, run up to its end or its next frame. -/
theorem settle_settled {Q : WindowStep → Prop} {others rest : List Pending} {s : State}
    {t : ThreadId} {i : Instr} {p : Prog (List Byte)} (h : p.Calm t (i = .deinit) (Leaves i t) s)
    (hi : Issued Q i t) (hl : lifecycle i = false) (ht : t ≠ s.cur)
    (hh : s.holder = some t ∨ ∀ m next, p ≠ .gap m next) (ho : ∀ p ∈ others, p.Ok Q s)
    (hr : ∀ p ∈ rest, p ∈ others) :
    Settled Q others s (settle t p rest s) := by
  cases p with
  | go record m =>
    obtain ⟨k, hk, rfl | hf⟩ := h
    · exact (Act.quiet (hk.trans (quiet_reply _ _ _))).settled ho hr
    · exact (Act.finishes i t k hi hl hk hf).settled ho hr
  | stop m => exact h.elim
  | void => cases h; cases hl
  | gap m next =>
    have hq : Act Q others s m := .quiet h.1
    refine ⟨hq, fun p hp => ?_⟩
    rcases List.mem_append.1 hp with hp | hp
    · exact (ho p (hr p hp)).keep h.1.cur h.1.holder (h.1.rely _)
    · cases List.mem_singleton.1 hp
      exact ⟨fun e => ht (e.trans h.1.cur),
        h.1.holder.trans (hh.elim id fun hn => absurd rfl (hn m next)), i, hi, hl, h.2⟩

/-- A command record of another thread. -/
theorem otherCommand_settled {Q : WindowStep → Prop} (t : ThreadId) (record : List Byte)
    (others : List Pending) (s : State) (hQ : Q (.command t record))
    (ho : ∀ p ∈ others, p.Ok Q s) : Settled Q others s (otherCommand t record others s) ∨
      ∃ c, (otherCommand t record others s).2 = s.takeFault c := by
  have still : Settled Q others s (others, s) :=
    (Act.quiet (Quiet.refl s)).settled ho fun _ h => h
  unfold otherCommand
  split
  · exact .inl still
  · rename_i hb
    simp only [not_or] at hb
    split
    · exact .inr ⟨_, rfl⟩
    · exact .inl still
    · rename_i i r hd
      have hi : Issued Q i t := ⟨record, r, hQ, hd⟩
      split
      · exact .inl still
      · split
        · exact .inr ⟨_, rfl⟩
        · rename_i hc
          unfold otherEffect
          split
          · exact .inl still
          · rename_i hl
            have hl : lifecycle i = false := by simpa using hl
            have free : ∀ p ∈ others, p.thread ≠ t := by
              have := hb.2.2.2
              simpa only [inProgress, List.any_eq_true, not_exists, not_and,
                decide_eq_true_eq] using this
            have hh : s.holder = some t ∨ ∀ m next, instrEffect i t s ≠ .gap m next := by
              cases hk : lockless i with
              | true => exact .inr (frameless hk hl t s)
              | false => exact .inl (lock_of_checks hc hk)
            rcases effect_cases i t s hc with h | h
            · exact .inl (settle_settled h hi hl hb.1 hh ho fun _ h => h)
            · cases hp : instrEffect i t s with
              | go record m =>
                rw [hp] at h
                exact .inl ((Act.writes i t hi hb.1 (by simpa using hb.2.1) free hc h).settled ho
                  fun _ h => h)
              | stop m =>
                rw [hp] at h
                exact .inl ((Act.writes i t hi hb.1 (by simpa using hb.2.1) free hc h).settled ho
                  fun _ h => h)
              | gap | void => rw [hp] at h; exact h.elim

/-- A command of another thread whose checks pass runs up to its end or its second frame. -/
theorem otherCommand_pass {t : ThreadId} {record r : List Byte} {others : List Pending} {s : State}
    {i : Instr} (ht : t ≠ s.cur) (hb : s.blocked t = false) (hp : inProgress t others = false)
    (hf : s.fault = none) (hd : decode record = .ok (i, r)) (hl : lifecycle i = false)
    (hc : firstFail (instrChecks i t s) = none) :
    otherCommand t record others s = settle t (instrEffect i t s) others s := by
  simp [otherCommand, otherEffect, State.halted, ht, hb, hp, hf, hd, hl, hc]

/-- The next part of the command that came into progress last. -/
theorem resume_last {t : ThreadId} {rest : List Pending} (next : State → Prog (List Byte))
    (s : State) (h : inProgress t rest = false) :
    resume t (rest ++ [⟨t, next⟩]) s = settle t (next s) rest s := by
  have h' : ∀ p ∈ rest, p.thread ≠ t := by simpa [inProgress] using h
  have find : (rest.find? fun p => decide (p.thread = t)) = none := by simpa using h'
  have keep : (rest.filter fun p => decide (p.thread ≠ t)) = rest := by simpa using h'
  simp only [resume, List.find?_append, find, List.filter_append, keep]
  simp

/-- Everything a step between two frames can do. -/
theorem windowStep_settled {Q : WindowStep → Prop} (x : WindowStep) (others : List Pending)
    (s : State) (hQ : Q x) (hx : x ≠ .reset) (ho : ∀ p ∈ others, p.Ok Q s) :
    Settled Q others s (windowStep x others s) ∨ Halts x s (windowStep x others s).2 := by
  have act {s' : State} (h : Act Q others s s') {H} : Settled Q others s (others, s') ∨ H :=
    .inl (h.settled ho fun _ h => h)
  have still {H} : Settled Q others s (others, s) ∨ H := act (.quiet (Quiet.refl s))
  cases x with
  | agent a => exact act (.quiet (quiet_windowAgent a s))
  | command t record =>
    exact (otherCommand_settled t record others s hQ ho).imp id fun ⟨c, e⟩ => ⟨t, record, c, rfl, e⟩
  | resume t =>
    simp only [windowStep, resume]
    split
    · exact still
    · rename_i p hp
      have hm := List.mem_of_find?_eq_some hp
      have ht : p.thread = t := by simpa using List.find?_some hp
      obtain ⟨i, hi, hl, hn⟩ := (ho p hm).goesOn
      subst ht
      exact .inl (settle_settled (hn s (Rely.refl _ s)) hi hl (ho p hm).other (.inl (ho p hm).holds) ho
        fun q hq => (List.mem_filter.1 hq).1)
  | hostBuffer t h bytes =>
    simp only [windowStep, otherBuffer]
    split
    · exact still
    · rename_i hb
      simp only [not_or, inProgress, List.any_eq_true, not_exists, not_and,
        decide_eq_true_eq] at hb
      exact act (.buffer t h bytes hb.1 hb.2 rfl)
  | acquireTake t => exact act (.take t rfl)
  | wake =>
    cases hw : s.otherWaits with
    | true => simpa only [windowStep, hw, if_true] using act (.wake hQ hw rfl)
    | false => simpa only [windowStep, hw, Bool.false_eq_true, if_false] using still
  | waitTimeout =>
    cases hw : s.otherWaits with
    | true => simpa only [windowStep, hw, if_true] using act (.waitTimeout hw rfl)
    | false => simpa only [windowStep, hw, Bool.false_eq_true, if_false] using still
  | reset => exact absurd rfl hx

/-! ## From the steps to the command -/

theorem runWindow_cons (x : WindowStep) (r : List WindowStep) (others : List Pending) (s : State) :
    runWindow (x :: r) others s =
      if x = .reset ∨ (windowStep x others s).2.halted = true then .stop (windowStep x others s).2
      else runWindow r (windowStep x others s).1 (windowStep x others s).2 := rfl

theorem windowStates_cons (x : WindowStep) (r : List WindowStep) (others : List Pending)
    (s : State) :
    windowStates (x :: r) others s = (windowStep x others s).2 ::
      if x = .reset ∨ (windowStep x others s).2.halted = true then []
      else windowStates r (windowStep x others s).1 (windowStep x others s).2 := rfl

/-- What makes a command, with all that stands between its frames, keep `D`: quiet steps do, and so
does each step of a window, while `P` holds of the commands in progress and the state. `Q` is what is
known of the steps of the windows. -/
structure Keeps (D : State → State → Prop) (P : List Pending → State → Prop)
    (Q : WindowStep → Prop) : Prop where
  quiet {s m : State} : Quiet s m → D s m
  trans {s m k : State} : D s m → D m k → D s k
  tame {s m : State} : D s m → Tame s m
  still {others : List Pending} {s m : State} : P others s → Quiet s m → P others m
  step (x : WindowStep) (others : List Pending) (s : State) : Q x → x ≠ .reset → s.fault = none →
    P others s →
    (D s (windowStep x others s).2 ∧ P (windowStep x others s).1 (windowStep x others s).2) ∨
      Halts x s (windowStep x others s).2

/-- From the state given the run keeps `D` up to its end, which is as `F` says, or it ends early; there
is a run, unless `V` holds. -/
def Run.Kept {α : Type} (D : State → State → Prop) (V : Prop) (F : α → State → State → Prop)
    (A : WindowStep → Prop) (s : State) : Run α → Prop
  | .go a m => ∃ k, D s k ∧ F a k m
  | .stop u => Ends D A s u
  | .void => V

/-- What is said of a state `v` that a run from `s` passes: `D` is kept up to it, and the run goes on
from it; or the run ends early in it. -/
def Run.Passes {α : Type} (D : State → State → Prop) (V : Prop) (F : α → State → State → Prop)
    (A : WindowStep → Prop) (s v : State) (r : Run α) : Prop :=
  (D s v ∧ r.Kept D V F A v) ∨ (Ends D A s v ∧ r = .stop v)

section Keeps

variable {D : State → State → Prop} {P : List Pending → State → Prop} {Q : WindowStep → Prop}
  (K : Keeps D P Q)
include K

theorem Keeps.refl (s : State) : D s s := K.quiet (Quiet.refl s)

theorem Keeps.ends {A B : WindowStep → Prop} {s m u : State} (h : D s m) (hu : Ends D A m u)
    (hr : ∀ x, A x → B x) : Ends D B s u :=
  let ⟨k, hk, hc⟩ := hu
  ⟨k, K.trans h hk, hc.imp (fun ⟨x, hx, y⟩ => ⟨x, hr x hx, y⟩) fun ⟨x, e⟩ => ⟨hr _ x, e⟩⟩

/-- A run from a later state. -/
theorem Keeps.from {α : Type} {V : Prop} {F : α → State → State → Prop} {A B : WindowStep → Prop}
    {s m : State} {r : Run α} (h : D s m) (hr : r.Kept D V F A m) (hm : ∀ x, A x → B x) :
    r.Kept D V F B s := by
  cases r with
  | go a u => exact let ⟨k, hk, hF⟩ := hr; ⟨k, K.trans h hk, hF⟩
  | stop u => exact K.ends h hr hm
  | void => exact hr

theorem Keeps.passes {α : Type} {V : Prop} {F : α → State → State → Prop} {A B : WindowStep → Prop}
    {s m v : State} {r : Run α} (h : D s m) (hr : r.Passes D V F A m v) (hm : ∀ x, A x → B x) :
    r.Passes D V F B s v :=
  hr.imp (fun ⟨a, b⟩ => ⟨K.trans h a, K.from (K.refl v) b hm⟩) fun ⟨a, b⟩ => ⟨K.ends h a hm, b⟩

/-- The steps between two frames, and every state they leave. -/
theorem Keeps.window (w : List WindowStep) (hw : ∀ x ∈ w, Q x) (others : List Pending) (s : State)
    (hs : s.fault = none) (hp : P others s) :
    (runWindow w others s).Kept D False (fun rest k m => m = k ∧ P rest m) (· ∈ w) s ∧
    ∀ v ∈ windowStates w others s, (runWindow w others s).Passes D False (fun rest k m => m = k ∧ P rest m)
      (· ∈ w) s v := by
  induction w generalizing others s with
  | nil => exact ⟨⟨s, K.refl s, rfl, hp⟩, by simp [windowStates]⟩
  | cons x r ih =>
    have only {v : State} (h : Ends D (· ∈ x :: r) s v) :
        (Run.stop v).Kept D False (fun rest k m => m = k ∧ P rest m) (· ∈ x :: r) s ∧
        ∀ u ∈ [v], (Run.stop v).Passes D False (fun rest k m => m = k ∧ P rest m)
          (· ∈ x :: r) s u :=
      ⟨h, fun u hu => by rw [List.mem_singleton.1 hu]; exact .inr ⟨h, rfl⟩⟩
    rw [runWindow_cons, windowStates_cons]
    by_cases e : x = .reset
    · subst e
      rw [if_pos (.inl rfl), if_pos (.inl rfl)]
      exact only ⟨s, K.refl s, .inr ⟨List.mem_cons_self .., rfl⟩⟩
    · rcases K.step x others s (hw x (List.mem_cons_self ..)) e hs hp with
        ⟨h, hp'⟩ | hh
      · have hf := (K.tame h).fault.trans hs
        have go : ¬(x = .reset ∨ (windowStep x others s).2.halted = true) := by
          simp [e, State.halted, hf]
        have more (y) : y ∈ r → y ∈ x :: r := List.mem_cons_of_mem _
        obtain ⟨hr, hv⟩ := ih (fun y hy => hw y (List.mem_cons_of_mem _ hy)) _ _ hf hp'
        rw [if_neg go, if_neg go]
        refine ⟨K.from h hr more, fun v hm => ?_⟩
        rcases List.mem_cons.1 hm with rfl | hm
        · exact .inl ⟨h, K.from (K.refl _) hr more⟩
        · exact K.passes h (hv v hm) more
      · have stop : x = .reset ∨ (windowStep x others s).2.halted = true :=
          .inr (by obtain ⟨u, record, c, _, e⟩ := hh; rw [e]; rfl)
        rw [if_pos stop, if_pos stop]
        exact only ⟨s, K.refl s, .inl ⟨x, List.mem_cons_self .., hh⟩⟩

end Keeps

theorem quiet_windows (s : State) (w : List WindowStep) (ws : List (List WindowStep))
    (h : s.windows = w :: ws) : Quiet s { s with windows := ws } :=
  Quiet.of_fields rfl rfl rfl rfl rfl rfl rfl rfl rfl rfl rfl rfl rfl rfl rfl rfl
    ⟨[], by simp⟩ ⟨[], by simp, fun _ h => .inl h⟩
    (h19 := fun _ x => by rw [h]; exact List.mem_cons_of_mem _ x)

section Weave

variable {D : State → State → Prop} {P : List Pending → State → Prop} {Q : WindowStep → Prop}
  (K : Keeps D P Q)
include K

/-- What stands between two frames, and every state it leaves. -/
theorem Keeps.interleave (others : List Pending) (s : State) (hs : s.fault = none)
    (hp : P others s) (hQ : ∀ w ∈ s.windows, ∀ x ∈ w, Q x) :
    (s.interleave others).Kept D False (fun rest k m => m = k ∧ P rest m) (Ahead s) s ∧
    ∀ v ∈ windowStates (s.windows.headD []) others { s with windows := s.windows.tail },
      (s.interleave others).Passes D False (fun rest k m => m = k ∧ P rest m) (Ahead s) s v := by
  unfold State.interleave
  cases hw : s.windows with
  | nil => exact ⟨⟨s, K.refl s, rfl, hp⟩, by simp [windowStates]⟩
  | cons w ws =>
    have hq := quiet_windows s w ws hw
    have ahead (x) (y : x ∈ w) : Ahead s x := ⟨w, by simp [hw], y⟩
    obtain ⟨hr, hv⟩ := K.window w (hQ w (by simp [hw])) others { s with windows := ws } hs
      (K.still hp hq)
    exact ⟨K.from (K.quiet hq) hr ahead, fun v hm => K.passes (K.quiet hq) (hv v hm) ahead⟩

/-- A calm command with all that stands between its frames: it keeps `D` up to its end, which is as
`F` says, or it ends early, or, where `V` holds, it has no run; and so from every state it passes. -/
theorem Keeps.weave {α : Type} {V : Prop} {F : α → State → State → Prop} {t : ThreadId} (p : Prog α)
    (others : List Pending) (s : State) (ht : s.cur = t) (h : p.Calm t V F s) (hs : s.fault = none)
    (hp : P others s) (hQ : ∀ w ∈ s.windows, ∀ x ∈ w, Q x) :
    (p.weave others).Kept D V F (Ahead s) s ∧
    ∀ v ∈ p.states others, (p.weave others).Passes D V F (Ahead s) s v := by
  induction p generalizing others s with
  | go a m => exact ⟨let ⟨k, hk, hF⟩ := h; ⟨k, K.quiet hk, hF⟩, by simp [Prog.states]⟩
  | stop m => exact h.elim
  | void => exact ⟨h, by simp [Prog.states]⟩
  | gap m next ih =>
    obtain ⟨hq, hn⟩ := h
    have ahead {k : State} (hk : D s k) (x) : Ahead k x → Ahead s x :=
      fun ⟨w, hw, y⟩ => ⟨w, (K.tame hk).wins w hw, y⟩
    have hd := K.quiet hq
    obtain ⟨hr, hv⟩ := K.interleave others m (hq.fault.trans hs) (K.still hp hq)
      fun w hw => hQ w (hq.wins w hw)
    rw [Prog.weave, Prog.states]
    cases hk : m.interleave others with
    | stop u =>
      rw [hk] at hr hv
      have hend : Ends D (Ahead s) s u := K.ends hd hr (ahead hd)
      refine ⟨hend, fun v hm => ?_⟩
      rcases List.mem_cons.1 hm with rfl | hm
      · exact .inl ⟨hd, K.ends (K.refl _) hr (ahead hd)⟩
      · rcases hv v (by simpa using hm) with ⟨h1, h2⟩ | ⟨h1, h2⟩
        · exact .inl ⟨K.trans hd h1, K.ends (K.refl v) h2 (ahead hd)⟩
        · cases h2; exact .inr ⟨hend, rfl⟩
    | void => rw [hk] at hr; exact hr.elim
    | go others' s' =>
      rw [hk] at hr hv
      obtain ⟨k, h1, rfl, hp'⟩ := hr
      have hd' := K.trans hd h1
      have ht' : s'.cur = t := (K.tame hd').cur.trans ht
      have hmt : m.cur = t := hq.cur.trans ht
      obtain ⟨h1', h2⟩ := ih s' others' s' ht' (hn s' (hmt ▸ (K.tame h1).rely))
        ((K.tame hd').fault.trans hs) hp' fun w hw => hQ w ((K.tame hd').wins w hw)
      refine ⟨K.from hd' h1' (ahead hd'), fun v hm => ?_⟩
      simp only [List.mem_cons, List.mem_append] at hm
      rcases hm with rfl | hm | hm
      · exact .inl ⟨hd, K.from h1 h1' (ahead hd')⟩
      · rcases hv v hm with ⟨x1, k, x2, rfl, _⟩ | ⟨_, x2⟩
        · exact .inl ⟨K.trans hd x1, K.from x2 h1' (ahead hd')⟩
        · cases x2
      · exact K.passes hd' (h2 v hm) (ahead hd')

end Weave

/-- What every act keeps, a command keeps with all that stands between its frames. -/
theorem keeps_acts {D : State → State → Prop} {Q : WindowStep → Prop}
    (trans : ∀ {s m k}, D s m → D m k → D s k) (tame : ∀ {s m}, D s m → Tame s m)
    (act : ∀ {others s s'}, Act Q others s s' → D s s') :
    Keeps D (fun others s => ∀ p ∈ others, p.Ok Q s) Q where
  quiet h := act (others := []) (.quiet h)
  trans := trans
  tame := tame
  still hp hq p h := (hp p h).keep hq.cur hq.holder (hq.rely _)
  step x others s hQ hx _ hp :=
    (windowStep_settled x others s hQ hx hp).imp (fun ⟨h, h'⟩ => ⟨act h, h'⟩) id

/-- Any command: what stands between its frames is tame. -/
theorem keeps_tame : Keeps Tame (fun others s => ∀ p ∈ others, p.Ok (fun _ => True) s)
    (fun _ => True) :=
  keeps_acts Tame.trans id Act.tame

/-! ## A sheltered command -/

/-- No other thread can use the lock between the frames of the command in progress: its own thread
holds the lock, or it is free and the block uninitialised. -/
def Sheltered (s : State) : Prop :=
  s.holder = some s.cur ∨ s.phase = .uninit ∧ s.holder = none

/-- What a command that needs no lock writes beside a sheltered command: it is an ACQUIRE that
blocks. -/
theorem Writes.spares {i : Instr} {t : ThreadId} {s s' : State} (h : Writes t s s' i)
    (hi : lockless i = true) (hc : firstFail (instrChecks i t s) = none) (hs : Sheltered s) :
    Spares s s' := by
  cases h with
  | acquireTakes free eq =>
    have hr : s.phase = .ready := session_of_checks hc
    rcases hs with h | ⟨h, _⟩
    · rw [h] at free; cases free
    · rw [h] at hr; cases hr
  | acquireBlocks held eq =>
    subst eq
    have h : Quiet s { s with acquirers := s.acquirers ++ [t] } :=
      Quiet.of_fields rfl rfl rfl rfl rfl rfl rfl rfl rfl rfl rfl rfl rfl rfl rfl rfl
        ⟨[], by simp⟩ ⟨[], by simp, fun u hu => .inl (List.mem_append_left _ hu)⟩
    exact h.toSpares
  | _ => cases hi

/-- A command of another thread beside a sheltered command spares the session, or halts the block;
it never stays in progress. -/
theorem otherCommand_sheltered (t : ThreadId) (record : List Byte) (s : State) (h : Sheltered s) :
    ((otherCommand t record [] s).1 = [] ∧ Spares s (otherCommand t record [] s).2) ∨
      ∃ c, (otherCommand t record [] s).2 = s.takeFault c := by
  have still : Spares s s := Spares.refl s
  unfold otherCommand
  split
  · exact .inl ⟨rfl, still⟩
  · rename_i hb
    simp only [not_or] at hb
    split
    · exact .inr ⟨_, rfl⟩
    · exact .inl ⟨rfl, still⟩
    · rename_i i r hd
      split
      · exact .inl ⟨rfl, still⟩
      · split
        · exact .inr ⟨_, rfl⟩
        · rename_i hc
          unfold otherEffect
          split
          · exact .inl ⟨rfl, still⟩
          · rename_i hl
            have hl : lifecycle i = false := by simpa using hl
            have hk : lockless i = true := by
              cases hk : lockless i with
              | true => rfl
              | false =>
                have := lock_of_checks hc hk
                rcases h with h | ⟨_, h⟩
                · rw [h] at this; exact absurd (Option.some.inj this).symm hb.1
                · rw [h] at this; cases this
            have he := effect_cases i t s hc
            cases hp : instrEffect i t s with
            | gap m next => exact absurd hp (frameless hk hl t s m next)
            | go record m =>
              rw [hp] at he
              rcases he with ⟨k, hq, rfl | hfin⟩ | hw
              · exact .inl ⟨rfl, (hq.trans (quiet_reply _ _ _)).toSpares⟩
              · cases hfin <;> first | cases hk; done | cases hl
              · exact .inl ⟨rfl, hw.spares hk hc h⟩
            | stop m => rw [hp] at he; exact .inl ⟨rfl, (he.resolve_left id).spares hk hc h⟩
            | void => exact .inl ⟨rfl, still⟩

/-- No other thread waits beside a sheltered command. -/
theorem Sheltered.otherWaits {s : State} (h : Sheltered s) : s.otherWaits = false := by
  unfold State.otherWaits
  cases s.waiter with
  | none => rfl
  | some w =>
    rcases h with h | ⟨_, h⟩ <;> simp [h]
    exact fun e => e.symm

/-- Beside a sheltered command a step of another agent or thread spares the session, or halts the
block. -/
theorem windowStep_sheltered (x : WindowStep) (s : State) (hx : x ≠ .reset) (h : Sheltered s) :
    ((windowStep x [] s).1 = [] ∧ Spares s (windowStep x [] s).2) ∨
      Halts x s (windowStep x [] s).2 := by
  have still : Spares s s := Spares.refl s
  cases x with
  | agent a => exact .inl ⟨rfl, (quiet_windowAgent a s).toSpares⟩
  | command t record =>
    exact (otherCommand_sheltered t record s h).imp id fun ⟨c, e⟩ => ⟨t, record, c, rfl, e⟩
  | resume t => exact .inl ⟨rfl, still⟩
  | hostBuffer t k bytes =>
    refine .inl ⟨rfl, ?_⟩
    simp only [windowStep, otherBuffer]
    split
    · exact still
    · rename_i hb
      exact spares_giveBuffer s k bytes fun e => hb (.inl e.symm)
  | acquireTake t =>
    refine .inl ⟨rfl, ?_⟩
    have : ¬(t ∈ s.acquirers ∧ s.holder = none ∧ s.phase = .ready) := by
      rcases h with h | ⟨h, _⟩ <;> simp [h]
    simp only [windowStep, State.acquireTake, if_neg this]
    exact still
  | wake => exact .inl ⟨rfl, by simp only [windowStep, h.otherWaits]; exact still⟩
  | waitTimeout => exact .inl ⟨rfl, by simp only [windowStep, h.otherWaits]; exact still⟩
  | reset => exact absurd rfl hx

/-- A sheltered command: what stands between its frames spares the session. -/
theorem keeps_sheltered : Keeps Spares (fun others s => others = [] ∧ Sheltered s)
    (fun _ => True) where
  quiet h := h.toSpares
  trans := Spares.trans
  tame := Spares.tame
  still hp hq := ⟨hp.1, by simpa [Sheltered, hq.holder, hq.cur, hq.phase] using hp.2⟩
  step x others s _ hx _ hp := by
    obtain ⟨rfl, hp⟩ := hp
    exact (windowStep_sheltered x s hx hp).imp
      (fun ⟨e, h⟩ => ⟨h, e, by simpa [Sheltered, h.holder, h.cur, h.phase] using hp⟩) id

/-! ## A command in two parts -/

@[simp] theorem Prog.weave_go {α : Type} (a : α) (s : State) (others : List Pending) :
    (Prog.go a s).weave others = .go a s := rfl
@[simp] theorem Prog.weave_stop {α : Type} (s : State) (others : List Pending) :
    (Prog.stop s : Prog α).weave others = .stop s := rfl
@[simp] theorem Prog.weave_void {α : Type} (others : List Pending) :
    (Prog.void : Prog α).weave others = .void := rfl
theorem Prog.weave_gap {α : Type} (s : State) (next : State → Prog α) (others : List Pending) :
    (Prog.gap s next).weave others =
      match s.interleave others with
      | .go others' s' => (next s').weave others'
      | .stop u => .stop u
      | .void => .void := by
  cases h : s.interleave others <;> simp only [Prog.weave, h]

/-- The second part runs where the first one ends, beside what is in progress then. -/
theorem Prog.weave_andThen {α β : Type} (p : Prog α) (c : α → State → Prog β)
    (others : List Pending) :
    match p.weave others with
    | .go a m => ∃ rest, (p.andThen c).weave others = (c a m).weave rest
    | .stop u => (p.andThen c).weave others = .stop u
    | .void => (p.andThen c).weave others = .void := by
  induction p generalizing others with
  | go a m => exact ⟨others, rfl⟩
  | stop | void => rfl
  | gap m next ih =>
    rw [Prog.gap_andThen, Prog.weave_gap, Prog.weave_gap]
    cases m.interleave others with
    | go others' s' => exact ih s' others'
    | stop | void => rfl

@[simp] theorem interleave_nil (s : State) (others : List Pending) (h : s.windows = []) :
    s.interleave others = .go others s := by
  simp [State.interleave, h]

/-- Alone: nothing stands between the frames. -/
theorem Prog.Calm.weave_andThen {α β : Type} {t : ThreadId} {V : Prop}
    {F : α → State → State → Prop} {p : Prog α} {s : State} (h : p.Calm t V F s) (hw : s.windows = []) (c : α → State → Prog β)
    (others : List Pending) :
    (p.andThen c).weave others =
      match p.weave others with
      | .go a m => (c a m).weave others
      | .stop u => .stop u
      | .void => .void := by
  induction p generalizing s with
  | go | stop | void => rfl
  | gap m next ih =>
    have hm : m.windows = [] := List.eq_nil_iff_forall_not_mem.2 fun w hx => by
      have := h.1.wins w hx
      rw [hw] at this
      cases this
    rw [Prog.gap_andThen, Prog.weave_gap, Prog.weave_gap, interleave_nil m others hm]
    exact ih m (h.2 m (Rely.refl t m)) hm

/-- A frame with nothing before it. -/
theorem busFrame_alone {β : Type} (mid : Bool) (tx : List Byte) (n : Nat) (s : State)
    (c : List Byte → State → Prog β) (others : List Pending) (h : s.windows = []) :
    ((busFrame mid tx n s).andThen c).weave others =
      (c (s.answers n) (s.frame tx n)).weave others := by
  cases mid
  · rfl
  · rw [busFrame_later, Prog.gap_andThen, Prog.weave_gap, interleave_nil s others h]
    rfl

end Sys2Proof.Machine
end

