-- ==== Sys2Proof/Laws/Step.lean ====
section
/-! SUPPORT. What a step does with the head of the schedule, and everything issuing a record can
do. -/

namespace Sys2Proof.Machine

open Sys2Proof

/-- The block not halted: the head of the schedule is taken. -/
theorem step_item (s : State) (item : SchedItem) (rest : List SchedItem)
    (h : s.sched = item :: rest) (hf : s.fault = none) :
    step s = schedStep item { s with sched := rest } := by
  unfold step
  rw [h]
  simp only []
  split
  · rename_i e; rw [hf] at e; cases e
  · rfl

/-- The block halted: only the reset event is left. -/
theorem step_halted (s : State) (item : SchedItem) (rest : List SchedItem) (c : FatalCode)
    (h : s.sched = item :: rest) (hf : s.fault = some c) :
    step s = haltedStep item c { s with sched := rest } := by
  unfold step
  rw [h]
  simp only []
  split
  · rename_i e; rw [hf] at e; cases e; rfl
  · rename_i e; rw [hf] at e; cases e

/-- A record that decodes, of a thread that is not blocked, runs its command. -/
theorem issue_exec {t : ThreadId} {record : List Byte} {w : List (List WindowStep)} {s : State}
    {i : Instr} {r : List Byte} (hb : s.blocked t = false) (hd : decode record = .ok (i, r)) :
    issue t record w s = exec i { s with cur := t, windows := w } := by
  simp [issue, hb, hd]

/-- Everything issuing a record can do: a blocked thread's record changes nothing; a record that is
too short is refused; an illegal opcode halts the block; any other record runs its command. -/
theorem issue_cases (t : ThreadId) (record : List Byte) (w : List (List WindowStep)) (s : State) :
    (s.blocked t = true ∧ issue t record w s = .next s) ∨
    (s.blocked t = false ∧ decode record = .error .shortRecord ∧
      issue t record w s = .refused .shortRecord) ∨
    (s.blocked t = false ∧ (∃ op, decode record = .error (.illegalOpcode op)) ∧
      issue t record w s = .next ({ s with cur := t, windows := w }.takeFault .illegalCommand)) ∨
    (s.blocked t = false ∧ ∃ i r, decode record = .ok (i, r) ∧
      issue t record w s = exec i { s with cur := t, windows := w }) := by
  unfold issue
  split
  · rename_i hb; exact .inl ⟨hb, rfl⟩
  · rename_i hb
    have hb : s.blocked t = false := by simpa using hb
    split
    · rename_i i r hd; exact .inr (.inr (.inr ⟨hb, i, r, hd, rfl⟩))
    · rename_i op hd; exact .inr (.inr (.inl ⟨hb, ⟨op, hd⟩, rfl⟩))
    · rename_i hd; exact .inr (.inl ⟨hb, hd, rfl⟩)

end Sys2Proof.Machine
end

