-- ==== Sys2Proof/Laws/Exec.lean ====
section
/-! SUPPORT. Everything a command can do, said once: its checks, then what its effect `Does`, with
all that stands between its frames. -/

namespace Sys2Proof.Machine

open Sys2Proof

/-- Everything a command can do, its checks passed: its frames, after which it writes what
`Finishes` says; an early end; or, without frames, its own writes. -/
def Does (D : State → State → Prop) (i : Instr) (t : ThreadId) (s s' : State) : Prop :=
  (∃ m, D s m ∧ (s' = m ∨ Finishes t m s' i)) ∨ Ends D (Ahead s) s s' ∨ Writes t s s' i

/-- Everything the effect of the command in progress can do, with all that stands between its
frames. -/
theorem Keeps.does {D : State → State → Prop} {P : List Pending → State → Prop}
    {Q : WindowStep → Prop} (K : Keeps D P Q) (i : Instr) (s : State) (hs : s.fault = none)
    (hp : P [] s) (hQ : ∀ w ∈ s.windows, ∀ x ∈ w, Q x)
    (hc : firstFail (instrChecks i s.cur s) = none) :
    Does D i s.cur s (((instrEffect i s.cur s).weave []).close s) := by
  rcases effect_cases i s.cur s hc with h | h
  · have hw := (K.weave (instrEffect i s.cur s) [] s rfl h hs hp hQ).1
    cases hr : (instrEffect i s.cur s).weave [] with
    | go record m =>
      rw [hr] at hw
      obtain ⟨k, hk, rfl | hf⟩ := hw
      · exact .inl ⟨_, K.trans hk (K.quiet (quiet_reply _ _ _)), .inl rfl⟩
      · exact .inl ⟨k, hk, .inr hf⟩
    | stop u => rw [hr] at hw; exact .inr (.inl hw)
    | void => exact .inl ⟨s, K.refl s, .inl rfl⟩
  · cases hp : instrEffect i s.cur s with
    | go record m => rw [hp] at h; exact .inr (.inr h)
    | stop m => rw [hp] at h; exact .inr (.inr h)
    | gap | void => rw [hp] at h; exact h.elim

/-- Every state that the command in progress passes between its frames: `D` is kept up to it, and
the command goes on from it; or it ends early in it. -/
theorem Keeps.states {D : State → State → Prop} {P : List Pending → State → Prop}
    {Q : WindowStep → Prop} (K : Keeps D P Q) (i : Instr) (s : State) (hs : s.fault = none)
    (hp : P [] s) (hQ : ∀ w ∈ s.windows, ∀ x ∈ w, Q x)
    (hc : firstFail (instrChecks i s.cur s) = none) (v : State) (hv : v ∈ commandStates i s) :
    let s' := ((instrEffect i s.cur s).weave []).close s
    (D s v ∧ ((∃ m, D v m ∧ (s' = m ∨ Finishes s.cur m s' i)) ∨ Ends D (Ahead s) v s')) ∨
      (Ends D (Ahead s) s v ∧ s' = v) := by
  unfold commandStates at hv
  split at hv
  · cases hv
  rename_i hn
  rcases effect_cases i s.cur s hc with h | h
  · rcases (K.weave (instrEffect i s.cur s) [] s rfl h hs hp hQ).2 v hv with ⟨h1, h2⟩ | ⟨h1, h2⟩
    · refine .inl ⟨h1, ?_⟩
      cases hr : (instrEffect i s.cur s).weave [] with
      | go record m =>
        rw [hr] at h2
        obtain ⟨k, hk, rfl | hf⟩ := h2
        · exact .inl ⟨_, K.trans hk (K.quiet (quiet_reply _ _ _)), .inl rfl⟩
        · exact .inl ⟨k, hk, .inr hf⟩
      | stop u => rw [hr] at h2; exact .inr h2
      | void => exact absurd hr hn
    · exact .inr ⟨h1, by rw [h2]; rfl⟩
  · cases hp : instrEffect i s.cur s with
    | go record m => simp [hp, Prog.states] at hv
    | stop m => simp [hp, Prog.states] at hv
    | gap | void => rw [hp] at h; exact h.elim

/-- A command that answers a next state took its first failing check as a fault, or had its
effect. -/
theorem checked_cases {i : Instr} {s t : State} {effect : Prog (List Byte)}
    (h : checked i s effect = .next t) :
    s.fault = none ∧
      ((∃ c, firstFail (instrChecks i s.cur s) = some c ∧ t = s.takeFault c) ∨
       (firstFail (instrChecks i s.cur s) = none ∧ t = (effect.weave []).close s)) := by
  rcases command_cases s (firstFail (instrChecks i s.cur s)) (effect.weave []) with
    ⟨c, _, e⟩ | ⟨c, hf, hc, e⟩ | ⟨hf, hc, e⟩ <;> rw [checked, e] at h <;> cases h
  · exact ⟨hf, .inl ⟨c, hc, rfl⟩⟩
  · exact ⟨hf, .inr ⟨hc, rfl⟩⟩

/-- A command whose checks pass has its effect. -/
theorem checked_pass {i : Instr} {s : State} (effect : Prog (List Byte)) (hf : s.fault = none)
    (hc : firstFail (instrChecks i s.cur s) = none) :
    checked i s effect = .next ((effect.weave []).close s) := by
  simp [checked, command, hf, hc]

/-- A command whose first failing check is `c` takes it as a fault. -/
theorem checked_fail {i : Instr} {s : State} (effect : Prog (List Byte)) {c : FatalCode}
    (hf : s.fault = none) (hc : firstFail (instrChecks i s.cur s) = some c) :
    checked i s effect = .next (s.takeFault c) := by
  simp [checked, command, hf, hc]

/-- Every command is its checks and its effect, with the other agents between its frames. -/
theorem exec_checked (i : Instr) (s : State) :
    exec i s = checked i s (instrEffect i s.cur s) := by
  cases i <;> rfl

/-- A command whose checks pass runs its effect. -/
theorem exec_pass {i : Instr} {s : State} (hf : s.fault = none)
    (hc : firstFail (instrChecks i s.cur s) = none) :
    exec i s = .next (((instrEffect i s.cur s).weave []).close s) := by
  rw [exec_checked, checked_pass _ hf hc]

/-- A halted block runs no command. -/
theorem exec_halted (i : Instr) {s : State} {c : FatalCode} (h : s.fault = some c) :
    exec i s = .fault (.halted c) := by
  rw [exec_checked]
  simp [checked, command, h]

/-- Everything a command can do. A failed check is a fault and nothing else; otherwise the command
has its effect, whose frames, with what stands between them, are tame. -/
theorem exec_cases {i : Instr} {s t : State} (h : exec i s = .next t) :
    s.fault = none ∧
      ((∃ c, firstFail (instrChecks i s.cur s) = some c ∧ t = s.takeFault c) ∨
       (firstFail (instrChecks i s.cur s) = none ∧
        t = ((instrEffect i s.cur s).weave []).close s ∧ Does Tame i s.cur s t)) := by
  rw [exec_checked] at h
  obtain ⟨hf, hc | ⟨hc, e⟩⟩ := checked_cases h
  · exact ⟨hf, .inl hc⟩
  · exact ⟨hf, .inr ⟨hc, e, e ▸ keeps_tame.does i s hf nofun (fun _ _ _ _ => trivial) hc⟩⟩

/-- Every command but INIT and DEINIT spares the session, but for its own writes: it holds the lock,
or it sends no frame. INIT does so where the lock is free. -/
theorem exec_spares {i : Instr} {s t : State} (h : exec i s = .next t)
    (hc : firstFail (instrChecks i s.cur s) = none)
    (hi : lifecycle i = false ∨ Sheltered s) : Does Spares i s.cur s t := by
  obtain ⟨hf, ⟨c, hc', _⟩ | ⟨_, e, _⟩⟩ := exec_cases h
  · rw [hc] at hc'; cases hc'
  · have sheltered (hs : Sheltered s) : Does Spares i s.cur s t :=
      e ▸ keeps_sheltered.does i s hf ⟨rfl, hs⟩ (fun _ _ _ _ => trivial) hc
    cases hk : lockless i with
    | false => exact sheltered (.inl (lock_of_checks hc hk))
    | true =>
      rcases hi with hl | hs
      · subst e
        have he := effect_cases i s.cur s hc
        cases hp : instrEffect i s.cur s with
        | gap m next => exact absurd hp (frameless hk hl _ _ m next)
        | go record m =>
          rw [hp] at he
          rcases he with ⟨k, hq, rfl | hfin⟩ | hw
          · exact .inl ⟨_, (hq.trans (quiet_reply _ _ _)).toSpares, .inl rfl⟩
          · exact .inl ⟨k, hq.toSpares, .inr hfin⟩
          · exact .inr (.inr hw)
        | stop m => rw [hp] at he; exact .inr (.inr (he.resolve_left id))
        | void => exact .inl ⟨s, Spares.refl s, .inl rfl⟩
      · exact sheltered hs

end Sys2Proof.Machine
end

