-- ==== Sys2Proof/Laws/Operands.lean ====
section
/-! SUPPORT. What the operand forms and the frame bytes are, as arithmetic on the operand's number:
one lemma for each (spec/30_encoding.md R108 to R110, spec/41_driver.md R151 to R158). -/

namespace Sys2Proof.Machine

open Sys2Proof

theorem absent_eq_true (s : State) (t : ThreadId) (h : Byte) :
    s.absent t h = true ↔ s.buffer t h = none := by
  simp [State.absent]

theorem absent_eq_false (s : State) (t : ThreadId) (h : Byte) :
    s.absent t h = false ↔ s.buffer t h ≠ none := by
  rw [Ne, ← absent_eq_true]; simp

/-- An admitted address, as a claim says it (R71). -/
theorem driverAddrOk_eq (cfg : Params) (a : Byte) :
    driverAddrOk cfg a = true ↔ addrLegal cfg a := by
  unfold driverAddrOk addrLegal regMask
  exact decide_eq_true_iff

theorem driverAddrOk_false (cfg : Params) (a : Byte) :
    driverAddrOk cfg a = false ↔ ¬addrLegal cfg a := by
  rw [← driverAddrOk_eq]; simp

theorem testAddrOk_eq (cfg : Params) (a : Byte) :
    testAddrOk cfg a = true ↔ a.toNat < 2 ^ cfg.regAddrBits.val := by
  simp [testAddrOk]

/-- The register number is the address modulo the size of a space. -/
theorem regNo_eq (cfg : Params) (a : Byte) : regNo cfg a = regOf cfg a := by
  have h : ∀ (n : Fin 7) (a : Byte), (a &&& BitVec.ofNat 8 (2 ^ n.val - 1)).setWidth 6 =
      BitVec.ofNat 6 (a.toNat % 2 ^ n.val) := by decide
  exact h cfg.regAddrBits a

theorem regNo_toNat (cfg : Params) (a : Byte) :
    (regNo cfg a).toNat = a.toNat % 2 ^ cfg.regAddrBits.val := by
  have h : 2 ^ cfg.regAddrBits.val ≤ 2 ^ 6 :=
    Nat.pow_le_pow_right (by omega) (by have := cfg.regAddrBits.isLt; omega)
  have hp : 0 < 2 ^ cfg.regAddrBits.val := Nat.pos_of_ne_zero (by simp)
  have hm := Nat.mod_lt a.toNat hp
  rw [regNo_eq, regOf, BitVec.toNat_ofNat, Nat.mod_eq_of_lt (by omega)]

theorem spacePfx_eq (cfg : Params) (a : Byte) : spacePfx cfg a = prefixOf cfg a := by
  simp [spacePfx, prefixOf, inSpaceB]

/-- With R11's widths and mode bits: an address has 7 bits, bit 6 selects space B, and the mode
bytes are those of R110's table. -/
theorem wireDefaults_bytes (cfg : Params) (a : Byte) (h : wireDefaults cfg) :
    (addrLegal cfg a ↔ a.toNat < 0x80) ∧
    prefixOf cfg a = (if a.getLsbD 6 then [cfg.spiSpaceBPrefix] else []) ∧
    cfg.spiRegRead ++ regOf cfg a = (0x40 ||| (a &&& 0x3F) : Byte) ∧
    cfg.spiRegWrite ++ regOf cfg a = (a &&& 0x3F : Byte) := by
  obtain ⟨h1, h2, h3, h4, -⟩ := h
  simp only [addrLegal, prefixOf, regOf, h1, h2, h3, h4]
  refine ⟨?_, ?_, ?_, ?_⟩
  · revert a; decide
  · have e : (a &&& (0x40 : BitVec 7).zeroExtend 8 ≠ 0) ↔ a.getLsbD 6 = true := by
      revert a; decide
    simp only [e]
  · revert a; decide
  · revert a; decide

/-- A byte that DIRECT_CMD admits (R158). -/
theorem directOk_eq (cfg : Params) (c : Byte) : directOk cfg c = true ↔ directLegal cfg c := by
  have h : ∀ (c : Byte) (m : BitVec 2), c.extractLsb' 6 2 = m ↔ c.toNat / 64 = m.toNat := by
    decide
  simp only [directOk, directLegal, Bool.and_eq_true, decide_eq_true_eq, h, and_assoc]

/-- The transmit length registers hold the bit count (R151). -/
theorem txLen1_eq (bits : Nat) : txLen1 bits = BitVec.ofNat 8 (bits / 8 / 32) := by
  apply BitVec.eq_of_toNat_eq
  simp [txLen1, BitVec.extractLsb'_toNat, Nat.shiftRight_eq_div_pow]
  omega

theorem txLen2_eq (bits : Nat) :
    txLen2 bits = BitVec.ofNat 8 (bits / 8 % 32 * 8 + bits % 8) := by
  apply BitVec.eq_of_toNat_eq
  simp only [txLen2, BitVec.toNat_append, BitVec.toNat_ofNat]
  rw [← Nat.shiftLeft_add_eq_or_of_lt (by omega), Nat.shiftLeft_eq]
  omega

/-- The two FIFO status bytes hold the byte count (R154). -/
theorem fifoCount_eq (cfg : Params) (s1 s2 : Byte) :
    fifoCount cfg s1 s2 = statusCount cfg s1 s2 := by
  have h1 := s1.isLt
  have h2 := s2.isLt
  simp only [fifoCount, statusCount, BitVec.toNat_setWidth, BitVec.toNat_append,
    BitVec.extractLsb'_toNat, Nat.shiftRight_eq_div_pow]
  rw [← Nat.shiftLeft_add_eq_or_of_lt (by omega), Nat.shiftLeft_eq,
    show s2.toNat / 2 ^ 6 % 2 ^ 2 * 2 ^ 8 + s1.toNat = s2.toNat / 64 * 256 + s1.toNat by omega]

/-- The last byte's bits (R154). -/
theorem fifoLastBits_eq (s2 : Byte) : fifoLastBits s2 = s2.toNat / 2 % 8 := by
  simp [fifoLastBits, BitVec.extractLsb'_toNat, Nat.shiftRight_eq_div_pow]

/-- The commands' timer operand (R102). -/
theorem timerOf_eq_none (t : Byte) : timerOf t = none ↔ 2 ≤ t.toNat := by
  revert t; decide

end Sys2Proof.Machine
end

