-- ==== Sys2Proof/Laws/PerInstr.lean ====
section
/-! SUPPORT. A law for every command: its record has the length of the table. -/

namespace Sys2Proof.Laws.RecordLength

/-- The record that the encoder writes has as many bytes as spec/30_encoding.md R103 gives the command. -/
def Statement (i : Instr) : Prop := (encode i).length = recordLength i

theorem regRead (a : Byte) : Statement (.regRead a) := rfl
theorem regWrite (a v : Byte) : Statement (.regWrite a v) := rfl
theorem regReadBurst (a : Byte) (n : BitVec 16) (buf : Byte) : Statement (.regReadBurst a n buf) := rfl
theorem regWriteBurst (a : Byte) (n : BitVec 16) (buf : Byte) : Statement (.regWriteBurst a n buf) := rfl
theorem regChangeBits (a mask val : Byte) : Statement (.regChangeBits a mask val) := rfl
theorem regSetBits (a mask : Byte) : Statement (.regSetBits a mask) := rfl
theorem regClearBits (a mask : Byte) : Statement (.regClearBits a mask) := rfl
theorem testRegRead (ta : Byte) : Statement (.testRegRead ta) := rfl
theorem testRegWrite (ta v : Byte) : Statement (.testRegWrite ta v) := rfl
theorem fifoWrite (buf : Byte) (bits : BitVec 16) : Statement (.fifoWrite buf bits) := rfl
theorem fifoRead (buf : Byte) : Statement (.fifoRead buf) := rfl
theorem directCmd (c : Byte) : Statement (.directCmd c) := rfl
theorem lpExit : Statement (.lpExit) := rfl
theorem lpEnter : Statement (.lpEnter) := rfl
theorem timerStartFc (t : Byte) (d : BitVec 32) : Statement (.timerStartFc t d) := rfl
theorem timerStartUs (t : Byte) (d : BitVec 32) : Statement (.timerStartUs t d) := rfl
theorem timerStop (t : Byte) : Statement (.timerStop t) := rfl
theorem eventWait (tmo : BitVec 32) : Statement (.eventWait tmo) := rfl
theorem abortRequest : Statement (.abortRequest) := rfl
theorem setMode (mode tech : Byte) : Statement (.setMode mode tech) := rfl
theorem resetMode : Statement (.resetMode) := rfl
theorem transmit (buf : Byte) (bits : BitVec 16) : Statement (.transmit buf bits) := rfl
theorem receive (buf : Byte) : Statement (.receive buf) := rfl
theorem txShortFrame (k : Byte) : Statement (.txShortFrame k) := rfl
theorem listenerSleep : Statement (.listenerSleep) := rfl
theorem listenerIdle : Statement (.listenerIdle) := rfl
theorem iso15693EncodeFrame (bin : Byte) (n : BitVec 32) (bout : Byte) : Statement (.iso15693EncodeFrame bin n bout) := rfl
theorem iso15693DecodeFrame (bin : Byte) (ibits : BitVec 32) (bout : Byte) : Statement (.iso15693DecodeFrame bin ibits bout) := rfl
theorem init : Statement (.init) := rfl
theorem deinit : Statement (.deinit) := rfl
theorem acquire : Statement (.acquire) := rfl
theorem release : Statement (.release) := rfl
theorem fieldOn : Statement (.fieldOn) := rfl
theorem fieldDetectStart : Statement (.fieldDetectStart) := rfl
theorem fieldDetectStop : Statement (.fieldDetectStop) := rfl
theorem fieldPresent : Statement (.fieldPresent) := rfl

end Sys2Proof.Laws.RecordLength
end

