-- ==== Sys2Proof/Laws/Preserved.lean ====
section
/-! SUPPORT. What every step of the machine preserves, from what each write preserves: `Preserved`,
which lifts a relation between states from the writes of single commands and agents to a command with
all that stands between its frames, to an item of the schedule, to every state the machine passes in
its step, and to a run. -/

namespace Sys2Proof.Machine

open Sys2Proof

/-- Everything that a step of the machine writes, but for a reset, preserves `D`, where `A` holds of
the commands issued and `W` where a blocked EVENT_WAIT is woken. -/
structure Preserved (A : Instr → Prop) (W : Prop) (D : State → State → Prop) : Prop where
  trans {s m k : State} : D s m → D m k → D s k
  quiet {s m : State} : Quiet s m → D s m
  issue (s : State) (items : List SchedItem) (t : ThreadId) (windows : List (List WindowStep)) :
    D s { s with sched := items, cur := t, windows := windows }
  fault (s : State) (c : FatalCode) : D s (s.takeFault c)
  writes {i : Instr} {t : ThreadId} {s s' : State} : A i → firstFail (instrChecks i t s) = none →
    s.blocked t = false → Writes t s s' i → D s s'
  finishes {i : Instr} {t : ThreadId} {m s' : State} : A i → Finishes t m s' i → D m s'
  acquireTake (s : State) (t : ThreadId) : D s (s.acquireTake t)
  wake (s : State) : W → D s s.wake
  waitTimeout (s : State) : D s s.waitTimeout
  giveBuffer (s : State) (t : ThreadId) (h : Byte) (bytes : List Byte) : D s (s.giveBuffer t h bytes)

/-- What is known of a window's steps. -/
def Allowed (A : Instr → Prop) (W : Prop) : WindowStep → Prop
  | .wake => W
  | .command _ record => ∀ i r, decode record = .ok (i, r) → A i
  | _ => True

/-- What is known of an item's records and wakes is known of its windows. -/
theorem allowed_windows {A : Instr → Prop} {W : Prop} {t : ThreadId} {record : List Byte}
    {windows : List (List WindowStep)}
    (hA : ∀ record' ∈ (SchedItem.command t record windows).records, ∀ i r,
      decode record' = .ok (i, r) → A i)
    (hW : (SchedItem.command t record windows).wakes = true → W) :
    ∀ w ∈ windows, ∀ x ∈ w, Allowed A W x := by
  intro w hw x hx
  cases x with
  | wake => exact hW (List.any_eq_true.2 ⟨w, hw, by simpa using hx⟩)
  | command u record' =>
    refine hA record' (List.mem_cons_of_mem _ (List.mem_filterMap.2 ⟨.command u record', ?_, rfl⟩))
    exact List.mem_flatten.2 ⟨w, hw, hx⟩
  | _ => trivial

/-- A step begins in the first of the states that it passes. -/
theorem SchedItem.mem_states (item : SchedItem) (s : State) : s ∈ item.states s := by
  unfold SchedItem.states
  split
  · split
    · split <;> exact List.mem_cons_self ..
    · exact List.mem_cons_self ..
  · exact List.mem_cons_self ..

namespace Preserved

variable {A : Instr → Prop} {W : Prop} {D : State → State → Prop} (R : Preserved A W D)
include R

theorem refl (s : State) : D s s := R.quiet (Quiet.refl s)

/-- What stands between the frames of a command preserves it. -/
theorem keeps : Keeps (fun s m => Tame s m ∧ D s m)
    (fun others s => ∀ p ∈ others, p.Ok (Allowed A W) s) (Allowed A W) :=
  keeps_acts (fun h k => ⟨h.1.trans k.1, R.trans h.2 k.2⟩) (fun h => h.1)
    fun {others s s'} h => by
      refine ⟨h.tame, ?_⟩
      cases h with
      | quiet kept => exact R.quiet kept
      | writes i t issued other idle free passed eff =>
        obtain ⟨record, r, hQ, hd⟩ := issued
        exact R.writes (hQ i r hd) passed idle eff
      | finishes i t m issued inner kept eff =>
        obtain ⟨record, r, hQ, hd⟩ := issued
        exact R.trans (R.quiet kept) (R.finishes (hQ i r hd) eff)
      | take t eq => subst eq; exact R.acquireTake s t
      | wake known waits eq => subst eq; exact R.wake s known
      | waitTimeout waits eq => subst eq; exact R.waitTimeout s
      | buffer t h bytes other idle eq => subst eq; exact R.giveBuffer s t h bytes

/-- From a state of which `D` holds a command ends: with nothing more, or as `Finishes` says. -/
theorem ends {i : Instr} {t : ThreadId} {s m s' : State} (hA : A i) (h : D s m)
    (he : s' = m ∨ Finishes t m s' i) : D s s' := by
  rcases he with rfl | he
  · exact h
  · exact R.trans h (R.finishes hA he)

/-- A command preserves it, or is reset between its frames. -/
theorem exec {i : Instr} {s t : State} (hA : A i) (hb : s.blocked s.cur = false)
    (hQ : ∀ w ∈ s.windows, ∀ x ∈ w, Allowed A W x) (he : Machine.exec i s = .next t) :
    D s t ∨ (Ahead s .reset ∧ ∃ m, D s m ∧ t = m.blockReset) := by
  obtain ⟨hf, ⟨c, _, e⟩ | ⟨hc, e, _⟩⟩ := exec_cases he
  · exact .inl (e ▸ R.fault s c)
  · have hd := R.keeps.does i s hf nofun hQ hc
    rw [← e] at hd
    rcases hd with ⟨m, hm, h⟩ | ⟨m, hm, ⟨_, _, _, _, c, _, rfl⟩ | ⟨hr, rfl⟩⟩ | hw
    · exact .inl (R.ends hA hm.2 h)
    · exact .inl (R.trans hm.2 (R.fault m c))
    · exact .inr ⟨hr, m, hm.2, rfl⟩
    · exact .inl (R.writes hA hc hb hw)

/-- It holds up to every state that a command passes, and from there to its end. -/
theorem exec_states {i : Instr} {s t v : State} (hA : A i)
    (hQ : ∀ w ∈ s.windows, ∀ x ∈ w, Allowed A W x) (he : Machine.exec i s = .next t)
    (hc : firstFail (instrChecks i s.cur s) = none) (hv : v ∈ commandStates i s)
    (hr : ¬Ahead s .reset) : D s v ∧ D v t := by
  obtain ⟨hf, ⟨c, hc', _⟩ | ⟨_, e, _⟩⟩ := exec_cases he
  · rw [hc] at hc'; cases hc'
  · have hd := R.keeps.states i s hf nofun hQ hc v hv
    simp only [← e] at hd
    rcases hd with ⟨h1, ⟨m, hm, h⟩ | ⟨m, hm, ⟨_, _, _, _, c, _, rfl⟩ | ⟨h, rfl⟩⟩⟩ |
      ⟨⟨m, hm, ⟨_, _, _, _, c, _, rfl⟩ | ⟨h, rfl⟩⟩, rfl⟩
    · exact ⟨h1.2, R.ends hA hm.2 h⟩
    · exact ⟨h1.2, R.trans hm.2 (R.fault m c)⟩
    · exact absurd h hr
    · exact ⟨R.trans hm.2 (R.fault m c), R.refl _⟩
    · exact absurd h hr

/-- A step preserves it, or its item resets the block. -/
theorem step {item : SchedItem} {rest : List SchedItem} {s t : State} (hs : s.sched = item :: rest)
    (hA : ∀ record ∈ item.records, ∀ i r, decode record = .ok (i, r) → A i)
    (hW : item.wakes = true → W) (he : Machine.step s = .next t) :
    D s t ∨ (item.resets = true ∧ ∃ m, D s m ∧ t = m.blockReset) := by
  have h0 : D s { s with sched := rest } := R.issue s rest s.cur s.windows
  cases hf : s.fault with
  | some c =>
    rw [step_halted s item rest c hs hf] at he
    cases item <;> cases he
    exact .inr ⟨rfl, _, h0, rfl⟩
  | none =>
    rw [step_item s item rest hs hf] at he
    cases item with
    | reset => cases he; exact .inr ⟨rfl, _, h0, rfl⟩
    | wake => cases he; exact .inl (R.trans h0 (R.wake _ (hW rfl)))
    | agent a => cases he; exact .inl (R.trans h0 (R.quiet (quiet_agentStep a _)))
    | acquireTake u => cases he; exact .inl (R.trans h0 (R.acquireTake _ u))
    | waitTimeout => cases he; exact .inl (R.trans h0 (R.waitTimeout _))
    | hostBuffer u h bytes => cases he; exact .inl (R.trans h0 (R.giveBuffer _ u h bytes))
    | command u record w =>
      have h1 : D s { s with sched := rest, cur := u, windows := w } := R.issue s rest u w
      simp only [schedStep] at he
      rcases issue_cases u record w { s with sched := rest } with
        ⟨_, e⟩ | ⟨_, _, e⟩ | ⟨_, _, e⟩ | ⟨hb, i, r, hd, e⟩ <;> rw [e] at he
      · cases he; exact .inl h0
      · cases he
      · cases he; exact .inl (R.trans h1 (R.fault _ _))
      · rcases R.exec (hA record (List.mem_cons_self ..) i r hd) hb (allowed_windows hA hW) he with
          h | ⟨⟨x, hx, hr⟩, m, h, e⟩
        · exact .inl (R.trans h1 h)
        · exact .inr ⟨List.any_eq_true.2 ⟨x, hx, by simpa using hr⟩, m, R.trans h1 h, e⟩

/-- It holds up to every state that a step passes, and from there to the step's end, where the item
does not reset the block. -/
theorem states {item : SchedItem} {s t v : State}
    (hA : ∀ record ∈ item.records, ∀ i r, decode record = .ok (i, r) → A i)
    (hW : item.wakes = true → W) (he : Machine.step { s with sched := [item] } = .next t)
    (hr : item.resets = false) (hv : v ∈ item.states s) : D s v ∧ D v t := by
  have whole : D s s ∧ D s t := by
    refine ⟨R.refl s, R.trans (R.issue s [item] s.cur s.windows) ?_⟩
    rcases R.step (s := { s with sched := [item] }) rfl hA hW he with h | ⟨h, _⟩
    · exact h
    · rw [hr] at h; cases h
  unfold SchedItem.states at hv
  split at hv
  · rename_i u record w
    split at hv
    · rename_i i r hd
      split at hv
      · cases List.mem_singleton.1 hv; exact whole
      · rename_i hn
        simp only [not_or, Bool.not_eq_true, Decidable.not_not] at hn
        rcases List.mem_cons.1 hv with rfl | hv
        · exact whole
        · have hf : s.fault = none := by simpa [State.halted] using hn.2.1
          rw [step_item { s with sched := [.command u record w] } _ [] rfl hf] at he
          simp only [schedStep] at he
          rw [issue_exec (s := { s with sched := [] }) hn.1 hd] at he
          have noReset : ¬Ahead { s with sched := [], cur := u, windows := w } .reset := by
            rintro ⟨x, hx, hx'⟩
            have := List.any_eq_false.1 hr x hx
            simp [hx'] at this
          obtain ⟨h1, h2⟩ := R.exec_states (hA record (List.mem_cons_self ..) i r hd)
            (allowed_windows hA hW) he hn.2.2 hv noReset
          exact ⟨R.trans (R.issue s [] u w) h1, h2⟩
    · cases List.mem_singleton.1 hv; exact whole
  · cases List.mem_singleton.1 hv; exact whole

/-- In a run it holds from step `n` up to every state that a later step passes, and from there to
that step's end, unless an item of those steps resets the block. -/
theorem run {state : Nat → State} {item : Nat → SchedItem} (hx : Execution state item) (n : Nat)
    (hA : ∀ m, n ≤ m → ∀ record ∈ (item m).records, ∀ i r, decode record = .ok (i, r) → A i)
    (hW : ∀ m, n ≤ m → (item m).wakes = true → W) (m : Nat) (hm : n ≤ m) (v : State)
    (hv : v ∈ (item m).states (state m)) :
    (∃ k, n ≤ k ∧ (item k).resets = true) ∨ (D (state n) v ∧ D v (state (m + 1))) := by
  by_cases hr : ∃ k, n ≤ k ∧ (item k).resets = true
  · exact .inl hr
  · have go (k : Nat) (hk : n ≤ k) (u : State) (hu : u ∈ (item k).states (state k)) :
        D (state k) u ∧ D u (state (k + 1)) :=
      R.states (hA k hk) (hW k hk) (hx.next k)
        (by cases h : (item k).resets with
          | false => rfl
          | true => exact absurd ⟨k, hk, h⟩ hr) hu
    have upTo (k : Nat) (hk : n ≤ k) : D (state n) (state k) := by
      induction k, hk using Nat.le_induction with
      | base => exact R.refl _
      | succ k hk ih => exact R.trans ih (go k hk _ (SchedItem.mem_states _ _)).2
    obtain ⟨h1, h2⟩ := go m hm v hv
    exact .inr ⟨R.trans (upTo m hm) h1, h2⟩

end Preserved

end Sys2Proof.Machine
end

