-- ==== Sys2Proof/Tests/Slice0.lean ====
section
/-! SUPPORT. Tests: an ill-formed command for each well-formedness check, a record of every command
written out from spec/opcode_table.json, steps whose expected results are vectors of
spec/95_test_vectors.md (named in each docstring), and for each obligation with hypotheses a
concrete state that meets them. -/

namespace Sys2Proof.Tests

open Sys2Proof Sys2Proof.Machine

/-! ## Ill-formed commands are refused (spec/20_memory.md R71, R72, R80, R81; 30_encoding.md R105) -/

/-- Well formed with R11's values. -/
def wf (i : Instr) : Bool := i.wf Config.defaults

theorem test_wf_address : wf (.regRead 0x7F) = true ∧ wf (.regRead 0x80) = false ∧
    wf (.regWrite 0x80 0) = false ∧ wf (.regChangeBits 0x80 0 0) = false ∧
    wf (.regSetBits 0x80 0) = false ∧ wf (.regClearBits 0x80 0) = false := by decide

/-- Five register-number bits and `SPACE_B_BIT` at bit 5 (log 21). -/
theorem test_wf_address_width :
    let cfg := { Config.defaults with regAddrBits := 5, spaceBBit := 0x20 }
    (Instr.regRead 0x3F).wf cfg = true ∧ (Instr.regRead 0x40).wf cfg = false ∧
    readFrame cfg 0x3F = [0xFB, 0x5F] ∧ readFrame cfg 0x1F = [0x5F] := by decide

theorem test_wf_test_register : wf (.testRegRead 0x3F) = true ∧
    wf (.testRegRead 0x40) = false ∧ wf (.testRegWrite 0x40 0) = false := by decide

theorem test_wf_burst : wf (.regReadBurst 0x3F 1 0) = true ∧
    wf (.regReadBurst 0x3F 2 0) = false ∧ wf (.regReadBurst 0x10 0 0) = false ∧
    wf (.regWriteBurst 0x80 1 0) = false ∧ wf (.regWriteBurst 0x40 64 0) = true := by decide

theorem test_wf_fifo_bits : wf (.fifoWrite 0 1) = true ∧ wf (.fifoWrite 0 0) = false := by decide

theorem test_wf_direct : wf (.directCmd 0xC2) = true ∧ wf (.directCmd 0x80) = false := by decide

theorem test_wf_timer : wf (.timerStartFc 1 0) = true ∧ wf (.timerStartFc 2 0) = false ∧
    wf (.timerStartUs 0 0) = false ∧ wf (.timerStop 2) = false := by decide

/-- A duration of more than `DUR_BITS` bits. -/
theorem test_wf_duration :
    let cfg := { Config.defaults with durBits := 16 }
    (Instr.eventWait 0xFFFF).wf cfg = true ∧ (Instr.eventWait 0x10000).wf cfg = false ∧
    (Instr.timerStartFc 0 0x10000).wf cfg = false ∧
    (Instr.timerStartUs 1 0x10000).wf cfg = false := by decide

theorem test_wf_mode : wf (.setMode 1 3) = true ∧ wf (.setMode 0 0) = false ∧
    wf (.setMode 3 0) = false ∧ wf (.setMode 1 4) = false := by decide

theorem test_wf_short_frame : wf (.txShortFrame 1) = true ∧ wf (.txShortFrame 2) = false := by
  decide

theorem test_wf_encode : wf (.iso15693EncodeFrame 0 8 1) = true ∧
    wf (.iso15693EncodeFrame 0 7 1) = false ∧ wf (.iso15693EncodeFrame 1 8 1) = false := by decide

/-! ## Records, from spec/opcode_table.json (byte 0 in bits 7:0 of the word) -/

theorem test_decode_registers :
    decodeTableWord 16 0x0201 = some (.regRead 0x02) ∧
    decodeTableWord 24 0x104302 = some (.regWrite 0x43 0x10) ∧
    decodeTableWord 40 0x050102_1E03 = some (.regReadBurst 0x1E 0x0102 0x05) ∧
    decodeTableWord 40 0x0700022204 = some (.regWriteBurst 0x22 0x0002 0x07) ∧
    decodeTableWord 32 0x48490205 = some (.regChangeBits 0x02 0x49 0x48) ∧
    decodeTableWord 24 0x080206 = some (.regSetBits 0x02 0x08) ∧
    decodeTableWord 24 0x480207 = some (.regClearBits 0x02 0x48) := by decide

theorem test_decode_test_fifo_direct :
    decodeTableWord 16 0x0108 = some (.testRegRead 0x01) ∧
    decodeTableWord 24 0x100409 = some (.testRegWrite 0x04 0x10) ∧
    decodeTableWord 32 0x013C000A = some (.fifoWrite 0x00 316) ∧
    decodeTableWord 16 0x010B = some (.fifoRead 0x01) ∧
    decodeTableWord 16 0xDB0C = some (.directCmd 0xDB) := by decide

theorem test_decode_events :
    decodeTableWord 8 0x10 = some .lpExit ∧ decodeTableWord 8 0x11 = some .lpEnter ∧
    decodeTableWord 48 0x0100_1388_0012 = some (.timerStartFc 0x00 0x01001388) ∧
    decodeTableWord 48 0x000003E80113 = some (.timerStartUs 0x01 1000) ∧
    decodeTableWord 16 0x0114 = some (.timerStop 0x01) ∧
    decodeTableWord 40 0x0100006415 = some (.eventWait 0x01000064) ∧
    decodeTableWord 8 0x16 = some .abortRequest := by decide

theorem test_decode_technology :
    decodeTableWord 24 0x020120 = some (.setMode 0x01 0x02) ∧
    decodeTableWord 8 0x21 = some .resetMode ∧
    decodeTableWord 32 0x01100022 = some (.transmit 0x00 0x0110) ∧
    decodeTableWord 16 0x0123 = some (.receive 0x01) ∧
    decodeTableWord 16 0x0124 = some (.txShortFrame 0x01) ∧
    decodeTableWord 8 0x25 = some .listenerSleep ∧
    decodeTableWord 8 0x26 = some .listenerIdle := by decide

theorem test_decode_codec :
    decodeTableWord 56 0x01000000080030 = some (.iso15693EncodeFrame 0x00 8 0x01) ∧
    decodeTableWord 56 0x03020000110231 = some (.iso15693DecodeFrame 0x02 0x02000011 0x03) := by
  decide

theorem test_decode_controller :
    decodeTableWord 8 0x40 = some .init ∧ decodeTableWord 8 0x41 = some .deinit ∧
    decodeTableWord 8 0x42 = some .acquire ∧ decodeTableWord 8 0x43 = some .release ∧
    decodeTableWord 8 0x44 = some .fieldOn ∧ decodeTableWord 8 0x45 = some .fieldDetectStart ∧
    decodeTableWord 8 0x46 = some .fieldDetectStop ∧ decodeTableWord 8 0x47 = some .fieldPresent := by
  decide

/-- VX21 and a record cut short (R105, R106). -/
theorem test_decode_refuses :
    decode [0x17] = .error (.illegalOpcode 0x17) ∧ decode [0x27] = .error (.illegalOpcode 0x27) ∧
    decode [0x32] = .error (.illegalOpcode 0x32) ∧ decode [0x48] = .error (.illegalOpcode 0x48) ∧
    decode [0xFF] = .error (.illegalOpcode 0xFF) ∧ decode [0x02, 0x43] = .error .shortRecord ∧
    decode [] = .error .shortRecord := by decide

/-! ## Small states (spec/95_test_vectors.md, section 0) -/

/-- The parameters of the spec's vectors. -/
def cfg0 : Params :=
  { Config.defaults with
    compPFwt := ⟨1000, 0, 1000, 0⟩
    compPFdt := ⟨500, 0, 500, 0⟩
    compLFdt := ⟨300, 0, 0, 0⟩
    hasListener := ⟨true, false, true, true⟩
    waitMask := ⟨⟨14, 14, 14, 14⟩, ⟨26, 26, 26, 26⟩⟩
    fieldDetectSeqOn := [.regWrite 0x02 0x83]
    fieldDetectSeqOff := [.regClearBits 0x02 0x80]
    fieldPresentReg := 0x31
    fieldPresentMask := 0x40
    eventRows := [⟨.poller, .v, 2, 0x10, 4⟩, ⟨.poller, .v, 4, 0, 0x20⟩, ⟨.poller, .v, 12, 0, 0x60⟩,
      ⟨.poller, .v, 1, 0, 0⟩] }

/-- The reset state with those parameters and the line low. -/
def base : State := { State.reset with cfg := cfg0, irqLine := false }

/-- Initialised, the lock held by thread 0. -/
def ready : State := { base with phase := .ready, holder := some 0 }

/-- Out of low power, both timers initialised. -/
def up : State :=
  { ready with
    lp := false
    fwt := { Timer.reset with init := true }
    btx := { Timer.reset with init := true } }

/-- A mode and technology selected. -/
def selected (m : Mode) (x : Tech) : State := { up with mode := m, tech := some x, ctx := some x }

/-- Thread 0's handles 0, 1, … with these bytes. -/
def State.bufsOf (s : State) (l : List (List Byte)) : State :=
  { s with bufs := l.zipIdx.map fun p => (p.2, bufferOf p.1) }

/-- Bytes the chip has ready. -/
def State.chip (s : State) (bytes : List Byte) : State := { s with chipIn := bytes }

/-- One step that issues a record of thread 0. -/
def issued (record : List Byte) (s : State) : Host.Outcome State Fault Refusal :=
  step { s with sched := [.command 0 record []] }

/-- The frames' bytes, the result records and the fault after that step. -/
def did (record : List Byte) (s : State) :
    List (List Byte) × List (List Byte) × Option FatalCode :=
  match issued record s with
  | .next t => (t.bus.map BusFrame.tx, t.results.map Result.record, t.fault)
  | _ => ([], [], none)

/-- A field after that step. -/
def field {α : Type} (f : State → α) (record : List Byte) (s : State) : Option α :=
  match issued record s with
  | .next t => some (f t)
  | _ => none

/-! ## Driver -/

/-- VR2. -/
theorem test_regRead : did [0x01, 0x45] (State.chip ready [0x3C]) =
    ([[0xFB, 0x45]], [[0x00, 0x3C]], none) := by decide

/-- VR3. -/
theorem test_regRead_bad : did [0x01, 0x80] ready = ([], [], some .badOperand) := by decide

/-- VR4. -/
theorem test_regWrite : did [0x02, 0x43, 0x10] ready = ([[0xFB, 0x03, 0x10]], [[0x00]], none) := by
  decide

/-- VR6. -/
theorem test_regReadBurst :
    let s := State.chip (State.bufsOf ready [[1, 2, 3, 4]]) [0x05, 0x06]
    did [0x03, 0x1E, 0x02, 0x00, 0x00] s = ([[0x5E]], [[0x00]], none) ∧
    field (fun t => t.bufBytes 0 0 4) [0x03, 0x1E, 0x02, 0x00, 0x00] s = some [5, 6, 3, 4] := by
  decide

/-- VR11. -/
theorem test_regWriteBurst : did [0x04, 0x22, 0x02, 0x00, 0x00] (State.bufsOf ready [[0x00, 0x43]]) =
    ([[0x22, 0x00, 0x43]], [[0x00]], none) := by decide

/-- VR12. -/
theorem test_regChangeBits : did [0x05, 0x02, 0x48, 0x48] (State.chip ready [0x80]) =
    ([[0x42], [0x02, 0xC8]], [[0x00]], none) := by decide

/-- VR13. -/
theorem test_regChangeBits_same : did [0x05, 0x02, 0x48, 0x48] (State.chip ready [0xC8]) =
    ([[0x42]], [[0x00]], none) := by decide

/-- VR15. -/
theorem test_regSetBits : did [0x06, 0x02, 0x08] (State.chip ready [0x08]) =
    ([[0x42]], [[0x00]], none) := by decide

/-- VR16. -/
theorem test_regClearBits : did [0x07, 0x02, 0x48] (State.chip ready [0xC8]) =
    ([[0x42], [0x02, 0x80]], [[0x00]], none) := by decide

/-- VR17. -/
theorem test_testRegRead : did [0x08, 0x01] (State.chip ready [0x5A]) =
    ([[0xFC, 0x41]], [[0x00, 0x5A]], none) := by decide

/-- VR19. -/
theorem test_testRegWrite : did [0x09, 0x04, 0x10] ready =
    ([[0xFC, 0x04, 0x10]], [[0x00]], none) := by decide

/-- VF1. -/
theorem test_fifoWrite : did [0x0A, 0x00, 0x07, 0x00] (State.bufsOf ready [[0x26]]) =
    ([[0x22, 0x00, 0x07], [0x80, 0x26]], [[0x00]], none) := by decide

/-- VF3's length registers. -/
theorem test_fifoWrite_length : txLenFrame cfg0 316 = [0x22, 0x01, 0x3C] := by decide

/-- VF5. -/
theorem test_fifoRead :
    let s := State.chip (State.bufsOf ready [[], [9, 9, 9, 9]]) [0x03, 0x0A, 0x11, 0x22, 0x05]
    did [0x0B, 0x01] s = ([[0x5E], [0x9F]], [[0x00, 0x00, 0x15, 0x00]], none) ∧
    field (fun t => t.bufBytes 0 1 4) [0x0B, 0x01] s = some [0x11, 0x22, 0x05, 9] := by decide

/-- VF8: one frame, status OVERFLOW, nothing stored. -/
theorem test_fifoRead_overflow :
    let s := State.chip (State.bufsOf ready [[], [9, 9, 9, 9]]) [0x05, 0x00]
    field (fun t => (t.bus.map BusFrame.tx, t.results.map fun r => r.record.take 2,
      t.bufBytes 0 1 4)) [0x0B, 0x01] s = some ([[0x5E]], [[0x00, 0x02]], [9, 9, 9, 9]) := by decide

/-- VK1 and VK3. -/
theorem test_directCmd : did [0x0C, 0xDB] ready = ([[0xDB]], [[0x00]], none) ∧
    did [0x0C, 0xFB] ready = ([], [], some .badOperand) := by decide

/-! ## Events and timers -/

/-- VE16. -/
theorem test_lpExit : field (fun t => (t.lp, t.fwt.init, t.btx.init)) [0x10] ready =
    some (false, true, true) := by decide

/-- VE18. -/
theorem test_lpEnter :
    field (fun t => (t.lp, t.fwt.init, t.fwt.run, t.evf)) [0x11]
      { up with fwt := { up.fwt with run := true }, evf := 2 } = some (true, false, false, 2) := by
  decide

/-- VT11. -/
theorem test_timerStartFc : field (fun t => (t.fwt.run, t.fwt.psc, t.fwt.arr))
    [0x12, 0x00, 0x88, 0x13, 0x00, 0x00] (selected .poller .v) = some (true, 0, 18879) := by decide

/-- VT9: a start that the compensation swallows. -/
theorem test_timerStartFc_noop : field (fun t => (t.fwt.run, t.fault))
    [0x12, 0x00, 0xE8, 0x03, 0x00, 0x00] (selected .poller .v) = some (false, none) := by decide

/-- VT17. -/
theorem test_timerStartUs : field (fun t => (t.btx.run, t.btx.psc, t.btx.arr))
    [0x13, 0x01, 0xE8, 0x03, 0x00, 0x00] up = some (true, 0, 64000) := by decide

/-- VT18. -/
theorem test_timerStartUs_fwt : did [0x13, 0x00, 0xE8, 0x03, 0x00, 0x00] up =
    ([], [], some .badOperand) := by decide

/-- VT15. -/
theorem test_timerStop : field (fun t => t.fwt.pend) [0x14, 0x00]
    { up with fwt := { up.fwt with pend := true } } = some false := by decide

/-- VT3, VT5, VT7 and VT8. -/
theorem test_arm : (armPsc 65536, armArr 65536) = (1, 32768) ∧
    (armPsc 131071, armArr 131071) = (2, 43690) ∧
    (armPsc 4294901760, armArr 4294901760) = (65535, 65535) ∧
    armFails 4294901760 = false ∧ armFails 4294901761 = true := by decide

/-- VE9. -/
theorem test_eventWait : did [0x15, 0x00, 0x00, 0x00, 0x00]
    { selected .poller .v with evf := 2, irqAcc := 0x10 } =
    ([], [[0x00, 0x04, 0x00, 0x00, 0x00]], none) := by decide

/-- VE8. -/
theorem test_eventWait_timeout : did [0x15, 0x00, 0x00, 0x00, 0x00]
    { selected .poller .v with evf := 16 } =
    ([], [[0x00, 0x01, 0x00, 0x00, 0x00]], none) := by decide

/-- VX24. -/
theorem test_abortRequest : field (fun t => (t.evf, t.results.map Result.record)) [0x16] base =
    some (1, [[0x00]]) := by decide

/-- VE3: the drain's read, then its exit. -/
theorem test_drain :
    let s := agentStep .drainStep (agentStep .drainEnter
      (State.chip { up with irqLine := true } [0x10, 0x00, 0x00, 0x00]))
    let t := agentStep .drainStep (agentStep (.line false) s)
    s.bus.map BusFrame.tx = [[0x5A]] ∧ t.irqAcc = 0x10 ∧ t.evf = 2 := by decide

/-- R300: a drain that a DEINIT left Draining takes no step between INIT's frames, and goes on after
INIT. -/
theorem test_no_drain_during_init :
    let item := SchedItem.command 0 [0x40] [[.agent .drainStep, .agent .drainEnter]]
    (match step { base with
        cfg := { cfg0 with bringupSeq := [.directCmd 0xC2, .directCmd 0xDB] }
        bringupIn := [.ok], irqAgent := .draining, sched := [item] } with
      | .next t => (t.bus.map BusFrame.tx, t.irqAgent, t.evf, t.phase, (agentStep .drainStep t).evf)
      | _ => ([], .idle, 0, .uninit, 0)) =
      ([[0xC2], [0xDB]], .draining, 0, .ready, 2) := by decide

/-- VE1. -/
theorem test_expiry :
    let s := agentStep (.deliver .fwt) (agentStep (.expire .fwt)
      { up with fwt := { up.fwt with run := true } })
    (s.fwt.run, s.fwt.pend, s.evf) = (false, false, 4) := by decide

/-! ## Technology layer -/

/-- VM1. -/
theorem test_setMode : field (fun t => (t.mode, t.tech, t.ctx)) [0x20, 0x01, 0x02] up =
    some (.poller, some .v, some .v) := by decide

/-- R139, R232, D33: a sequence runs unchecked. An address, a buffer and a bit count that the commands
refuse raise nothing, and what does not fit the buffer of one byte is not stored (log 22). -/
theorem test_sequence_unchecked :
    let s := { State.chip (State.bufsOf up [[0x26]]) [7, 8] with
      cfg := { cfg0 with roleSetupPoller :=
        [.regWrite 0x80 0x01, .regReadBurst 0x3F 2 0, .fifoWrite 5 0, .directCmd 0x12] } }
    did [0x20, 0x01, 0x02] s =
      ([[0x00, 0x01], [0x7F], [0x22, 0x00, 0x00], [0x80], [0x12]], [[0x00]], none) ∧
    field (fun t => (t.cap 0 0, t.bufByte 0 0 0, bufsWf t.bufs)) [0x20, 0x01, 0x02] s =
      some (1, 7, true) := by decide

/-- VM3. -/
theorem test_setMode_no_listener : did [0x20, 0x02, 0x01] up = ([], [], some .noListener) := by
  decide

/-- VM4's RESET_MODE. -/
theorem test_resetMode : did [0x21] (selected .poller .a) = ([[0xC2]], [[0x00]], none) := by decide

/-- VM7. -/
theorem test_transmit : did [0x22, 0x00, 0x07, 0x00] (State.bufsOf (selected .poller .a) [[0x26]]) =
    ([[0xDB], [0x22, 0x00, 0x07], [0x80, 0x26], [0xC5]], [[0x00]], none) := by decide

/-- VM19. -/
theorem test_transmit_v : did [0x22, 0x00, 0x08, 0x00]
    (State.bufsOf (selected .poller .v) [[0x26]]) =
    ([[0xDB], [0x22, 0x00, 0x30], [0x80, 0x21, 0x20, 0x08, 0x20, 0x02, 0x04], [0xC5]], [[0x00]],
      none) := by decide

/-- VM8. -/
theorem test_receive : did [0x23, 0x01]
    (State.chip (State.bufsOf (selected .poller .a) [[], [9, 9, 9]]) [0x02, 0x08, 0x44, 0x00]) =
    ([[0x5E], [0x9F]], [[0x00, 0x0C, 0x00]], none) := by decide

/-- VM22. -/
theorem test_receive_v :
    let s := State.chip (State.bufsOf (selected .poller .v) [[], [9]])
      [0x04, 0x0A, 0x37, 0x2D, 0xAB, 0x03]
    field (fun t => (t.results.map Result.record, t.bufByte 0 1 0)) [0x23, 0x01] s =
      some ([[0x00, 0x08, 0x00]], 0x26) := by decide

/-- VM12 and VM14. -/
theorem test_txShortFrame : did [0x24, 0x01] (selected .poller .a) =
    ([[0xDB], [0xC7]], [[0x00]], none) ∧
    did [0x24, 0x02] (selected .poller .a) = ([], [], some .badOperand) := by decide

/-- VM15. -/
theorem test_listenerSleep : did [0x25] (selected .listener .a) = ([[0xCE]], [[0x00]], none) := by
  decide

/-- VM16. -/
theorem test_listenerIdle : did [0x26] (selected .listener .a) = ([[0xCD]], [[0x00]], none) := by
  decide

/-! ## Codec -/

/-- VX1: the source's own example (V1). -/
theorem test_encode :
    let s := State.bufsOf base [[0x26], [0, 0, 0, 0, 0, 0]]
    field (fun t => (t.results.map Result.record, t.bufBytes 0 1 6))
      [0x30, 0x00, 0x08, 0x00, 0x00, 0x00, 0x01] s =
      some ([[0x00, 0x06, 0x00, 0x00, 0x00]], [0x21, 0x20, 0x08, 0x20, 0x02, 0x04]) := by decide

/-- VX8. -/
theorem test_encode_capacity : did [0x30, 0x00, 0x08, 0x00, 0x00, 0x00, 0x01]
    (State.bufsOf base [[0x26], [0, 0, 0, 0, 0]]) = ([], [], some .encodeCapacity) := by decide

/-- VD21. -/
theorem test_decode :
    let s := State.bufsOf base [[0xB7, 0xAA, 0x4A, 0xB5, 0xAA, 0x03], [0, 0]]
    field (fun t => (t.results.map Result.record, t.bufBytes 0 1 2))
      [0x31, 0x00, 0x2D, 0x00, 0x00, 0x00, 0x01] s =
      some ([[0x00, 0x10, 0x00, 0x00, 0x00]], [0x00, 0x0F]) := by decide

/-- VD4, VD8, VD19 and VD22. -/
theorem test_decode_errors :
    decodeStream cfg0 [0x17] 8 8 = .fail .incompleteFrame ∧
    decodeStream cfg0 [0xB7, 0x03] 10 8 = .fail .dataFormat ∧
    decodeStream cfg0 [0xD7, 0x3B, 0x00] 17 8 = .fail .dataFormat ∧
    decodeStream cfg0 [0xB7, 0xAA, 0x4A, 0xB5, 0xAA, 0x03] 45 8 = .fail .dataFormat := by decide

/-! ## Controller -/

/-- VC1 and VC2. -/
theorem test_init :
    field (fun t => (t.phase, t.results.map Result.record)) [0x40] { base with bringupIn := [.ok] } =
      some (.ready, [[0x00]]) ∧
    field (fun t => (t.phase, t.results.map Result.record)) [0x40]
      { base with bringupIn := [.oscillator] } = some (.uninit, [[0x04]]) := by decide

/-- VC4. -/
theorem test_init_twice : did [0x40] ready = ([], [], some .illegalCommand) := by decide

/-- VC16. -/
theorem test_deinit : field (fun t => (t.phase, t.evf, t.fwt, t.lp)) [0x41]
    { up with holder := none, evf := 1, fwt := ⟨true, true, false, 7, 9⟩ } =
    some (.uninit, 0, ⟨false, false, false, 0, 0⟩, true) := by decide

/-- VC6 and VC7. -/
theorem test_acquire : field (fun t => t.holder) [0x42] { ready with holder := none } =
    some (some 0) ∧ did [0x42] ready = ([], [[0x01]], none) := by decide

/-- VC13 and VC14. -/
theorem test_release : field (fun t => t.holder) [0x43] ready = some none ∧
    did [0x43] { ready with holder := none } = ([], [], some .notHolder) := by decide

/-- VC9's first call. -/
theorem test_fieldOn : did [0x44] (State.chip ready [0x80, 0x80]) =
    ([[0x42], [0xFB, 0x15, 0x00], [0x42], [0x02, 0xC8]], [[0x00]], none) := by decide

/-- VC8. -/
theorem test_fieldOn_again : did [0x44] (State.chip ready [0xC8]) =
    ([[0x42]], [[0x00]], none) := by decide

/-- VC12. -/
theorem test_fieldDetectStart : did [0x45] ready = ([[0x02, 0x83]], [[0x00]], none) := by decide

/-- R309, with the sequence of `cfg0`. -/
theorem test_fieldDetectStop : did [0x46] (State.chip ready [0x83]) =
    ([[0x42], [0x02, 0x03]], [[0x00]], none) := by decide

/-- VC10 and VC11. -/
theorem test_fieldPresent : did [0x47] (State.chip ready [0x40]) =
    ([[0x71]], [[0x00, 0x01]], none) ∧
    did [0x47] (State.chip ready [0x00]) = ([[0x71]], [[0x00, 0x00]], none) := by decide

/-! ## Halted block, reset, and what stands between two frames -/

/-- VX23. -/
theorem test_halted : issued [0x16] { base with fault := some .noLock } = .fault (.halted .noLock) :=
  rfl

/-- VX25. -/
theorem test_reset :
    (match step { up with fault := some .noLock, sched := [.reset] } with
      | .next t => decide (t = base) | _ => false) = true := by decide

/-- P4 step 5: a blocked ACQUIRE ends in Busy by its timeout. -/
theorem test_acquire_blocks :
    let s := match step { ready with sched := [.command 1 [0x42] [],
        .agent (.acquireTimeout 1)] } with | .next t => t | _ => base
    s.acquirers = [1] ∧ s.results = [] ∧
    (match step s with | .next t => (t.acquirers, t.results) | _ => ([], [])) =
      ([], [⟨1, [0x01]⟩]) := by decide

/-- R86: an abort request of thread 1 stands between the two frames of thread 0's command. -/
theorem test_between_frames :
    (match step { State.chip ready [0x80] with
        sched := [.command 0 [0x06, 0x02, 0x08] [[.command 1 [0x16]]]] } with
      | .next t => (t.evf, t.results, t.bus.map BusFrame.tx) | _ => (0, [], [])) =
      (1, [⟨1, [0x00]⟩, ⟨0, [0x00]⟩], [[0x42], [0x02, 0x88]]) := by decide

/-- DEINIT of thread 0 with two frames, the lock free, and thread 1's steps between them. -/
def deinitBeside (window : List WindowStep) : Option FatalCode × Phase × List Result :=
  match step { up with
      cfg := { cfg0 with deinitSeq := [.directCmd 0xC2, .directCmd 0xDB] }
      holder := none, sched := [.command 0 [0x41] [window]] } with
  | .next t => (t.fault, t.phase, t.results)
  | _ => (none, .ready, [])

/-- R86, R302: thread 1 takes the lock between DEINIT's frames and gives it back. -/
theorem test_acquire_beside_deinit :
    deinitBeside [.command 1 [0x42], .command 1 [0x0C, 0xC2], .command 1 [0x43]] =
      (none, .uninit, [⟨1, [0x00]⟩, ⟨1, [0x00]⟩, ⟨1, [0x00]⟩, ⟨0, [0x00]⟩]) := by decide

/-- R86, R93: thread 1 sets a bit of register 0x02 between the frames of thread 0's DEINIT. Its read
frame, a drain step, a frame of DEINIT, its write frame and the last frame of DEINIT come in this
order; where a reset comes first, its write frame does not come; and DEINIT's last frame does not come
before it (log 7). -/
def alternate (windows : List (List WindowStep)) :
    List (List Byte) × Option FatalCode × Phase × List ThreadId :=
  match step (State.chip { up with
      cfg := { cfg0 with deinitSeq := [.directCmd 0xC2, .directCmd 0xDB, .directCmd 0xC4] }
      holder := none, irqAgent := .draining, irqLine := true
      sched := [.command 0 [0x41] windows] } [0x80, 0x10, 0x00, 0x00, 0x00]) with
  | .next t => (t.bus.map BusFrame.tx, t.fault, t.phase, t.results.map Result.thread)
  | _ => ([], none, .ready, [])

theorem test_frames_alternate :
    alternate [[.command 1 [0x42], .command 1 [0x06, 0x02, 0x08], .agent .drainStep],
        [.resume 1, .command 1 [0x43]]] =
      ([[0xC2], [0x42], [0x5A], [0xDB], [0x02, 0x88], [0xC4]], none, .uninit, [1, 1, 1, 0]) ∧
    alternate [[.command 1 [0x42], .command 1 [0x06, 0x02, 0x08], .reset, .resume 1]] =
      ([[0xC2], [0x42]], none, .uninit, [1]) ∧
    alternate [[.command 1 [0x42]], [.command 1 [0x06, 0x02, 0x08]]] =
      ([], none, .ready, []) := by decide

/-- R313, R326: where thread 1 keeps it, DEINIT's last step is not enabled: no run has these windows,
and nothing happens (log 7). -/
theorem test_lock_kept_beside_deinit :
    deinitBeside [.command 1 [0x42]] = (none, .ready, []) := by decide

/-- R312, R326, R327: another thread's failed check between DEINIT's frames halts the block there. -/
theorem test_fault_beside_deinit :
    deinitBeside [.command 1 [0x42], .command 1 [0x0C, 0x00]] =
      (some .badOperand, .ready, [⟨1, [0x00]⟩]) := by decide

/-- R360: a reset between the two frames ends the command. -/
theorem test_reset_between_frames :
    (match step { State.chip ready [0x80] with
        sched := [.command 0 [0x06, 0x02, 0x08] [[.reset]]] } with
      | .next t => (t.phase, t.results, t.bus.map BusFrame.tx) | _ => (.ready, [], [])) =
      (.uninit, [], [[0x42]]) := by decide

/-- A table word placed where the step takes its next command. -/
theorem test_withFetchWord :
    (match step (base.withFetchWord 8 0x16) with | .next t => t.evf | _ => 0) = 1 := by decide

/-! ## Witnesses: the hypotheses of the obligations hold together -/

theorem witness_EncodeDecodeAgree : decode [0x0B, 0x01, 0xFF] = .ok (.fifoRead 0x01, [0xFF]) := rfl

theorem witness_IllegalOpcodeFaults :
    let s : State := { ready with sched := [.command 1 [0x0D, 0x00] []] }
    s.fault = none ∧ s.blocked 1 = false ∧ s.sched = .command 1 (0x0D :: [0x00]) [] :: [] ∧
    (0x0D : Byte) ∉ ([0x01, 0x02, 0x03, 0x04, 0x05, 0x06, 0x07, 0x08, 0x09, 0x0A, 0x0B, 0x0C,
      0x10, 0x11, 0x12, 0x13, 0x14, 0x15, 0x16, 0x20, 0x21, 0x22, 0x23, 0x24, 0x25, 0x26,
      0x30, 0x31, 0x40, 0x41, 0x42, 0x43, 0x44, 0x45, 0x46, 0x47] : List Byte) := by decide

theorem witness_StepRunsDecoded :
    let s : State := { ready with sched := [.command 0 [0x47] [[.agent .abort]]] }
    s.fault = none ∧ s.blocked 0 = false ∧ s.sched = .command 0 [0x47] [[.agent .abort]] :: [] ∧
    decode [0x47] = .ok (.fieldPresent, []) := by decide

/-- A thread blocked in ACQUIRE behind the holder. -/
def queued : State := { ready with acquirers := [1] }

theorem witness_StepOfOtherItems :
    (ready.fault = none ∧ ready.sched = []) ∧
    (let s : State := { ready with sched := [.agent .trxIn] };
      s.fault = none ∧ s.sched = .agent .trxIn :: []) ∧
    (let s : State := { queued with sched := [.command 1 [0x16] []] };
      s.fault = none ∧ s.sched = .command 1 [0x16] [] :: [] ∧ s.blocked 1 = true) ∧
    (let s (h : Byte) : State := { base with sched := [.hostBuffer 1 h [7, 0]] };
      (s 0xFF).sched = .hostBuffer 1 0xFF [7, 0] :: [] ∧
      (s 0).sched = .hostBuffer 1 0 [7, 0] :: [] ∧ (0 : Byte) ≠ 0xFF ∧
      1 < ([7, 0] : List Byte).length ∧ ¬((1 : ThreadId) = 1 ∧ (1 : Byte) = 0)) := by decide

/-- A halted block. -/
def halted : State := { up with fault := some .role }

theorem witness_HaltedOnlyResetMoves :
    halted.fault = some .role ∧
    (let s : State := { halted with sched := [.wake, .reset] };
      s.sched = .wake :: [.reset] ∧ SchedItem.wake ≠ .reset) ∧
    (let s : State := { halted with sched := [.reset] };
      s.sched = .reset :: []) := by decide

theorem witness_ResetLeavesBlockState :
    { halted with sched := [.reset] }.sched = .reset :: [] := rfl

/-- A session: a poller waits, its timer runs, causes are kept. -/
def session : State :=
  { selected .poller .v with
    fwt := { up.fwt with run := true }
    irqAcc := 0xFFFFFFFF
    waiter := some ⟨0, 100⟩
    evf := 4 }

theorem session_inv (sched : List SchedItem) : State.Inv { session with sched := sched } where
  mode_tech := ⟨nofun, nofun⟩
  ctx_tech := rfl
  uninit_free := nofun
  uninit_mode := nofun
  uninit_lp := nofun
  waiter_holder w h := by cases h; rfl
  lp_timers := nofun
  fwt_sound := nofun
  btx_sound := nofun
  causes_fit := (by decide : 0xFFFFFFFF < 2 ^ (8 * 4))

theorem witness_InvKept : ∃ t,
    State.Inv { session with sched := [.wake] } ∧
    step { session with sched := [.wake] } = .next t :=
  ⟨_, session_inv _, rfl⟩

/-- Thread 0's handles 0 and 1 hold buffers of 1 and 6 bytes. -/
def buffers : State := State.bufsOf ready [[0x26], [1, 2, 3, 0, 5, 6]]

theorem witness_BufferFormKept : ∃ t,
    let s : State :=
      { State.chip buffers [0, 7, 0, 7, 0, 7] with
        sched := [.command 0 [0x03, 0x3A, 0x06, 0x00, 0x01] []] }
    s.bufsOk ∧ step s = .next t :=
  ⟨_, rfl, rfl⟩

theorem witness_ModeWriters : ∃ t : State,
    let item : SchedItem := .command 0 [0x16] [[.command 1 [0x16]]]
    let s : State := { session with waiter := none, sched := [item] }
    s.sched = item :: [] ∧ step s = .next t ∧ (s.mode = .none ↔ s.tech = none) ∧
    item.resets = false ∧
    (∀ record ∈ item.records, ∀ i r, decode record = .ok (i, r) →
      i ≠ .resetMode ∧ ∀ m x, i ≠ .setMode m x) := by
  refine ⟨_, rfl, rfl, ⟨nofun, nofun⟩, rfl, ?_⟩
  intro record h i r hd
  have : record = [0x16] := by simpa [SchedItem.records] using h
  subst this
  cases hd
  exact ⟨nofun, fun _ _ => nofun⟩

theorem witness_LockFreeWhileUninit : ∃ t : State,
    let s : State := { base with bringupIn := [.communication], sched := [.command 0 [0x40] []] }
    (s.phase = .uninit → s.holder = none) ∧ step s = .next t ∧ t.phase = .uninit :=
  ⟨_, fun _ => rfl, rfl, rfl⟩

/-- A failing check; a passing one beside which thread 1's record fails (`witness_window_faults`); and
thread 1's record by itself. -/
theorem witness_FailedCheckIsFault : ready.fault = none ∧
    firstFail (instrChecks (.regRead 0x80) ready.cur ready) = some .badOperand ∧
    (1 : ThreadId) ≠ ready.cur ∧ ready.blocked 1 = false ∧ inProgress 1 [] = false ∧
    decode [0x43] = .ok (.release, []) ∧ lifecycle .release = false ∧
    firstFail (instrChecks .release 1 ready) = some .notHolder := by
  refine ⟨rfl, by decide, by decide, by decide, by decide, rfl, rfl, by decide⟩

theorem witness_window_faults : ∃ t,
    let s : State := { State.chip ready [0x80] with windows := [[.command 1 [0x43]]] }
    s.fault = none ∧ exec (.regSetBits 0x02 0x08) s = .next t ∧ t.fault = some .notHolder :=
  ⟨_, rfl, rfl, rfl⟩

/-- The code a command's checks report. -/
def code (i : Instr) (s : State) : Option FatalCode := firstFail (instrChecks i s.cur s)

/-- Each clause at a boundary of its operand. -/
theorem witness_CheckOrderDriver : buffers.fault = none ∧
    code (.regRead 0x80) { buffers with holder := none } = some .noLock ∧
    code (.regRead 0x80) buffers = some .badOperand ∧ code (.regRead 0x7F) buffers = none ∧
    code (.testRegRead 0x40) buffers = some .badOperand ∧
    code (.testRegRead 0x3F) buffers = none ∧
    code (.regReadBurst 0x3F 0 0xFF) buffers = some .badOperand ∧
    code (.regReadBurst 0x3F 1 0xFF) buffers = some .nullArg ∧
    code (.regReadBurst 0x3F 2 1) buffers = some .badOperand ∧
    code (.regReadBurst 0x10 7 1) buffers = some .badOperand ∧
    code (.regReadBurst 0x3A 6 1) buffers = none ∧
    code (.fifoWrite 0xFF 0) buffers = some .nullArg ∧
    code (.fifoWrite 0 0) buffers = some .badOperand ∧
    code (.fifoWrite 0 9) buffers = some .badOperand ∧ code (.fifoWrite 0 8) buffers = none ∧
    code (.fifoRead 2) buffers = some .nullArg ∧ code (.fifoRead 1) buffers = none ∧
    code (.directCmd 0xBF) buffers = some .badOperand ∧
    code (.directCmd 0xFB) buffers = some .badOperand ∧ code (.directCmd 0xC0) buffers = none ∧
    (addrLegal cfg0 0x7F ∧ ¬addrLegal cfg0 0x80 ∧ 2 ^ cfg0.regAddrBits.val = 64) ∧
    (directLegal cfg0 0xC0 ∧ ¬directLegal cfg0 0xBF ∧ ¬directLegal cfg0 0xFB) := by decide

theorem witness_CheckOrderTimers :
    let p := selected .poller .v
    let l := selected .listener .a
    let running : State := { p with fwt := { p.fwt with run := true } }
    p.fault = none ∧ (p.mode ≠ .none → p.mode = modeOfRole .poller ∧ p.tech = some .v) ∧
    (l.mode ≠ .none → l.mode = modeOfRole .listener ∧ l.tech = some .a) ∧
    code .lpExit { p with phase := .uninit } = some .notInit ∧
    code .lpExit { p with holder := some 1 } = some .noLock ∧ code .lpEnter p = none ∧
    code (.timerStop 2) p = some .badOperand ∧ code (.timerStop 1) p = none ∧
    code (.timerStartUs 0 1000) p = some .badOperand ∧
    code (.timerStartUs 1 0) p = some .timerRange ∧ code (.timerStartUs 1 1) p = none ∧
    code (.timerStartFc 2 5000) p = some .badOperand ∧
    code (.timerStartFc 0 5000) ready = some .lowPower ∧
    code (.timerStartFc 0 5000) up = some .noMode ∧
    code (.timerStartFc 0 1000) running = some .timerRunning ∧
    code (.timerStartFc 0 5000) l = some .role ∧ code (.timerStartFc 0 1000) p = none ∧
    code (.timerStartFc 0 1001) p = none ∧
    code (.timerStartFc 0 0xFFFFFFFF) p = some .timerRange ∧
    code (.eventWait 0) up = some .noMode ∧
    code (.eventWait 0) (selected .listener .v) = some .unmodelled ∧
    code (.eventWait 0) l = none ∧
    (let n : State := { p with cfg := { cfg0 with durBits := 10 } };
      code (.timerStartUs 1 1024) n = some .badOperand ∧ code (.timerStartUs 1 1023) n = none ∧
      code (.timerStartFc 1 1024) n = some .badOperand ∧ code (.timerStartFc 1 1023) n = none ∧
      code (.eventWait 1024) n = some .badOperand ∧ code (.eventWait 1023) n = none) := by decide

theorem witness_CheckOrderTechnology :
    let p := State.bufsOf (selected .poller .a) [[0x26]]
    let v := State.bufsOf (selected .poller .v) [[0x26]]
    p.fault = none ∧ (p.mode ≠ .none → p.tech = some .a) ∧ (v.mode ≠ .none → v.tech = some .v) ∧
    code (.setMode 3 0) p = some .badOperand ∧ code (.setMode 1 4) up = some .badOperand ∧
    code (.setMode 1 3) p = some .contextLive ∧ code (.setMode 2 1) up = some .noListener ∧
    code (.setMode 2 3) up = none ∧
    code .resetMode up = some .noMode ∧ code .resetMode p = none ∧
    code (.transmit 0xFF 8) p = some .nullArg ∧ code (.transmit 0 0) p = some .badOperand ∧
    code (.transmit 0 9) p = some .badOperand ∧ code (.transmit 0 8) p = none ∧
    code (.transmit 0 7) v = some .encodeLength ∧ code (.transmit 0 16) v = some .badOperand ∧
    code (.transmit 0 8) { v with cfg := { cfg0 with vTxCap := 5 } } = some .encodeCapacity ∧
    code (.transmit 0 0) v = none ∧ code (.transmit 0 8) v = none ∧
    code (.receive 0) (State.bufsOf (selected .listener .v) [[0]]) = some .unmodelled ∧
    code (.txShortFrame 2) p = some .badOperand ∧ code (.txShortFrame 1) v = some .role ∧
    code (.txShortFrame 1) p = none ∧ code .listenerSleep p = some .role ∧
    code .listenerIdle (selected .listener .f) = none := by decide

theorem witness_CheckOrderCodec : buffers.fault = none ∧
    code (.iso15693EncodeFrame 0 7 0xFF) buffers = some .nullArg ∧
    code (.iso15693EncodeFrame 0 9 1) buffers = some .encodeLength ∧
    code (.iso15693EncodeFrame 0 16 1) buffers = some .badOperand ∧
    code (.iso15693EncodeFrame 1 8 1) buffers = some .badOperand ∧
    code (.iso15693EncodeFrame 1 16 0) buffers = some .encodeCapacity ∧
    code (.iso15693EncodeFrame 0 8 1) buffers = none ∧
    code (.iso15693DecodeFrame 0 9 1) buffers = some .badOperand ∧
    code (.iso15693DecodeFrame 0 8 1) buffers = none := by decide

theorem witness_CheckOrderController : ready.fault = none ∧
    code .init ready = some .illegalCommand ∧ code .init base = none ∧
    code .deinit base = some .notInit ∧ code .deinit ready = some .contextLive ∧
    code .deinit { ready with holder := none } = none ∧
    code .acquire base = some .notInit ∧ code .acquire ready = none ∧
    code .release base = some .notHolder ∧ code .release ready = none ∧
    code .fieldOn base = some .notInit ∧
    code .fieldPresent { ready with holder := none } = some .noLock ∧
    code .fieldDetectStart ready = none := by decide

theorem witness_BeforeInitOnlyFour :
    base.fault = none ∧ base.phase = .uninit ∧ base.holder = none ∧ base.windows = [] ∧
    ¬(Instr.release = .init ∨ Instr.release = .abortRequest ∨
      (∃ b n o, Instr.release = .iso15693EncodeFrame b n o) ∨
      (∃ b n o, Instr.release = .iso15693DecodeFrame b n o)) :=
  ⟨rfl, rfl, rfl, rfl, by rintro (h | h | ⟨_, _, _, h⟩ | ⟨_, _, _, h⟩) <;> cases h⟩

/-! Driver -/

theorem witness_OneFrameCommandsComplete : ready.holding ∧ addrLegal ready.cfg 0x7F ∧
    (0x3F : Byte).toNat < 2 ^ ready.cfg.regAddrBits.val ∧ directLegal ready.cfg 0xC0 ∧
    wireDefaults ready.cfg := by
  unfold State.holding wireDefaults; decide

theorem witness_ReadBurstCompletes : buffers.holding ∧ buffers.bufsOk ∧
    addrLegal buffers.cfg 0x7A ∧ (6 : BitVec 16) ≠ 0 ∧ buffers.buffer buffers.cur 1 ≠ none ∧
    (6 : BitVec 16).toNat ≤ buffers.cap buffers.cur 1 ∧
    (0x7A : Byte).toNat % 2 ^ buffers.cfg.regAddrBits.val + (6 : BitVec 16).toNat ≤
      2 ^ buffers.cfg.regAddrBits.val := by
  unfold State.holding State.bufsOk; decide

theorem witness_WriteBurstCompletes : buffers.holding ∧
    addrLegal buffers.cfg 0x3F ∧ (1 : BitVec 16) ≠ 0 ∧ buffers.buffer buffers.cur 0 ≠ none ∧
    (1 : BitVec 16).toNat ≤ buffers.cap buffers.cur 0 ∧
    (0x3F : Byte).toNat % 2 ^ buffers.cfg.regAddrBits.val + (1 : BitVec 16).toNat ≤
      2 ^ buffers.cfg.regAddrBits.val := by
  unfold State.holding; decide

theorem witness_ReadModifyWriteCompletes :
    (let s : State := State.chip { ready with holder := some 1 } [0x80];
      s.fault = none ∧ (1 : ThreadId) ≠ s.cur ∧ s.blocked 1 = false ∧ inProgress 1 [] = false ∧
      s.holder = some 1 ∧ addrLegal s.cfg 0x02 ∧ s.answers 1 = [0x80] ∧
      (0x80 : Byte) ||| 0x08 ≠ 0x80) ∧
    ready.holding ∧ addrLegal ready.cfg 0x7F := by
  unfold State.holding; decide

theorem witness_FifoWriteCompletes : buffers.holding ∧ buffers.buffer buffers.cur 0 ≠ none ∧
    (8 : BitVec 16) ≠ 0 ∧ ((8 : BitVec 16).toNat + 7) / 8 ≤ buffers.cfg.fifoSize ∧
    ((8 : BitVec 16).toNat + 7) / 8 ≤ buffers.cap buffers.cur 0 := by
  unfold State.holding; decide

/-- The chip answers a FIFO status of no byte, of 6 bytes and of 7 bytes. -/
theorem witness_FifoReadCompletes :
    let s (n : Byte) : State := State.chip buffers [n, 0x00]
    (s 0).holding ∧ (s 0).bufsOk ∧ (s 0).windows = [] ∧ (s 0).buffer (s 0).cur 1 ≠ none ∧
    ((s 0).answers 2 = [0, 0x00] ∧ statusCount (s 0).cfg 0 0x00 = 0) ∧
    ((s 7).answers 2 = [7, 0x00] ∧ (s 7).cap (s 7).cur 1 < statusCount (s 7).cfg 7 0x00) ∧
    ((s 6).answers 2 = [6, 0x00] ∧ statusCount (s 6).cfg 6 0x00 ≠ 0 ∧
      statusCount (s 6).cfg 6 0x00 ≤ (s 6).cap (s 6).cur 1) := by
  unfold State.holding State.bufsOk; decide

/-! Events and timers -/

theorem witness_LowPowerCompletes : (ready.serving ∧ ready.lp = true) ∧ (up.serving ∧ up.lp = false) := by
  unfold State.serving; decide

theorem witness_TimerStartFcCompletes :
    let p := selected .poller .v
    let l := selected .listener .a
    let ticks (d comp : Nat) := (d - comp) * cfg0.timerClkHz / cfg0.fcHz
    (p.serving ∧ p.tech = some .v ∧ p.mode = .poller ∧ 1000 = p.cfg.compPFwt.get .v ∧
      (1001 : BitVec 32).toNat < 2 ^ p.cfg.durBits ∧ 1000 < (1001 : BitVec 32).toNat ∧ 1 ≤ ticks 1001 1000 ∧ ticks 1001 1000 ≤ 4294901760 ∧
      p.fwt.init = true ∧ p.fwt.run = false) ∧
    (500 = p.cfg.compPFdt.get .v ∧ 500 < (501 : BitVec 32).toNat ∧ 1 ≤ ticks 501 500 ∧
      p.btx.init = true ∧ p.btx.run = false) ∧
    (l.serving ∧ l.tech = some .a ∧ l.mode = .listener ∧ 300 = l.cfg.compLFdt.get .a ∧
      300 < (301 : BitVec 32).toNat ∧ 1 ≤ ticks 301 300 ∧ l.btx.init = true ∧ l.btx.run = false) := by
  unfold State.serving; decide

theorem witness_CompensationNoOp :
    let p := selected .poller .v
    let l := selected .listener .a
    (p.serving ∧ p.tech = some .v ∧ p.mode = .poller ∧
      (1000 : BitVec 32).toNat < 2 ^ p.cfg.durBits ∧ p.fwt.init = true ∧ p.fwt.run = false ∧
      (1000 : BitVec 32).toNat ≤ p.cfg.compPFwt.get .v) ∧
    ((500 : BitVec 32).toNat ≤ p.cfg.compPFdt.get .v ∧ p.btx.init = true ∧ p.btx.run = false) ∧
    (l.serving ∧ l.tech = some .a ∧ l.mode = .listener ∧
      (300 : BitVec 32).toNat ≤ l.cfg.compLFdt.get .a ∧ l.btx.init = true ∧ l.btx.run = false) := by
  unfold State.serving; decide

theorem witness_TimerStartUsCompletes : up.serving ∧ up.btx.init = true ∧ up.btx.run = false ∧
    (67107840 : BitVec 32).toNat < 2 ^ up.cfg.durBits ∧ 1 ≤ (1 : BitVec 32).toNat * up.cfg.timerClkHz / 1000000 ∧
    (67107840 : BitVec 32).toNat * up.cfg.timerClkHz / 1000000 ≤ 4294901760 := by
  unfold State.serving; decide

theorem witness_ArmRange : 1 ≤ 1 ∧ armPsc 4294901760 ≤ 65535 ∧ armPsc 4294901761 > 65535 := by decide

theorem witness_TimerStopCompletes : up.serving := by unfold State.serving; decide

theorem witness_EventWaitCompletes :
    let s (e : BitVec 5) : State := { selected .poller .v with evf := e }
    let w : BitVec 5 := cfg0.waitMask.get .poller .v ||| 1
    ((s 2).serving ∧ (s 2).mode = modeOfRole .poller ∧ (s 2).tech = some .v ∧
      ¬(Role.poller = .listener ∧ Tech.v = .v) ∧
      (1 : BitVec 32).toNat < 2 ^ (s 2).cfg.durBits ∧ (s 2).evf &&& w ≠ 0) ∧
    ((s 1).evf &&& w ≠ 0 ∧ (s 1).evf.getLsbD 0 = true) ∧
    ((s 16).evf &&& w = 0 ∧ (0 : BitVec 32) = 0) ∧
    ((s 0).evf &&& w = 0 ∧ (1 : BitVec 32) ≠ 0) := by
  unfold State.serving; decide

/-- A poller of thread 0 waits with a timer running and the other one's flag pending for delivery;
thread 1 is blocked in ACQUIRE. -/
def awaiting : State :=
  { session with
    evf := 0, fwt := ⟨true, true, false, 0, 1⟩, btx := ⟨true, false, true, 0, 1⟩
    acquirers := [1] }

/-- A command of two frames of thread 0, between which thread 1's ACQUIRE times out and is issued
again. -/
def reblocking : SchedItem :=
  .command 0 [0x0A, 0x00, 0x08, 0x00] [[.agent (.acquireTimeout 1), .command 1 [0x42]]]

/-- The wait times out, the timer expires and both flags are delivered. Then thread 0 repeats a
command, and thread 1 is blocked whenever it returns (spec/70_reset_and_hazards.md R378 a). -/
def fairItem : Nat → SchedItem
  | 0 => .waitTimeout
  | 1 => .agent (.expire .fwt)
  | 2 => .agent (.deliver .fwt)
  | 3 => .agent (.deliver .btx)
  | _ => reblocking

/-- The states of that run. -/
def fairState : Nat → State
  | 0 => State.bufsOf awaiting [[0x26]]
  | n + 1 =>
    match step { fairState n with sched := [fairItem n] } with
    | .next t => t
    | _ => fairState n

/-- The state of the repeated command, with the frames sent and the results returned so far. -/
def fairRest (bus : List BusFrame) (results : List Result) : State :=
  { State.bufsOf (selected .poller .v) [[0x26]] with
    irqAcc := 0xFFFFFFFF, evf := 12, acquirers := [1], bus := bus, results := results
    fwt := ⟨true, false, false, 0, 1⟩, btx := ⟨true, false, false, 0, 1⟩ }

theorem fairState_four : fairState 4 = fairRest [] [⟨0, [0x00, 0x01, 0x00, 0x00, 0x00]⟩] := by
  decide

set_option maxRecDepth 600 in
/-- What the repeated command adds. -/
theorem fairRest_step (bus : List BusFrame) (results : List Result) :
    step { fairRest bus results with sched := [reblocking] } =
      .next (fairRest (bus ++ [⟨[0x22, 0x00, 0x08], []⟩] ++ [⟨[0x80, 0x26], []⟩])
        (results ++ [⟨1, [0x01]⟩] ++ [⟨0, [0x00]⟩])) := by
  with_unfolding_all rfl

theorem fairItem_rest (n : Nat) : fairItem (4 + n) = reblocking := by
  rw [Nat.add_comm]
  rfl

theorem fairState_rest (n : Nat) :
    ∃ bus results, fairState (4 + n) = fairRest bus results := by
  induction n with
  | zero => exact ⟨_, _, fairState_four⟩
  | succ n ih =>
    obtain ⟨bus, results, e⟩ := ih
    exact ⟨_, _, by rw [← Nat.add_assoc, fairState, e, fairItem_rest, fairRest_step]⟩

theorem fairRun_execution : Execution fairState fairItem where
  next n := by
    match n with
    | 0 | 1 | 2 | 3 => rfl
    | n + 4 =>
      obtain ⟨bus, results, e⟩ := fairState_rest n
      rw [Nat.add_comm n 4, e, fairState, e, fairItem_rest, fairRest_step]
  threads n t h := by
    match n with
    | 0 | 1 | 2 | 3 => cases h
    | n + 4 =>
      obtain ⟨bus, results, e⟩ := fairState_rest n
      have : t = 0 ∨ t = 1 := by simpa [fairItem, reblocking, SchedItem.threads] using h
      rw [Nat.add_comm n 4, e]
      rcases this with rfl | rfl
      · exact (by decide : 0 < cfg0.nThreads)
      · exact (by decide : 1 < cfg0.nThreads)

/-- From any step on, the run passes a state in which nothing is blocked, runs or pends: between the
two frames of the repeated command. -/
theorem fairRest_passes (n : Nat) : ∃ v ∈ (fairItem (4 + n)).states (fairState (4 + n)),
    v.waiter = none ∧ v.acquirers = [] ∧ ∀ k, (v.tmr k).run = false ∧ (v.tmr k).pend = false := by
  obtain ⟨bus, results, e⟩ := fairState_rest n
  rw [e, fairItem_rest]
  exact ⟨_, .tail _ (.tail _ (.head _)), rfl, rfl, fun k => by cases k <;> exact ⟨rfl, rfl⟩⟩

theorem fairRun_fair : Fair fairState fairItem where
  wait n w _ :=
    let ⟨v, hv, h, _⟩ := fairRest_passes n
    ⟨4 + n, by omega, v, hv, by rw [h]; nofun⟩
  acquire n t _ :=
    let ⟨v, hv, _, h, _⟩ := fairRest_passes n
    ⟨4 + n, by omega, v, hv, by rw [h]; nofun⟩
  expiry n k _ :=
    let ⟨v, hv, _, _, h⟩ := fairRest_passes n
    ⟨4 + n, by omega, v, hv, (h k).1⟩
  delivery n k _ _ :=
    let ⟨v, hv, _, _, h⟩ := fairRest_passes n
    ⟨4 + n, by omega, v, hv, .inl (h k).2⟩

/-- What the fairness clauses of the blocked commands and the timers start from. In the run thread 1
is blocked in every state in which a command returns. -/
theorem witness_fair_run : (fairState 0).waiter = some ⟨0, 100⟩ ∧
    (1 : ThreadId) ∈ (fairState 0).acquirers ∧ (1 : ThreadId) ∈ (fairState 5).acquirers ∧
    (fairState 1).phase = .ready ∧ (fairState 1).lp = false ∧
    ((fairState 1).tmr .fwt).init = true ∧ ((fairState 1).tmr .fwt).run = true ∧
    ((fairState 1).tmr .btx).init = true ∧ ((fairState 1).tmr .btx).pend = true := by decide

theorem awaiting_inv : State.Inv (fairState 0) where
  mode_tech := ⟨nofun, nofun⟩
  ctx_tech := rfl
  uninit_free := nofun
  uninit_mode := nofun
  uninit_lp := nofun
  waiter_holder w h := by cases h; rfl
  lp_timers := nofun
  fwt_sound := nofun
  btx_sound := nofun
  causes_fit := (by decide : 0xFFFFFFFF < 2 ^ (8 * 4))

/-- From its second step on nothing in the run stops a timer or consumes a flag. -/
theorem witness_timer_run (m : Nat) (hm : 1 ≤ m) : (fairItem m).resets = false ∧
    (fairItem m).wakes = false ∧ ∀ record ∈ (fairItem m).records, ∀ i r,
      decode record = .ok (i, r) → i ≠ .timerStop 0 ∧ i ≠ .lpEnter ∧ i ≠ .deinit ∧
        ∀ tmo, i ≠ .eventWait tmo := by
  match m with
  | 1 | 2 | 3 => exact ⟨rfl, rfl, nofun⟩
  | m + 4 =>
    refine ⟨rfl, rfl, fun record h i r hd => ?_⟩
    have : record = [0x0A, 0x00, 0x08, 0x00] ∨ record = [0x42] := by
      simpa [fairItem, reblocking, SchedItem.records] using h
    rcases this with rfl | rfl <;> cases hd <;> exact ⟨nofun, nofun, nofun, nofun⟩

theorem witness_BlockedWaitEnds :
    let w : BitVec 5 := cfg0.waitMask.get .poller .v ||| 1
    let s (item : SchedItem) (e : BitVec 5) : State := { session with evf := e, sched := [item] }
    ((s .wake 4).fault = none ∧ (s .wake 4).waiter = some ⟨0, 100⟩ ∧
      (s .wake 4).mode = modeOfRole .poller ∧ (s .wake 4).tech = some .v ∧
      (s .wake 4).sched = .wake :: [] ∧ (s .wake 4).evf &&& w ≠ 0) ∧
    ((s .wake 16).sched = .wake :: [] ∧ (s .wake 16).evf &&& w = 0) ∧
    (s .waitTimeout 0).sched = .waitTimeout :: [] := by decide

theorem witness_AbortRequestCompletes : base.fault = none ∧ halted.fault = some .role := by decide

theorem witness_AbortStays : ∃ t : State,
    let item : SchedItem := .command 0 [0x11] [[.agent .trxIn]]
    let s : State := { up with evf := 1, sched := [item] }
    s.evf.getLsbD 0 = true ∧ s.sched = item :: [] ∧ item.resets = false ∧ item.wakes = false ∧
    (∀ record ∈ item.records, ∀ i r, decode record = .ok (i, r) →
      i ≠ .deinit ∧ ∀ tmo, i ≠ .eventWait tmo) ∧
    step s = .next t := by
  refine ⟨_, rfl, rfl, rfl, rfl, ?_, rfl⟩
  intro record h i r hd
  have : record = [0x11] := by simpa [SchedItem.records] using h
  subst this
  cases hd
  exact ⟨nofun, fun _ => nofun⟩

theorem witness_DrainLoop :
    let s (a : IrqAgent) (l : Bool) : State := { up with irqAgent := a, irqLine := l }
    (s .draining true).fault = none ∧ (s .draining true).irqAgent = .draining ∧
    (s .draining true).irqLine = true ∧ (s .draining false).irqLine = false ∧
    (s .idle true).irqAgent = .idle ∧ (s .draining true).phase = .ready ∧
    base.fault = none ∧ base.phase = .uninit ∧
    AgentStep.drainStep ∈ [AgentStep.drainEnter, .drainStep] := by decide

/-- Beside `witness_fair_run`. -/
theorem witness_TimerExpiryAndDelivery : up.fault = none := rfl

theorem witness_InterruptContext :
    (AgentStep.deliver .btx = .drainEnter ∨ AgentStep.deliver .btx = .drainStep ∨
      ∃ t, AgentStep.deliver .btx = .deliver t) := .inr (.inr ⟨.btx, rfl⟩)

theorem witness_FramesKeepSession : ∃ t,
    Instr.fifoRead 1 ∈ [Instr.regRead 0, .regWrite 0 0, .regReadBurst 0 0 1, .regWriteBurst 0 0 1,
      .regChangeBits 0 0 0, .regSetBits 0 0, .regClearBits 0 0, .testRegRead 0, .testRegWrite 0 0,
      .fifoWrite 1 0, .fifoRead 1, .directCmd 0, .transmit 1 0, .receive 1, .txShortFrame 0,
      .listenerSleep, .listenerIdle, .fieldOn, .fieldDetectStart, .fieldDetectStop,
      .fieldPresent] ∧
    exec (.fifoRead 1) (State.chip buffers [0x06, 0x00]) = .next t :=
  ⟨_, by simp, rfl⟩

/-! Technology layer -/

/-- Parameters whose sequences send frames and store. -/
def cfgSeq : Params :=
  { cfg0 with
    roleSetupPoller := [.regWrite 0x7F 0xFF]
    techInit := ⟨⟨[.regSetBits 0x3F 0x01], [], [], []⟩, ⟨[.regRead 0x01], [], [], []⟩⟩
    techDeinit := ⟨⟨[.regReadBurst 0x3A 6 1], [], [], []⟩, ⟨[], [], [], []⟩⟩
    neutralSeq := [.regWrite 0x04 0x00]
    aCrcCheckOff := [.regSetBits 0x05 0x80]
    bringupSeq := [.regWrite 0x00 0x07]
    deinitSeq := [.directCmd 0xC2]
    lSleep := ⟨[.regWrite 0x01 0x02], [], [], [.regRead 0x02]⟩
    lIdle := ⟨[.regWrite 0x01 0x03], [], [], [.regRead 0x02]⟩ }

/-- Those parameters, and thread 0's two buffers. -/
def State.seq (s : State) : State := { State.bufsOf s [[0x26], [1, 2, 3, 0, 5, 6]] with cfg := cfgSeq }

theorem witness_SequenceRuns : (State.seq up).windows = [] := rfl

theorem witness_SequenceCommandIsDriverCommand : (State.seq up).holding ∧
    (State.seq up).windows = [] ∧
    code (driverInstr (.regReadBurst 0x3A 6 1)) (State.seq up) = none ∧
    code (driverInstr (.regReadBurst 0x3A 7 1)) (State.seq up) = some .badOperand := by
  unfold State.holding; decide

theorem witness_SetModeCompletes :
    let s := State.seq up
    s.serving ∧ s.windows = [] ∧ s.ctx = none ∧ s.mode = .none ∧
    (Role.listener = .listener → s.cfg.hasListener.get .a = true) := by
  unfold State.serving; decide

theorem witness_ResetModeCompletes :
    let s := State.seq (selected .poller .a)
    s.serving ∧ s.windows = [] ∧ s.mode = modeOfRole .poller ∧ s.tech = some .a := by
  unfold State.serving; decide

theorem witness_TransmitCompletes :
    let s := State.seq (selected .listener .f)
    s.serving ∧ s.windows = [] ∧ s.mode ≠ .none ∧ s.tech = some .f ∧ Tech.f ≠ .v ∧
    s.buffer s.cur 1 ≠ none ∧ (48 : BitVec 16) ≠ 0 ∧
    ((48 : BitVec 16).toNat + 7) / 8 ≤ s.cfg.fifoSize ∧
    ((48 : BitVec 16).toNat + 7) / 8 ≤ s.cap s.cur 1 := by
  unfold State.serving; decide

theorem witness_TransmitPollerVCompletes :
    let s := State.seq (selected .poller .v)
    s.serving ∧ s.windows = [] ∧ s.mode = .poller ∧ s.tech = some .v ∧
    s.buffer s.cur 1 ≠ none ∧ (48 : BitVec 16).toNat % 8 = 0 ∧
    (48 : BitVec 16).toNat / 8 ≤ s.cap s.cur 1 ∧
    (48 : BitVec 16).toNat / 2 + 2 ≤ s.cfg.vTxCap ∧
    (48 : BitVec 16).toNat / 2 + 2 ≤ s.cfg.fifoSize := by
  unfold State.serving; decide

/-- The chip answers a FIFO status of no byte, of 6 bytes and of 7 bytes. -/
theorem witness_ReceiveCompletes :
    let s (n : Byte) : State := State.chip (State.seq (selected .poller .b)) [n, 0x00]
    (s 0).serving ∧ (s 0).bufsOk ∧ (s 0).windows = [] ∧ (s 0).mode ≠ .none ∧
    (s 0).tech = some .b ∧ Tech.b ≠ .v ∧ (s 0).buffer (s 0).cur 1 ≠ none ∧
    ((s 0).answers 2 = [0, 0x00] ∧ statusCount (s 0).cfg 0 0x00 = 0) ∧
    ((s 7).answers 2 = [7, 0x00] ∧ (s 7).cap (s 7).cur 1 < statusCount (s 7).cfg 7 0x00) ∧
    ((s 6).answers 2 = [6, 0x00] ∧ statusCount (s 6).cfg 6 0x00 ≠ 0 ∧
      statusCount (s 6).cfg 6 0x00 ≤ (s 6).cap (s 6).cur 1) := by
  unfold State.serving State.bufsOk; decide

/-- The chip answers a FIFO status of no byte, of 64 bytes (`V_RAW_CAP`) and of 65 bytes. -/
theorem witness_ReceivePollerVCompletes :
    let s (n : Byte) : State := State.chip (State.seq (selected .poller .v)) [n, 0x00]
    (s 0).serving ∧ (s 0).bufsOk ∧ (s 0).windows = [] ∧ (s 0).mode = .poller ∧
    (s 0).tech = some .v ∧ (s 0).buffer (s 0).cur 1 ≠ none ∧ (s 0).answers 2 = [0, 0x00] ∧
    statusCount (s 0).cfg 0 0x00 = 0 ∧
    ((s 65).answers 2 = [65, 0x00] ∧ (s 65).cfg.vRawCap < statusCount (s 65).cfg 65 0x00) ∧
    ((s 64).answers 2 = [64, 0x00] ∧ statusCount (s 64).cfg 64 0x00 ≠ 0 ∧
      statusCount (s 64).cfg 64 0x00 ≤ (s 64).cfg.vRawCap) := by
  unfold State.serving State.bufsOk; decide

theorem witness_ShortFrameAndListenerComplete :
    (let s := State.seq (selected .poller .a);
      s.serving ∧ s.windows = [] ∧ s.tech = some .a ∧ s.mode = .poller) ∧
    (let s := State.seq (selected .listener .a);
      s.serving ∧ s.windows = [] ∧ s.tech = some .a ∧ s.mode = .listener) ∧
    (let s := State.seq (selected .listener .f);
      s.serving ∧ s.windows = [] ∧ s.tech = some .f ∧ s.mode = .listener ∧ Tech.f ≠ .a) := by
  unfold State.serving; decide

theorem witness_ListenerVUnmodelled :
    let s := State.seq (selected .listener .v)
    s.serving ∧ s.mode = .listener ∧ s.tech = some .v ∧ s.buffer s.cur 1 ≠ none ∧
    (0 : BitVec 32).toNat < 2 ^ s.cfg.durBits ∧ Instr.receive 1 ∈ [Instr.transmit 1 8, .receive 1, .eventWait 0] := by
  unfold State.serving; decide

/-! Codec and controller -/

theorem witness_EncodeFrameCompletes : buffers.fault = none ∧ buffers.bufsOk ∧
    buffers.buffer buffers.cur 0 ≠ none ∧ buffers.buffer buffers.cur 1 ≠ none ∧
    (0 : Byte) ≠ 1 ∧ (8 : BitVec 32).toNat % 8 = 0 ∧
    (8 : BitVec 32).toNat / 8 ≤ buffers.cap buffers.cur 0 ∧
    (8 : BitVec 32).toNat / 2 + 2 ≤ buffers.cap buffers.cur 1 := by
  unfold State.bufsOk; decide

theorem witness_EncodeRoundTrip : ∃ t : State, buffers.bufsOk ∧ buffers.cfg.encPat3 ≠ 0x02 ∧
    buffers.cfg.encPat3 ≠ 0x08 ∧ buffers.cfg.encPat3 ≠ 0x20 ∧
    exec (.iso15693EncodeFrame 0 8 1) buffers = .next t ∧ t.fault = none :=
  ⟨_, rfl, by decide, by decide, by decide, rfl, rfl⟩

theorem witness_DecodeFrameCompletes : buffers.fault = none ∧ buffers.bufsOk ∧
    buffers.buffer buffers.cur 1 ≠ none ∧ buffers.buffer buffers.cur 0 ≠ none ∧
    ((48 : BitVec 32).toNat + 7) / 8 ≤ buffers.cap buffers.cur 1 := by
  unfold State.bufsOk; decide

/-- VD12's stream: the bits 1 and 0, with one further bit, and with none (VD11). -/
theorem witness_DecodeGoodFrame :
    cfg0.rxSof = 0x17 ∧ cfg0.eofMask = 0x1F ∧ cfg0.rxEof = 0x1D ∧ cfg0.patMask = 0x03 ∧
    cfg0.rxPat0 = 0x01 ∧ cfg0.rxPat1 = 0x02 ∧
    streamOf [0xD7, 0x3A] (5 + 2 * 2 + 5 + 1) =
      [true, true, true, false, true] ++
        ([true, false].flatMap fun b => if b then [false, true] else [true, false]) ++
        [true, false, true, true, true] ++ [false] ∧
    streamOf [0xD7, 0x3A] (5 + 2 * 2 + 5 + 0) =
      [true, true, true, false, true] ++
        ([true, false].flatMap fun b => if b then [false, true] else [true, false]) ++
        [true, false, true, true, true] ++ [] := by decide

/-- Streams of 0, 1, 8, 9 and 10 bits, with and without the SOF. -/
theorem witness_ShortStreams :
    let s := State.bufsOf base [[0x17, 0x00], [0x16, 0x00], [0]]
    s.fault = none ∧ s.buffer s.cur 0 ≠ none ∧ s.buffer s.cur 2 ≠ none ∧
    ((10 : BitVec 32).toNat + 7) / 8 ≤ s.cap s.cur 0 ∧
    s.bufByte s.cur 0 0 &&& 0x1F = s.cfg.rxSof.zeroExtend 8 ∧
    ¬(s.bufByte s.cur 1 0 &&& 0x1F = s.cfg.rxSof.zeroExtend 8) ∧
    ((1 : BitVec 32).toNat + 7) / 8 ≤ s.cap s.cur 1 ∧ (9 : BitVec 32).toNat ≤ 10 := by decide

theorem witness_InitAndDeinitComplete :
    (let s := State.seq base;
      s.fault = none ∧ s.windows = [] ∧ s.phase = .uninit) ∧
    (let s := State.seq { up with holder := none };
      s.fault = none ∧ s.windows = [] ∧ s.phase = .ready ∧ s.holder = none ∧
      s.mode = .none) := by decide

/-- Thread 1 takes the lock between DEINIT's frames. -/
theorem witness_InitAndDeinitComplete_held : ∃ u,
    let s : State := { up with
      cfg := { cfg0 with deinitSeq := [.directCmd 0xC2, .directCmd 0xDB] }
      holder := none, windows := [[.command 1 [0x42]]] }
    s.fault = none ∧ s.phase = .ready ∧ s.holder = none ∧ s.mode = .none ∧
    (runSeq false s.cur s.cfg.deinitSeq s).weave [] = .go () u ∧ u.holder ≠ none :=
  ⟨_, rfl, rfl, rfl, rfl, rfl, nofun⟩

theorem witness_AcquireCompletes :
    (ready.fault = none ∧ ready.phase = .ready ∧ ready.holder = some ready.cur) ∧
    ({ ready with holder := none }.holder = none) ∧
    ({ ready with holder := some 7 }.holder ≠ none ∧
      { ready with holder := some 7 }.holder ≠ some ready.cur) ∧
    (let s : State := { queued with holder := none, sched := [.acquireTake 1] };
      (1 : ThreadId) ∈ s.acquirers ∧ s.holder = none ∧ s.sched = .acquireTake 1 :: []) ∧
    (let s : State := { queued with sched := [.agent (.acquireTimeout 1)] };
      (1 : ThreadId) ∈ s.acquirers ∧ s.sched = .agent (.acquireTimeout 1) :: []) ∧
    ((1 : ThreadId) ≠ ready.cur ∧ ready.blocked 1 = false ∧ inProgress 1 [] = false ∧
      { ready with holder := some 1 }.holder = some 1) := by decide

theorem witness_ReleaseCompletes : ready.fault = none ∧ ready.holder = some ready.cur ∧
    base.fault = none ∧ base.holder ≠ some base.cur ∧ halted.fault = some .role := by decide

theorem witness_FieldOnCompletes :
    let s (v : Byte) := State.chip (State.seq ready) [v]
    ((s 0x08).serving ∧ (s 0x08).answers 1 = [0x08] ∧ 0x08 &&& (s 0x08).cfg.opcTxEn ≠ 0) ∧
    ((s 0xF7).serving ∧ (s 0xF7).answers 1 = [0xF7] ∧ 0xF7 &&& (s 0xF7).cfg.opcTxEn = 0 ∧
      (s 0xF7).windows = []) := by
  unfold State.serving; decide

theorem witness_FieldDetectionCompletes :
    let s := State.chip (State.seq ready) [0x40]
    s.serving ∧ s.windows = [] ∧ s.answers 1 = [0x40] := by
  unfold State.serving; decide

end Sys2Proof.Tests
end

section
/-! The invariants of spec/10_state.md: what each write of the machine keeps of the session, of the
host-buffer table and of the selection of mode and technology, lifted to every step by `Preserved`. -/

namespace Sys2Proof.Machine

open Sys2Proof

/-! ## From single writes to every step -/

/-- What every write of the machine and the reset event keep, every step keeps. -/
theorem Preserved.step_keeps {I : State → Prop}
    (R : Preserved (fun _ => True) True fun s t => I s → I t)
    (reset : ∀ s : State, I s → I s.blockReset) {s t : State} (hi : I s)
    (he : Machine.step s = .next t) : I t := by
  cases hs : s.sched with
  | nil =>
    have : s = t := by simpa [Machine.step, hs] using he
    exact this ▸ hi
  | cons item rest =>
    rcases R.step hs (fun _ _ _ _ _ => trivial) (fun _ => trivial) he with h | ⟨-, m, h, rfl⟩
    · exact h hi
    · exact reset m (h hi)

/-! ## The session's invariants -/

/-- A timer that is initialised is sound whatever else it holds. -/
theorem Timer.sound_of_init {v : Timer} (h : v.init = true) : v.sound :=
  fun hi => by simp [h] at hi

/-- A free lock has no waiter (R342). -/
theorem State.Inv.no_waiter {s : State} (hi : s.Inv) (free : s.holder = none) :
    s.waiter = none := by
  cases hw : s.waiter with
  | none => rfl
  | some w => exact absurd (hi.waiter_holder w hw) (by simp [free])

/-- The waiter holds the lock (R342), so a holder that is not blocked leaves no waiter. -/
theorem State.Inv.no_waiter_of_idle {s : State} (hi : s.Inv) {t : ThreadId}
    (held : s.holder = some t) (idle : s.blocked t = false) : s.waiter = none := by
  cases hw : s.waiter with
  | none => rfl
  | some w =>
    have ht : w.thread = t := Option.some.inj ((hi.waiter_holder w hw).symm.trans held)
    simp [State.blocked, hw, ht] at idle

/-- Quiet steps keep the invariants. -/
theorem Quiet.inv {s m : State} (h : Quiet s m) (hi : s.Inv) : m.Inv where
  mode_tech := by rw [h.mode, h.tech]; exact hi.mode_tech
  ctx_tech := by rw [h.ctx, h.tech]; exact hi.ctx_tech
  uninit_free := by rw [h.phase, h.holder]; exact hi.uninit_free
  uninit_mode := by rw [h.phase, h.mode]; exact hi.uninit_mode
  uninit_lp := by rw [h.phase, h.lp]; exact hi.uninit_lp
  waiter_holder := by rw [h.waiter, h.holder]; exact hi.waiter_holder
  lp_timers := by
    have hf : m.fwt.init = s.fwt.init := h.init .fwt
    have hb : m.btx.init = s.btx.init := h.init .btx
    rw [h.lp, hf, hb]; exact hi.lp_timers
  fwt_sound := h.sound .fwt hi.fwt_sound
  btx_sound := h.sound .btx hi.btx_sound
  causes_fit := by rw [h.cfg]; exact h.causes hi.causes_fit

/-- A write to a timer that keeps its INIT and leaves it sound. -/
theorem State.Inv.setTmr {s : State} (hi : s.Inv) {x : TimerId} {v : Timer}
    (init : v.init = (s.tmr x).init) (sound : v.sound) : (s.setTmr x v).Inv := by
  cases x with
  | fwt => exact { hi with
      lp_timers := fun h => ⟨init.trans (hi.lp_timers h).1, (hi.lp_timers h).2⟩
      fwt_sound := sound }
  | btx => exact { hi with
      lp_timers := fun h => ⟨(hi.lp_timers h).1, init.trans (hi.lp_timers h).2⟩
      btx_sound := sound }

/-- Consuming flags keeps the causes or clears them (R213). -/
theorem State.Inv.consume {s : State} (hi : s.Inv) : s.consume.Inv :=
  { hi with
    causes_fit := by
      rw [State.consume_irqAcc]
      split
      · exact Nat.two_pow_pos _
      · exact hi.causes_fit }

/-- A thread takes the free lock of an initialised block: nobody waits (R313, R342). -/
theorem State.Inv.take_lock {s : State} (hi : s.Inv) (ready : s.phase = .ready)
    (free : s.holder = none) (t : ThreadId) : { s with holder := some t }.Inv :=
  { hi with
    uninit_free := by simp [ready]
    waiter_holder := by simp [hi.no_waiter free] }

/-- The wait of a blocked thread ends. -/
theorem State.Inv.end_wait {s : State} (hi : s.Inv) : { s with waiter := none }.Inv :=
  { hi with waiter_holder := nofun }

theorem State.Inv.reply {s : State} (hi : s.Inv) (t : ThreadId) (r : List Byte) :
    (s.reply t r).Inv := (quiet_reply s t r).inv hi

/-- Taking INIT's outcome writes none of the session. -/
theorem State.Inv.afterBringup {s : State} (hi : s.Inv) : s.afterBringup.Inv := by
  unfold State.afterBringup
  split <;> exact { hi with }

/-- A command without frames keeps the invariants, its checks passed and its thread not blocked: the
checks give it the lock and the phase, and a holder that is not blocked leaves no waiter. -/
theorem Writes.inv {i : Instr} {t : ThreadId} {s s' : State}
    (passed : firstFail (instrChecks i t s) = none) (idle : s.blocked t = false)
    (h : Writes t s s' i) (hi : s.Inv) : s'.Inv := by
  cases h with
  | lpExit low eq =>
    have ready : s.phase = .ready := (session_of_checks passed).ready
    subst eq
    refine State.Inv.reply ?_ t _
    exact { hi with
      uninit_lp := by simp [ready]
      lp_timers := nofun
      fwt_sound := Timer.sound_of_init rfl
      btx_sound := Timer.sound_of_init rfl }
  | lpEnter eq =>
    subst eq
    refine State.Inv.reply ?_ t _
    exact { hi with
      uninit_lp := fun _ => rfl
      lp_timers := fun _ => ⟨rfl, rfl⟩
      fwt_sound := fun _ => ⟨rfl, rfl⟩
      btx_sound := fun _ => ⟨rfl, rfl⟩ }
  | timerStartFc tm d x ticks which up eq =>
    subst eq
    refine State.Inv.reply ?_ t _
    exact hi.setTmr rfl (Timer.sound_of_init up)
  | timerStartUs tm d ticks up eq =>
    subst eq
    refine State.Inv.reply ?_ t _
    exact hi.setTmr (x := .btx) (v := s.btx.armed ticks) rfl (Timer.sound_of_init up)
  | timerStop tm x which eq =>
    subst eq
    refine State.Inv.reply ?_ t _
    exact hi.setTmr rfl fun _ => ⟨rfl, rfl⟩
  | waitEnds tmo record eq => subst eq; exact hi.consume.reply t record
  | waitBlocks tmo eq =>
    have lock : s.holder = some t := (session_of_checks passed).lock
    subst eq
    exact { hi with waiter_holder := fun w hw => by cases hw; exact lock }
  | acquireTakes free eq =>
    have ready : s.phase = .ready := session_of_checks passed
    subst eq
    exact (hi.take_lock ready free t).reply t _
  | acquireBlocks held eq => subst eq; exact { hi with }
  | release held eq =>
    subst eq
    refine State.Inv.reply ?_ t _
    exact { hi with
      uninit_free := fun _ => rfl
      waiter_holder := by simp [hi.no_waiter_of_idle held idle] }

/-- What a command with frames writes after its last frame keeps the invariants: a mode is selected
only in an initialised block, and DEINIT ends only with a free lock and no mode (log 7). -/
theorem Finishes.inv {i : Instr} {t : ThreadId} {m s' : State} (h : Finishes t m s' i)
    (hi : m.Inv) : s'.Inv := by
  cases h with
  | setMode mode tech r x ready eq =>
    subst eq
    refine State.Inv.reply ?_ t _
    exact { hi with
      mode_tech := by cases r <;> simp [modeOfRole]
      ctx_tech := rfl
      uninit_mode := by simp [ready] }
  | resetMode ready eq =>
    subst eq
    refine State.Inv.reply ?_ t _
    exact { hi with
      mode_tech := by simp
      ctx_tech := rfl
      uninit_mode := fun _ => rfl }
  | initFails e eq => subst eq; exact hi.afterBringup.reply t _
  | initDone uninit eq =>
    have uninit' : m.afterBringup.phase = .uninit := by simp [uninit]
    subst eq
    refine State.Inv.reply ?_ t _
    exact { hi.afterBringup with
      uninit_free := nofun
      uninit_mode := nofun
      uninit_lp := nofun
      lp_timers := fun _ => hi.afterBringup.lp_timers (hi.afterBringup.uninit_lp uninit') }
  | deinit free unset eq =>
    subst eq
    refine State.Inv.reply ?_ t _
    exact { hi with
      uninit_free := fun _ => free
      uninit_mode := fun _ => unset
      uninit_lp := fun _ => rfl
      lp_timers := fun _ => ⟨rfl, rfl⟩
      fwt_sound := fun _ => ⟨rfl, rfl⟩
      btx_sound := fun _ => ⟨rfl, rfl⟩
      causes_fit := Nat.two_pow_pos _ }

/-- A thread blocked in ACQUIRE takes the lock only in an initialised block (log 6). -/
theorem State.Inv.acquireTake {s : State} (hi : s.Inv) (t : ThreadId) : (s.acquireTake t).Inv := by
  unfold State.acquireTake
  split
  · rename_i h
    obtain ⟨-, free, ready⟩ := h
    refine State.Inv.reply ?_ t _
    exact { hi.take_lock ready free t with }
  · exact hi

theorem State.Inv.wake {s : State} (hi : s.Inv) : s.wake.Inv := by
  unfold State.wake
  split
  · exact hi
  · split
    · exact hi
    · exact hi.consume.end_wait.reply _ _

theorem State.Inv.waitTimeout {s : State} (hi : s.Inv) : s.waitTimeout.Inv := by
  unfold State.waitTimeout
  split
  · exact hi
  · exact hi.end_wait.reply _ _

theorem State.Inv.giveBuffer {s : State} (hi : s.Inv) (t : ThreadId) (h : Byte)
    (bytes : List Byte) : (s.giveBuffer t h bytes).Inv := by
  unfold State.giveBuffer
  split
  · exact hi
  · exact { hi with }

/-- The block state of R52 has the invariants, from whatever state the reset event comes. -/
theorem inv_blockReset (s : State) : s.blockReset.Inv where
  mode_tech := ⟨fun _ => rfl, fun _ => rfl⟩
  ctx_tech := rfl
  uninit_free _ := rfl
  uninit_mode _ := rfl
  uninit_lp _ := rfl
  waiter_holder := nofun
  lp_timers _ := ⟨rfl, rfl⟩
  fwt_sound _ := ⟨rfl, rfl⟩
  btx_sound _ := ⟨rfl, rfl⟩
  causes_fit := Nat.two_pow_pos _

/-- Every write of the machine keeps the invariants. -/
theorem preserved_inv :
    Preserved (fun _ => True) True fun s t : State => s.Inv → t.Inv where
  trans h k hi := k (h hi)
  quiet h hi := h.inv hi
  issue _ _ _ _ hi := { hi with }
  fault _ _ hi := { hi with }
  writes _ passed idle h hi := h.inv passed idle hi
  finishes _ h hi := h.inv hi
  acquireTake _ t hi := hi.acquireTake t
  wake _ _ hi := hi.wake
  waitTimeout _ hi := hi.waitTimeout
  giveBuffer _ t h bytes hi := hi.giveBuffer t h bytes

/-- Settles O10: every write keeps the invariants and the reset event sets them up, so every step
keeps them. -/
theorem invKept : Obligations.InvKept := by
  unfold Obligations.InvKept
  intro s t hi he
  exact preserved_inv.step_keeps (fun m _ => inv_blockReset m) hi he

/-- Settles O9: the reset state is what the reset event leaves of it. -/
theorem invAtReset : Obligations.InvAtReset :=
  ⟨inv_blockReset State.reset, reset_bufsWf⟩

/-! ## The host-buffer table -/

/-- A write that spares the table keeps its form. -/
theorem Apart.bufsOk {s s' : State} (h : Apart s s') (hs : s.bufsOk) : s'.bufsOk :=
  h.tame.wf hs

/-- A command writes no buffer after its last frame. -/
theorem Finishes.bufs {i : Instr} {t : ThreadId} {m s' : State} (h : Finishes t m s' i) :
    s'.bufs = m.bufs := by
  cases h with
  | initFails e eq | initDone uninit eq => subst eq; simp
  | _ => subst s'; rfl

/-- Every write of the machine keeps the table's canonical form: only stores of frames and buffers
given by the host write it. -/
theorem preserved_bufsOk :
    Preserved (fun _ => True) True fun s t : State => s.bufsOk → t.bufsOk where
  trans h k hs := k (h hs)
  quiet h hs := h.wf hs
  issue _ _ _ _ hs := hs
  fault _ _ hs := hs
  writes _ _ _ h := h.apart.bufsOk
  finishes _ h hs := by rw [State.bufsOk, h.bufs]; exact hs
  acquireTake s t := (apart_acquireTake s t).bufsOk
  wake s _ := (apart_wake s).bufsOk
  waitTimeout s := (apart_waitTimeout s).bufsOk
  giveBuffer s t h bytes hs := State.giveBuffer_wf s hs t h bytes

/-- Settles O11: every write keeps the table's form, and the reset event leaves the table. -/
theorem bufferFormKept : Obligations.BufferFormKept := by
  unfold Obligations.BufferFormKept
  intro s t hs he
  exact preserved_bufsOk.step_keeps (fun _ h => h) hs he

/-! ## Mode, technology and context -/

/-- Mode, technology and context are as before. -/
structure SameSelection (s t : State) : Prop where
  mode : t.mode = s.mode
  tech : t.tech = s.tech
  ctx : t.ctx = s.ctx

theorem SameSelection.trans {s m k : State} (h : SameSelection s m) (g : SameSelection m k) :
    SameSelection s k :=
  ⟨g.mode.trans h.mode, g.tech.trans h.tech, g.ctx.trans h.ctx⟩

theorem Quiet.sameSelection {s m : State} (h : Quiet s m) : SameSelection s m :=
  ⟨h.mode, h.tech, h.ctx⟩

/-- Neither SET_MODE nor RESET_MODE. -/
def LeavesMode (i : Instr) : Prop := i ≠ .resetMode ∧ ∀ m x, i ≠ .setMode m x

/-- No command without frames writes the selection. -/
theorem Writes.sameSelection {i : Instr} {t : ThreadId} {s s' : State} (h : Writes t s s' i) :
    SameSelection s s' := by
  cases h with
  | timerStartFc tm d x ticks which up eq => subst eq; constructor <;> simp
  | timerStop tm x which eq => subst eq; constructor <;> simp
  | _ => subst s'; exact ⟨rfl, rfl, rfl⟩

/-- Of the commands with frames only SET_MODE and RESET_MODE write the selection. -/
theorem Finishes.sameSelection {i : Instr} {t : ThreadId} {m s' : State} (h : Finishes t m s' i)
    (hl : LeavesMode i) : SameSelection m s' := by
  cases h with
  | setMode mode tech r x ready eq => exact absurd rfl (hl.2 mode tech)
  | resetMode ready eq => exact absurd rfl hl.1
  | initFails e eq | initDone uninit eq => subst eq; constructor <;> simp
  | deinit free unset eq => subst eq; exact ⟨rfl, rfl, rfl⟩

theorem sameSelection_acquireTake (s : State) (t : ThreadId) :
    SameSelection s (s.acquireTake t) := by
  unfold State.acquireTake
  split <;> exact ⟨rfl, rfl, rfl⟩

theorem sameSelection_wake (s : State) : SameSelection s s.wake := by
  unfold State.wake
  split
  · exact ⟨rfl, rfl, rfl⟩
  · split <;> exact ⟨rfl, rfl, rfl⟩

theorem sameSelection_waitTimeout (s : State) : SameSelection s s.waitTimeout := by
  unfold State.waitTimeout
  split <;> exact ⟨rfl, rfl, rfl⟩

/-- Every write but those of SET_MODE and RESET_MODE leaves the selection. -/
theorem preserved_sameSelection : Preserved LeavesMode True SameSelection where
  trans := SameSelection.trans
  quiet := Quiet.sameSelection
  issue _ _ _ _ := ⟨rfl, rfl, rfl⟩
  fault _ _ := ⟨rfl, rfl, rfl⟩
  writes _ _ _ := Writes.sameSelection
  finishes hl h := h.sameSelection hl
  acquireTake := sameSelection_acquireTake
  wake s _ := sameSelection_wake s
  waitTimeout := sameSelection_waitTimeout
  giveBuffer _ _ _ _ := ⟨by simp, by simp, by simp⟩

/-- Mode and technology are selected together (R36). -/
def State.Paired (s : State) : Prop := s.mode = .none ↔ s.tech = none

theorem SameSelection.paired {s t : State} (h : SameSelection s t) (hs : s.Paired) : t.Paired := by
  unfold State.Paired
  rw [h.mode, h.tech]
  exact hs

/-- What a command with frames writes pairs mode and technology: SET_MODE selects both, RESET_MODE
neither. -/
theorem Finishes.paired {i : Instr} {t : ThreadId} {m s' : State} (h : Finishes t m s' i)
    (hm : m.Paired) : s'.Paired := by
  have leaves (hl : LeavesMode i) : s'.Paired := (h.sameSelection hl).paired hm
  cases h with
  | setMode mode tech r x ready eq =>
    subst eq
    cases r <;> simp [State.Paired, modeOfRole]
  | resetMode ready eq => subst eq; simp [State.Paired]
  | initFails | initDone | deinit => exact leaves ⟨nofun, nofun⟩

/-- Every write keeps mode and technology paired. -/
theorem preserved_paired :
    Preserved (fun _ => True) True fun s t : State => s.Paired → t.Paired where
  trans h k hs := k (h hs)
  quiet h := h.sameSelection.paired
  issue s items t windows := (preserved_sameSelection.issue s items t windows).paired
  fault s c := (preserved_sameSelection.fault s c).paired
  writes _ _ _ h := h.sameSelection.paired
  finishes _ := Finishes.paired
  acquireTake s t := (sameSelection_acquireTake s t).paired
  wake s _ := (sameSelection_wake s).paired
  waitTimeout s := (sameSelection_waitTimeout s).paired
  giveBuffer s t h bytes := (preserved_sameSelection.giveBuffer s t h bytes).paired

/-- Settles O12: every write keeps the pair, and without SET_MODE and RESET_MODE among the records
issued the selection itself. -/
theorem modeWriters : Obligations.ModeWriters := by
  unfold Obligations.ModeWriters
  refine ⟨⟨rfl, rfl⟩, fun s t item rest hs he => ⟨fun paired => ?_, fun noReset records => ?_⟩⟩
  · exact preserved_paired.step_keeps (fun _ _ => ⟨fun _ => rfl, fun _ => rfl⟩) paired he
  · rcases preserved_sameSelection.step hs records (fun _ => trivial) he with h | ⟨reset, -⟩
    · exact ⟨h.mode, h.tech, h.ctx⟩
    · simp [noReset] at reset

end Sys2Proof.Machine
end

section
/-! The read-modify-write commands (spec/41_driver.md R145 to R148), alone with what stands between
their two frames and issued by another thread; and what every command with frames keeps of the
session, whatever stands between its frames (spec/20_memory.md R86). -/

namespace Sys2Proof.Machine

open Sys2Proof

/-! ## The read-modify-write commands -/

/-- A register access passes its checks: its thread holds the lock and its address is legal. -/
theorem registerChecks_pass {t : ThreadId} {s : State} {a : Byte} (held : s.holder = some t)
    (legal : addrLegal s.cfg a) : firstFail (needLock t s :: addrChecks s.cfg a) = none := by
  have ok : driverAddrOk s.cfg a = true := (driverAddrOk_eq s.cfg a).2 legal
  simp [needLock, addrChecks, held, ok]

theorem readFrame_eq (cfg : Params) (a : Byte) :
    readFrame cfg a = prefixOf cfg a ++ [cfg.spiRegRead ++ regOf cfg a] := by
  rw [readFrame, spacePfx_eq, modeRead, regNo_eq]

theorem writeFrame_eq (cfg : Params) (a : Byte) (values : List Byte) :
    writeFrame cfg a values = prefixOf cfg a ++ (cfg.spiRegWrite ++ regOf cfg a) :: values := by
  rw [writeFrame, spacePfx_eq, modeWrite, regNo_eq]

/-- The state after the read frame of a read-modify-write. -/
def State.afterRead (s : State) (a : Byte) : State :=
  s.frame (prefixOf s.cfg a ++ [s.cfg.spiRegRead ++ regOf s.cfg a]) 1

/-- The write frame of a read-modify-write that read under the parameters `cfg`, sent from `u`. -/
def State.afterWrite (u : State) (cfg : Params) (a new : Byte) : State :=
  u.frame (prefixOf cfg a ++ [cfg.spiRegWrite ++ regOf cfg a, new]) 0

/-- What a read-modify-write does after it read `old`: it ends at once where the value stays (R84);
otherwise its write frame comes, after whatever the other agents do. -/
theorem rmw_after_read {a old : Byte} {s : State} (f : Byte → Byte) (answer : s.answers 1 = [old]) :
    (opRmw false a f s).andThen doneOk =
      if f old = old then .go [0x00] (s.afterRead a)
      else .gap (s.afterRead a) fun u => .go [0x00] (u.afterWrite s.cfg a (f old)) := by
  simp only [opRmw, opRegRead, busFrame_first, Prog.go_andThen, answer, List.headD_cons,
    readFrame_eq]
  split
  · rfl
  · simp only [opRegWrite, busFrame_later, Prog.gap_andThen, Prog.go_andThen, writeFrame_eq]
    rfl

/-- What a read-modify-write of the issuing thread leaves, its new value being `new`. -/
def State.afterRmw (s : State) (a new : Byte) : State :=
  if s.answers 1 = [new] then (s.afterRead a).reply s.cur [0x00]
  else
    match (s.afterRead a).interleave [] with
    | .go _ u => (u.afterWrite s.cfg a new).reply s.cur [0x00]
    | .stop u => u
    | .void => s

/-- A read-modify-write with what the other agents do between its two frames. -/
theorem rmw_close {a old : Byte} {s : State} (f : Byte → Byte) (answer : s.answers 1 = [old]) :
    (((opRmw false a f s).andThen doneOk).weave []).close s = s.afterRmw a (f old) := by
  rw [rmw_after_read f answer, State.afterRmw, answer]
  by_cases same : f old = old
  · rw [if_pos same, if_pos (by rw [same]), Prog.weave_go, Run.go_close]
  · have changed : [old] ≠ [f old] := fun e => same (List.singleton_inj.1 e).symm
    rw [if_neg same, if_neg changed, Prog.weave_gap]
    cases (s.afterRead a).interleave [] <;> rfl

/-- A command of the lock's holder that is a read-modify-write of a legal address. -/
theorem exec_rmw {i : Instr} {a old : Byte} {s : State} (f : Byte → Byte) (hs : s.holding)
    (legal : addrLegal s.cfg a) (answer : s.answers 1 = [old])
    (checks : instrChecks i s.cur s = needLock s.cur s :: addrChecks s.cfg a)
    (effect : instrEffect i s.cur s = (opRmw false a f s).andThen doneOk) :
    exec i s = .next (s.afterRmw a (f old)) := by
  obtain ⟨running, held⟩ := hs
  rw [exec_pass running (checks ▸ registerChecks_pass held legal), effect, rmw_close f answer]

/-- REG_SET_BITS of another thread that holds the lock, where it changes the value read: the command
stops after its read frame. -/
theorem setBits_beside {s : State} {t : ThreadId} {others : List Pending} {a mask old : Byte}
    (running : s.fault = none) (other : t ≠ s.cur) (idle : s.blocked t = false)
    (free : inProgress t others = false) (held : s.holder = some t) (legal : addrLegal s.cfg a)
    (answer : s.answers 1 = [old]) (changes : setBits mask old ≠ old) :
    windowStep (.command t [0x06, a, mask]) others s =
      (others ++ [⟨t, fun u => .go [0x00] (u.afterWrite s.cfg a (setBits mask old))⟩],
        s.afterRead a) := by
  have decoded : decode [0x06, a, mask] = .ok (.regSetBits a mask, []) := rfl
  have effect : instrEffect (.regSetBits a mask) t s =
      .gap (s.afterRead a) fun u => .go [0x00] (u.afterWrite s.cfg a (setBits mask old)) :=
    (rmw_after_read (setBits mask) answer).trans (if_neg changes)
  rw [windowStep, otherCommand_pass other idle free running decoded rfl
    (registerChecks_pass held legal), effect, settle]

/-- Settles O24: the command is its read frame and, where the value changes, its write frame, in the
state that the other agents leave; another thread's takes the two frames as two steps. -/
theorem readModifyWriteCompletes : Obligations.ReadModifyWriteCompletes := by
  unfold Obligations.ReadModifyWriteCompletes
  refine ⟨fun s t others a mask old running other idle free held legal answer changes => ?_,
    fun s a mask val hs legal => ?_⟩
  · refine ⟨_, setBits_beside running other idle free held legal answer changes,
      fun u rest free => ?_⟩
    rw [windowStep, resume_last _ u free]
    rfl
  · obtain ⟨old, answer⟩ : ∃ old, s.answers 1 = [old] :=
      List.length_eq_one_iff.1 (s.answers_length 1)
    exact ⟨old, answer, exec_rmw (changeBits mask val) hs legal answer rfl rfl,
      exec_rmw (setBits mask) hs legal answer rfl rfl,
      exec_rmw (clearBits mask) hs legal answer rfl rfl⟩

/-! ## What a command with frames keeps of the session -/

/-- The commands but those that write the session: mode, phase, lock, low power, a timer or a
wait. -/
def leavesSession : Instr → Bool
  | .lpExit | .lpEnter | .timerStartFc _ _ | .timerStartUs _ _ | .timerStop _ | .eventWait _
  | .setMode _ _ | .resetMode | .init | .deinit | .acquire | .release => false
  | _ => true

theorem Writes.not_leavesSession {i : Instr} {t : ThreadId} {s s' : State} (h : Writes t s s' i) :
    leavesSession i = false := by
  cases h <;> rfl

theorem Finishes.not_leavesSession {i : Instr} {t : ThreadId} {m s' : State}
    (h : Finishes t m s' i) : leavesSession i = false := by
  cases h <;> rfl

theorem lifecycle_of_leavesSession {i : Instr} (h : leavesSession i = true) :
    lifecycle i = false := by
  cases i
  case init | deinit => cases h
  all_goals rfl

/-- A command that leaves the session ends in a state in which it is spared; or in such a state the
block is halted, by a check of the command or by another thread's record (R327), or a window resets
it. -/
theorem exec_keeps_session {i : Instr} {s t : State} (hi : leavesSession i = true)
    (he : exec i s = .next t) :
    s.fault = none ∧ ∃ m, Spares s m ∧
      (t = m ∨ (∃ c, t = m.takeFault c) ∨ t = m.blockReset ∧ Ahead s .reset) := by
  obtain ⟨running, ⟨c, -, rfl⟩ | ⟨passed, -, -⟩⟩ := exec_cases he
  · exact ⟨running, s, Spares.refl s, .inr (.inl ⟨c, rfl⟩)⟩
  refine ⟨running, ?_⟩
  rcases exec_spares he passed (.inl (lifecycle_of_leavesSession hi)) with
    ⟨m, spared, rfl | finishes⟩ |
    ⟨m, spared, ⟨_, -, _, _, c, -, rfl⟩ | ⟨reset, rfl⟩⟩ | writes
  · exact ⟨_, spared, .inl rfl⟩
  · simp [finishes.not_leavesSession] at hi
  · exact ⟨m, spared, .inr (.inl ⟨c, rfl⟩)⟩
  · exact ⟨m, spared, .inr (.inr ⟨rfl, reset⟩)⟩
  · simp [writes.not_leavesSession] at hi

/-- No flag is cleared (R183). -/
theorem Spares.evf_and {s m : State} (h : Spares s m) : m.evf &&& s.evf = s.evf := by
  refine BitVec.eq_of_getLsbD_eq fun k _ => ?_
  rw [BitVec.getLsbD_and]
  cases set : s.evf.getLsbD k with
  | false => simp
  | true => simp [h.flags k set]

/-- Settles O40: none of these commands writes the session, and what stands between their frames
spares it. -/
theorem framesKeepSession : Obligations.FramesKeepSession := by
  unfold Obligations.FramesKeepSession
  intro i s t a mask val h n listed he
  have leaves : leavesSession i = true :=
    (List.all_eq_true (p := leavesSession)).1 (by rfl) i listed
  obtain ⟨running, m, spared, ends⟩ := exec_keeps_session leaves he
  obtain ⟨given, results, -⟩ := spared.results
  exact ⟨m, spared.cfg, spared.phase, spared.lp, spared.mode, spared.tech, spared.ctx,
    spared.holder, spared.waiter, spared.fault.trans running, spared.evf_and,
    fun k => ⟨spared.init k, spared.psc k, spared.arr k⟩, spared.bus, ⟨given, results⟩, ends⟩

end Sys2Proof.Machine
end

section
/-! The records of spec/30_encoding.md R103: decoding and encoding are inverse, the opcodes that no
record has, what issuing a record comes to, and the commands of one frame that store nothing
(spec/41_driver.md R140 to R158). -/

namespace Sys2Proof

/-! ## A record's operand fields

What each shape of fields reads: exactly the bytes of its operands. -/

section Shapes
variable {i : Instr} {r rest : List Byte}

theorem fields0_eq_ok {j : Instr} : fields0 j r = .ok (i, rest) ↔ j = i ∧ r = rest := by
  simp [fields0]

theorem fields1_eq_ok {mk : Byte → Instr} :
    fields1 mk r = .ok (i, rest) ↔ ∃ x, mk x = i ∧ r = x :: rest := by
  constructor
  · intro h
    unfold fields1 at h
    split at h <;> cases h
    exact ⟨_, rfl, rfl⟩
  · rintro ⟨x, rfl, rfl⟩
    rfl

theorem fields11_eq_ok {mk : Byte → Byte → Instr} :
    fields11 mk r = .ok (i, rest) ↔ ∃ x y, mk x y = i ∧ r = x :: y :: rest := by
  constructor
  · intro h
    unfold fields11 at h
    split at h <;> cases h
    exact ⟨_, _, rfl, rfl⟩
  · rintro ⟨x, y, rfl, rfl⟩
    rfl

theorem fields111_eq_ok {mk : Byte → Byte → Byte → Instr} :
    fields111 mk r = .ok (i, rest) ↔ ∃ x y z, mk x y z = i ∧ r = x :: y :: z :: rest := by
  constructor
  · intro h
    unfold fields111 at h
    split at h <;> cases h
    exact ⟨_, _, _, rfl, rfl⟩
  · rintro ⟨x, y, z, rfl, rfl⟩
    rfl

theorem fields121_eq_ok {mk : Byte → BitVec 16 → Byte → Instr} :
    fields121 mk r = .ok (i, rest) ↔ ∃ x n y, mk x n y = i ∧ r = x :: (bytes16 n ++ y :: rest) := by
  constructor
  · intro h
    unfold fields121 at h
    split at h <;> cases h
    exact ⟨_, _, _, rfl, by simp⟩
  · rintro ⟨x, n, y, rfl, rfl⟩
    simp [fields121, bytes16]

theorem fields12_eq_ok {mk : Byte → BitVec 16 → Instr} :
    fields12 mk r = .ok (i, rest) ↔ ∃ x n, mk x n = i ∧ r = x :: (bytes16 n ++ rest) := by
  constructor
  · intro h
    unfold fields12 at h
    split at h <;> cases h
    exact ⟨_, _, rfl, by simp⟩
  · rintro ⟨x, n, rfl, rfl⟩
    simp [fields12, bytes16]

theorem fields14_eq_ok {mk : Byte → BitVec 32 → Instr} :
    fields14 mk r = .ok (i, rest) ↔ ∃ x n, mk x n = i ∧ r = x :: (bytes32 n ++ rest) := by
  constructor
  · intro h
    unfold fields14 at h
    split at h <;> cases h
    exact ⟨_, _, rfl, by simp⟩
  · rintro ⟨x, n, rfl, rfl⟩
    simp [fields14, bytes32]

theorem fields4_eq_ok {mk : BitVec 32 → Instr} :
    fields4 mk r = .ok (i, rest) ↔ ∃ n, mk n = i ∧ r = bytes32 n ++ rest := by
  constructor
  · intro h
    unfold fields4 at h
    split at h <;> cases h
    exact ⟨_, rfl, by simp⟩
  · rintro ⟨n, rfl, rfl⟩
    simp [fields4, bytes32]

theorem fields141_eq_ok {mk : Byte → BitVec 32 → Byte → Instr} :
    fields141 mk r = .ok (i, rest) ↔ ∃ x n y, mk x n y = i ∧ r = x :: (bytes32 n ++ y :: rest) := by
  constructor
  · intro h
    unfold fields141 at h
    split at h <;> cases h
    exact ⟨_, _, _, rfl, by simp⟩
  · rintro ⟨x, n, y, rfl, rfl⟩
    simp [fields141, bytes32]

end Shapes

/-! ## Decoding and encoding -/

/-- Settles O1: the opcode of a record selects the shape of its command, which reads the operands
back from their bytes. -/
theorem decodeEncodeAgree : Obligations.DecodeEncodeAgree := by
  unfold Obligations.DecodeEncodeAgree
  intro i rest
  cases i with
  | regReadBurst a n buf => exact fields121_eq_ok.2 ⟨a, n, buf, rfl, rfl⟩
  | regWriteBurst a n buf => exact fields121_eq_ok.2 ⟨a, n, buf, rfl, rfl⟩
  | fifoWrite buf bits => exact fields12_eq_ok.2 ⟨buf, bits, rfl, rfl⟩
  | transmit buf bits => exact fields12_eq_ok.2 ⟨buf, bits, rfl, rfl⟩
  | timerStartFc t d => exact fields14_eq_ok.2 ⟨t, d, rfl, rfl⟩
  | timerStartUs t d => exact fields14_eq_ok.2 ⟨t, d, rfl, rfl⟩
  | eventWait tmo => exact fields4_eq_ok.2 ⟨tmo, rfl, rfl⟩
  | iso15693EncodeFrame bin n bout => exact fields141_eq_ok.2 ⟨bin, n, bout, rfl, rfl⟩
  | iso15693DecodeFrame bin n bout => exact fields141_eq_ok.2 ⟨bin, n, bout, rfl, rfl⟩
  | _ => rfl

/-- In every row of the table the operands read are those that the encoder writes behind the
opcode. -/
theorem encode_of_decodeFields {op : Byte} {r rest : List Byte} {i : Instr}
    (h : decodeFields op r = .ok (i, rest)) : op :: r = encode i ++ rest := by
  unfold decodeFields at h
  split at h
  case h_37 => cases h
  all_goals
    rename_i row
    obtain ⟨-, rfl⟩ := BitVec.toNat_eq_nat.1 row
    revert h
    simp only [fields0_eq_ok, fields1_eq_ok, fields11_eq_ok, fields111_eq_ok, fields121_eq_ok,
      fields12_eq_ok, fields14_eq_ok, fields4_eq_ok, fields141_eq_ok, forall_exists_index, and_imp]
    intros
    subst_vars
    rfl

/-- Settles O2: a record that decodes has an opcode of the table and its operands behind it. -/
theorem encodeDecodeAgree : Obligations.EncodeDecodeAgree := by
  unfold Obligations.EncodeDecodeAgree
  intro i bytes rest h
  cases bytes with
  | nil => cases h
  | cons op r => exact encode_of_decodeFields h

/-- Settles O3: each record is evaluated. -/
theorem recordWordsDecode : Obligations.RecordWordsDecode := by
  unfold Obligations.RecordWordsDecode
  decide

end Sys2Proof

namespace Sys2Proof.Machine

open Sys2Proof

/-! ## Issuing a record -/

/-- A command record at the head of the schedule is issued by its thread. -/
theorem step_command {s : State} {t : ThreadId} {record : List Byte} {w : List (List WindowStep)}
    {rest : List SchedItem} (running : s.fault = none)
    (head : s.sched = .command t record w :: rest) :
    step s = issue t record w { s with sched := rest } :=
  step_item s _ rest head running

/-- Settles O5: the record at the head is issued, and a record that decodes runs its command. -/
theorem stepRunsDecoded : Obligations.StepRunsDecoded := by
  unfold Obligations.StepRunsDecoded
  intro s t record w rest i r running idle head decoded
  rw [step_command running head]
  exact issue_exec idle decoded

/-- The opcodes of R103's table, in its order. -/
def tableOpcodes : List Byte :=
  [0x01, 0x02, 0x03, 0x04, 0x05, 0x06, 0x07, 0x08, 0x09, 0x0A, 0x0B, 0x0C,
   0x10, 0x11, 0x12, 0x13, 0x14, 0x15, 0x16, 0x20, 0x21, 0x22, 0x23, 0x24, 0x25, 0x26,
   0x30, 0x31, 0x40, 0x41, 0x42, 0x43, 0x44, 0x45, 0x46, 0x47]

/-- An opcode that is not in the table is illegal, whatever bytes follow it (R106). -/
theorem decodeFields_illegal {op : Byte} (unlisted : op ∉ tableOpcodes) (r : List Byte) :
    decodeFields op r = .error (.illegalOpcode op) := by
  unfold decodeFields
  split
  case h_37 => rfl
  all_goals
    rename_i row
    obtain ⟨-, rfl⟩ := BitVec.toNat_eq_nat.1 row
    exact absurd (by decide) unlisted

/-- A record with an illegal opcode halts the block (R106). -/
theorem issue_illegal {t : ThreadId} {record : List Byte} {w : List (List WindowStep)} {s : State}
    {op : Byte} (idle : s.blocked t = false) (illegal : decode record = .error (.illegalOpcode op)) :
    issue t record w s = .next ({ s with cur := t, windows := w }.takeFault .illegalCommand) := by
  simp [issue, idle, illegal]

/-- Settles O4: the record at the head is issued, and its opcode has no row. -/
theorem illegalOpcodeFaults : Obligations.IllegalOpcodeFaults := by
  unfold Obligations.IllegalOpcodeFaults
  intro s t op r w rest running idle head unlisted
  rw [step_command running head]
  exact issue_illegal idle (decodeFields_illegal unlisted r)

/-! ## The commands of one frame that store nothing -/

/-- A driver command with one operand check passes its checks: its thread holds the lock and the
operand is admitted. -/
theorem operandCheck_pass {t : ThreadId} {s : State} {ok : Bool} (c : FatalCode)
    (held : s.holder = some t) (admitted : ok = true) :
    firstFail [needLock t s, (!ok, c)] = none := by
  simp [needLock, firstFail, held, admitted]

theorem testReadFrame_eq (cfg : Params) (ta : Byte) :
    testReadFrame cfg ta = [cfg.spiTestPrefix, cfg.spiRegRead ++ regOf cfg ta] := by
  rw [testReadFrame, modeRead, regNo_eq]

theorem testWriteFrame_eq (cfg : Params) (ta v : Byte) :
    testWriteFrame cfg ta v = [cfg.spiTestPrefix, cfg.spiRegWrite ++ regOf cfg ta, v] := by
  rw [testWriteFrame, modeWrite, regNo_eq]

/-- What a register read of the one frame `tx` does: its answer is the output. -/
theorem readEffect_eq {s : State} {x : Byte} (tx : List Byte) (answer : s.answers 1 = [x]) :
    (((busFrame false tx 1 s).andThen fun rx s => .go (rx.headD 0) s).andThen
      fun v s => .go (okRecord [v]) s) = .go [0x00, x] (s.frame tx 1) := by
  simp only [busFrame_first, Prog.go_andThen, answer, List.headD_cons, okRecord]

/-- A command that has sent its last frame in its own state returns its record. -/
theorem exec_oneFrame {i : Instr} {s : State} {record tx : List Byte} {n : Nat}
    (running : s.fault = none) (passed : firstFail (instrChecks i s.cur s) = none)
    (effect : instrEffect i s.cur s = .go record (s.frame tx n)) :
    exec i s = .next ((s.frame tx n).reply s.cur record) := by
  rw [exec_pass running passed, effect, Prog.weave_go, Run.go_close]

section OneFrame
variable {s : State} {a : Byte}

theorem exec_regRead {x : Byte} (hs : s.holding) (legal : addrLegal s.cfg a)
    (answer : s.answers 1 = [x]) :
    exec (.regRead a) s =
      .next ((s.frame (prefixOf s.cfg a ++ [s.cfg.spiRegRead ++ regOf s.cfg a]) 1).reply s.cur
        [0x00, x]) := by
  obtain ⟨running, held⟩ := hs
  rw [← readFrame_eq]
  exact exec_oneFrame running (registerChecks_pass held legal) (readEffect_eq _ answer)

theorem exec_regWrite (v : Byte) (hs : s.holding) (legal : addrLegal s.cfg a) :
    exec (.regWrite a v) s =
      .next ((s.frame (prefixOf s.cfg a ++ [s.cfg.spiRegWrite ++ regOf s.cfg a, v]) 0).reply s.cur
        [0x00]) := by
  obtain ⟨running, held⟩ := hs
  rw [← writeFrame_eq]
  exact exec_oneFrame running (registerChecks_pass held legal) rfl

theorem exec_testRegRead {x : Byte} (hs : s.holding) (small : a.toNat < 2 ^ s.cfg.regAddrBits.val)
    (answer : s.answers 1 = [x]) :
    exec (.testRegRead a) s =
      .next ((s.frame [s.cfg.spiTestPrefix, s.cfg.spiRegRead ++ regOf s.cfg a] 1).reply s.cur
        [0x00, x]) := by
  obtain ⟨running, held⟩ := hs
  rw [← testReadFrame_eq]
  exact exec_oneFrame running (operandCheck_pass _ held ((testAddrOk_eq _ _).2 small))
    (readEffect_eq _ answer)

theorem exec_testRegWrite (v : Byte) (hs : s.holding)
    (small : a.toNat < 2 ^ s.cfg.regAddrBits.val) :
    exec (.testRegWrite a v) s =
      .next ((s.frame [s.cfg.spiTestPrefix, s.cfg.spiRegWrite ++ regOf s.cfg a, v] 0).reply s.cur
        [0x00]) := by
  obtain ⟨running, held⟩ := hs
  rw [← testWriteFrame_eq]
  exact exec_oneFrame running (operandCheck_pass _ held ((testAddrOk_eq _ _).2 small)) rfl

theorem exec_directCmd (hs : s.holding) (legal : directLegal s.cfg a) :
    exec (.directCmd a) s = .next ((s.frame [a] 0).reply s.cur [0x00]) := by
  obtain ⟨running, held⟩ := hs
  exact exec_oneFrame running (operandCheck_pass _ held ((directOk_eq _ _).2 legal)) rfl

end OneFrame

/-- With R11's mode bits a direct command has both top bits set (R158). -/
theorem wireDefaults_direct {cfg : Params} (c : Byte) (h : wireDefaults cfg) :
    directLegal cfg c ↔
      c.toNat / 64 = 3 ∧ c ≠ cfg.spiSpaceBPrefix ∧ c ≠ cfg.spiTestPrefix := by
  obtain ⟨-, -, -, -, direct⟩ := h
  rw [directLegal, direct]
  rfl

/-- Settles O21: each command passes its checks and is its one frame; the bytes with R11's values are
those of `wireDefaults_bytes`. -/
theorem oneFrameCommandsComplete : Obligations.OneFrameCommandsComplete := by
  unfold Obligations.OneFrameCommandsComplete
  intro s a v hs
  obtain ⟨x, answer⟩ : ∃ x, s.answers 1 = [x] := List.length_eq_one_iff.1 (s.answers_length 1)
  refine ⟨fun legal => ⟨⟨x, answer, exec_regRead hs legal answer⟩, exec_regWrite v hs legal⟩,
    fun small => ⟨⟨x, answer, exec_testRegRead hs small answer⟩, exec_testRegWrite v hs small⟩,
    exec_directCmd hs, fun defaults => ?_⟩
  obtain ⟨address, space, read, write⟩ := wireDefaults_bytes s.cfg a defaults
  exact ⟨address, read, write, space, wireDefaults_direct a defaults⟩

end Sys2Proof.Machine
end

section
/-! The driver commands' checks (spec/41_driver.md R139 to R158), each list as the condition under
which it reports each code; and the commands that move bytes of a host buffer. -/

namespace Sys2Proof.Machine

open Sys2Proof

/-! ## The checks of the driver commands -/

/-- A check, as the condition under which it fails. -/
theorem firstFail_cons_of_iff {failed : Bool} {P : Prop} [Decidable P] (c : FatalCode)
    (r : List Check) (fails : failed = true ↔ P) :
    firstFail ((failed, c) :: r) = if P then some c else firstFail r :=
  if_congr fails rfl rfl

/-- The code that a command's checks report is raised (R326, R329). -/
theorem raises_of_firstFail {i : Instr} {s : State} {code : Option FatalCode}
    (running : s.fault = none) (reports : firstFail (instrChecks i s.cur s) = code) :
    Raises i s code := by
  intro c is
  rw [exec_checked, checked_fail _ running (reports.trans is)]
  rfl

/-- A command whose first check is the lock's, as every driver command's is (R139), reports NO_LOCK,
or what its other checks report. -/
theorem raises_of_lockFirst {i : Instr} {s : State} {l : List Check} {own : Option FatalCode}
    (running : s.fault = none) (reports : firstFail l = own)
    (checks : instrChecks i s.cur s = needLock s.cur s :: l := by rfl) :
    Raises i s (if s.holder ≠ some s.cur then some .noLock else own) := by
  refine raises_of_firstFail running ?_
  rw [checks, ← reports]
  exact firstFail_cons_of_iff _ _ decide_eq_true_iff

/-- A driver command of the lock's holder whose other checks pass runs its effect. -/
theorem exec_lockFirst {i : Instr} {s : State} {l : List Check} (hs : s.holding)
    (passed : firstFail l = none)
    (checks : instrChecks i s.cur s = needLock s.cur s :: l := by rfl) :
    exec i s = .next (((instrEffect i s.cur s).weave []).close s) := by
  obtain ⟨running, held⟩ := hs
  have lock : needLock s.cur s = (false, .noLock) := by simp [needLock, held]
  exact exec_pass running (by rw [checks, lock]; exact passed)

theorem firstFail_addrChecks (cfg : Params) (a : Byte) :
    firstFail (addrChecks cfg a) = if ¬addrLegal cfg a then some .badOperand else none :=
  firstFail_cons_of_iff _ _ (by rw [Bool.not_eq_true', driverAddrOk_false])

theorem firstFail_testChecks (cfg : Params) (a : Byte) :
    firstFail (testChecks cfg a) =
      if 2 ^ cfg.regAddrBits.val ≤ a.toNat then some .badOperand else none :=
  firstFail_cons_of_iff _ _ (by
    rw [Bool.not_eq_true', ← Bool.not_eq_true, testAddrOk_eq, Nat.not_lt])

theorem firstFail_directChecks (cfg : Params) (c : Byte) :
    firstFail (directChecks cfg c) = if ¬directLegal cfg c then some .badOperand else none :=
  firstFail_cons_of_iff _ _ (by rw [Bool.not_eq_true', ← Bool.not_eq_true, directOk_eq])

theorem firstFail_needBuf (t : ThreadId) (h : Byte) (s : State) (r : List Check) :
    firstFail (needBuf t h s :: r) =
      if s.buffer t h = none then some .nullArg else firstFail r :=
  firstFail_cons_of_iff _ _ (absent_eq_true s t h)

theorem toNat_eq_zero_iff {w : Nat} (v : BitVec w) : v.toNat = 0 ↔ v = 0 := by
  simp [BitVec.toNat_eq]

/-- A burst's checks, in the order of its pseudocode (R143, R144, log 9). -/
theorem firstFail_burstChecks (a : Byte) (n : BitVec 16) (h : Byte) (t : ThreadId) (s : State) :
    firstFail (burstChecks a n h t s) =
      if ¬addrLegal s.cfg a ∨ n = 0 then some .badOperand
      else if s.buffer t h = none then some .nullArg
      else if s.cap t h < n.toNat ∨ 2 ^ s.cfg.regAddrBits.val <
          a.toNat % 2 ^ s.cfg.regAddrBits.val + n.toNat then some .badOperand
      else none := by
  have operand : (!driverAddrOk s.cfg a || decide (n.toNat = 0)) = true ↔
      ¬addrLegal s.cfg a ∨ n = 0 := by
    rw [Bool.or_eq_true, Bool.not_eq_true', driverAddrOk_false, decide_eq_true_iff,
      toNat_eq_zero_iff]
  have room : (decide (n.toNat > s.cap t h) ||
      decide ((regNo s.cfg a).toNat + n.toNat > spaceSize s.cfg)) = true ↔
      s.cap t h < n.toNat ∨ 2 ^ s.cfg.regAddrBits.val <
        a.toNat % 2 ^ s.cfg.regAddrBits.val + n.toNat := by
    rw [Bool.or_eq_true, decide_eq_true_iff, decide_eq_true_iff, regNo_toNat, spaceSize]
  rw [burstChecks, firstFail_cons_of_iff _ _ operand, firstFail_needBuf,
    firstFail_cons_of_iff _ _ room, firstFail_nil]

/-- The size checks of a FIFO load (R152). -/
theorem firstFail_loadCheck (cfg : Params) (bits cap : Nat) :
    firstFail [loadCheck cfg bits cap] =
      if bits = 0 ∨ cfg.fifoSize < (bits + 7) / 8 ∨ cap < (bits + 7) / 8 then some .badOperand
      else none :=
  firstFail_cons_of_iff _ _ (by simp [bytesFor, or_assoc])

theorem firstFail_fifoWriteChecks (h : Byte) (bits : BitVec 16) (t : ThreadId) (s : State) :
    firstFail (fifoWriteChecks h bits t s) =
      if s.buffer t h = none then some .nullArg
      else if bits = 0 ∨ s.cfg.fifoSize < (bits.toNat + 7) / 8 ∨
          s.cap t h < (bits.toNat + 7) / 8 then some .badOperand
      else none := by
  simp only [fifoWriteChecks, firstFail_needBuf, firstFail_loadCheck, toNat_eq_zero_iff]

theorem firstFail_fifoReadChecks (h : Byte) (t : ThreadId) (s : State) :
    firstFail (fifoReadChecks h t s) = if s.buffer t h = none then some .nullArg else none :=
  firstFail_needBuf t h s []

/-- Settles O15: every driver command checks the lock first, then its operands as the lemmas above
say. -/
theorem checkOrderDriver : Obligations.CheckOrderDriver := by
  unfold Obligations.CheckOrderDriver
  intro s a v mask n bits h running
  refine ⟨fun i listed => ?_, fun i listed => ?_, fun i listed => ?_,
    raises_of_lockFirst running (firstFail_fifoWriteChecks h bits s.cur s),
    raises_of_lockFirst running (firstFail_fifoReadChecks h s.cur s),
    raises_of_lockFirst running (firstFail_directChecks s.cfg a)⟩
  · refine raises_of_lockFirst running (firstFail_addrChecks s.cfg a) ?_
    simp only [List.mem_cons, List.not_mem_nil, or_false] at listed
    rcases listed with rfl | rfl | rfl | rfl | rfl <;> rfl
  · refine raises_of_lockFirst running (firstFail_testChecks s.cfg a) ?_
    simp only [List.mem_cons, List.not_mem_nil, or_false] at listed
    rcases listed with rfl | rfl <;> rfl
  · refine raises_of_lockFirst running (firstFail_burstChecks a n h s.cur s) ?_
    simp only [List.mem_cons, List.not_mem_nil, or_false] at listed
    rcases listed with rfl | rfl <;> rfl

/-! ## The bursts -/

theorem burstChecks_pass {a : Byte} {n : BitVec 16} {h : Byte} {t : ThreadId} {s : State}
    (legal : addrLegal s.cfg a) (some_bytes : n ≠ 0) (present : s.buffer t h ≠ none)
    (fits : n.toNat ≤ s.cap t h)
    (inside : a.toNat % 2 ^ s.cfg.regAddrBits.val + n.toNat ≤ 2 ^ s.cfg.regAddrBits.val) :
    firstFail (burstChecks a n h t s) = none := by
  rw [firstFail_burstChecks, if_neg (not_or.2 ⟨not_not.2 legal, some_bytes⟩), if_neg present,
    if_neg (not_or.2 ⟨Nat.not_lt.2 fits, Nat.not_lt.2 inside⟩)]

/-- Bytes stored to a buffer, and a result: the bytes stored are read there, every other byte of
every handle (log 35), every capacity and every other field is as before (R51). -/
theorem State.store_reply {m : State} {t : ThreadId} {h : Byte} {bytes : List Byte} {n : Nat}
    (ok : m.bufsOk) (present : m.buffer t h ≠ none) (fits : n ≤ m.cap t h)
    (count : bytes.length = n) (u : ThreadId) (record : List Byte) :
    { (m.store t h bytes).reply u record with bufs := m.bufs } = m.reply u record ∧
    (∀ v k j, ((m.store t h bytes).reply u record).bufByte v k j =
      if v = t ∧ k = h ∧ j < n then bytes.getD j 0 else m.bufByte v k j) ∧
    ∀ v k, ((m.store t h bytes).reply u record).cap v k = m.cap v k := by
  subst count
  refine ⟨?_, fun v k j => m.bufByte_store ok t v h k bytes fits present j,
    fun v k => m.cap_store t v h k bytes⟩
  obtain ⟨_, only⟩ := m.store_only t h bytes
  rw [only]
  rfl

/-- A burst read whose checks pass sends its frame and stores the answer. -/
theorem exec_regReadBurst {s : State} {a : Byte} {n : BitVec 16} {buf : Byte} (hs : s.holding)
    (passed : firstFail (burstChecks a n buf s.cur s) = none) :
    exec (.regReadBurst a n buf) s =
      .next (((s.frame (prefixOf s.cfg a ++ [s.cfg.spiRegRead ++ regOf s.cfg a]) n.toNat).store
        s.cur buf (s.answers n.toNat)).reply s.cur [0x00]) := by
  rw [exec_lockFirst hs passed, ← readFrame_eq]
  rfl

/-- Settles O22: the one frame, then the store of its answer. -/
theorem readBurstCompletes : Obligations.ReadBurstCompletes := by
  unfold Obligations.ReadBurstCompletes
  intro s a n buf hs ok legal some_bytes present fits inside
  refine ⟨_, exec_regReadBurst hs (burstChecks_pass legal some_bytes present fits inside), ?_⟩
  exact State.store_reply (m := s.frame _ n.toNat) ok present fits (s.answers_length _) _ _

/-- Settles O23: the checks pass, and the frame holds the buffer's bytes. -/
theorem writeBurstCompletes : Obligations.WriteBurstCompletes := by
  unfold Obligations.WriteBurstCompletes
  intro s a n buf hs legal some_bytes present fits inside values
  rw [exec_lockFirst hs (burstChecks_pass legal some_bytes present fits inside), ← writeFrame_eq]
  rfl

/-! ## The FIFO -/

theorem txLenFrame_eq (cfg : Params) (bits : Nat) :
    txLenFrame cfg bits = [cfg.spiRegWrite ++ cfg.regTxLen1, BitVec.ofNat 8 (bits / 8 / 32),
      BitVec.ofNat 8 (bits / 8 % 32 * 8 + bits % 8)] := by
  rw [txLenFrame, modeWrite, txLen1_eq, txLen2_eq]

theorem fifoWriteChecks_pass {h : Byte} {bits : BitVec 16} {t : ThreadId} {s : State}
    (present : s.buffer t h ≠ none) (some_bits : bits ≠ 0)
    (loads : (bits.toNat + 7) / 8 ≤ s.cfg.fifoSize) (fits : (bits.toNat + 7) / 8 ≤ s.cap t h) :
    firstFail (fifoWriteChecks h bits t s) = none := by
  rw [firstFail_fifoWriteChecks, if_neg present,
    if_neg (not_or.2 ⟨some_bits, not_or.2 ⟨Nat.not_lt.2 loads, Nat.not_lt.2 fits⟩⟩)]

/-- FIFO_WRITE sends the length registers' frame; the load comes in the state the other agents
leave, with the bytes the buffer held at the issue. -/
theorem fifoWriteEffect_eq (buf : Byte) (bits : BitVec 16) (t : ThreadId) (s : State) :
    fifoWriteEffect buf bits t s = .gap (s.frame (txLenFrame s.cfg bits.toNat) 0) fun u =>
      .go [0x00] (u.frame (s.cfg.spiFifoLoad :: s.bufBytes t buf (bytesFor bits.toNat)) 0) :=
  rfl

/-- Settles O25: the two frames, with what the other agents do between them. -/
theorem fifoWriteCompletes : Obligations.FifoWriteCompletes := by
  unfold Obligations.FifoWriteCompletes
  intro s buf bits hs m present some_bits loads fits len1 len2 bytes
  rw [exec_lockFirst hs (fifoWriteChecks_pass present some_bits loads fits), instrEffect,
    fifoWriteEffect_eq, txLenFrame_eq, Prog.weave_gap]
  cases State.interleave _ [] <;> rfl

/-- The state after the status frame of a FIFO unload. -/
def State.afterStatus (s : State) : State :=
  s.frame [s.cfg.spiRegRead ++ s.cfg.regFifoStatus1] 2

/-- A FIFO unload alone, and what follows it: after the status frame it is empty, or overflows, or
sends the unload frame (R155). -/
theorem opFifoUnload_alone {β : Type} {s : State} {s1 s2 : Byte} (alone : s.windows = [])
    (answer : s.answers 2 = [s1, s2]) (cap : Nat) (c : FifoAnswer → State → Prog β)
    (others : List Pending) :
    ((opFifoUnload false cap s).andThen c).weave others =
      let count := statusCount s.cfg s1 s2
      if count = 0 then (c .empty s.afterStatus).weave others
      else if cap < count then (c .overflow s.afterStatus).weave others
      else
        (c (.ok (s.afterStatus.answers count) (fifoBits count (s2.toNat / 2 % 8)))
          (s.afterStatus.frame [s.cfg.spiFifoRead] count)).weave others := by
  simp only [opFifoUnload, busFrame_first, Prog.go_andThen, answer, List.getD_cons_zero,
    List.getD_cons_succ, State.frame_cfg, fifoCount_eq, fifoLastBits_eq]
  split
  · rfl
  · split
    · rfl
    · rw [Prog.andThen_assoc, busFrame_alone true _ _ _ _ others (by exact alone)]
      rfl

/-- FIFO_READ alone, and what follows it: its bytes are stored when it succeeds (R155). -/
theorem opFifoRead_alone {β : Type} {s : State} {s1 s2 : Byte} (alone : s.windows = [])
    (answer : s.answers 2 = [s1, s2]) (h : Byte) (t : ThreadId)
    (c : FifoAnswer → State → Prog β) (others : List Pending) :
    ((opFifoRead false h t s).andThen c).weave others =
      let count := statusCount s.cfg s1 s2
      let bytes := s.afterStatus.answers count
      if count = 0 then (c .empty s.afterStatus).weave others
      else if s.cap t h < count then (c .overflow s.afterStatus).weave others
      else
        (c (.ok bytes (fifoBits count (s2.toNat / 2 % 8)))
          ((s.afterStatus.frame [s.cfg.spiFifoRead] count).store t h bytes)).weave others := by
  rw [opFifoRead, Prog.andThen_assoc, opFifoUnload_alone alone answer]
  rfl

/-- The two record bytes of a count (R101). -/
theorem bytes16_ofNat (n : Nat) :
    bytes16 (BitVec.ofNat 16 n) = [BitVec.ofNat 8 n, BitVec.ofNat 8 (n / 256)] := by
  have low : byteAt (BitVec.ofNat 16 n) 0 = BitVec.ofNat 8 n := by
    apply BitVec.eq_of_toNat_eq
    simp [byteAt, BitVec.extractLsb'_toNat]
  have high : byteAt (BitVec.ofNat 16 n) 1 = BitVec.ofNat 8 (n / 256) := by
    apply BitVec.eq_of_toNat_eq
    simp only [byteAt, BitVec.extractLsb'_toNat, BitVec.toNat_ofNat, Nat.shiftRight_eq_div_pow]
    omega
  rw [bytes16, low, high]

/-- FIFO_READ alone, its checks passed: what it leaves for each answer of the FIFO (R155, R157). -/
theorem exec_fifoRead {s : State} {buf s1 s2 : Byte} (hs : s.holding) (alone : s.windows = [])
    (present : s.buffer s.cur buf ≠ none) (answer : s.answers 2 = [s1, s2]) :
    let m := s.afterStatus
    let count := statusCount s.cfg s1 s2
    let rbits := fifoBits count (s2.toNat / 2 % 8)
    exec (.fifoRead buf) s = .next
      (if count = 0 then (m.skip 2).reply s.cur ([0x00, 0x01] ++ m.freeBytes 2)
      else if s.cap s.cur buf < count then
        (m.skip 2).reply s.cur ([0x00, 0x02] ++ m.freeBytes 2)
      else
        ((m.frame [s.cfg.spiFifoRead] count).store s.cur buf (m.answers count)).reply s.cur
          [0x00, 0x00, BitVec.ofNat 8 rbits, BitVec.ofNat 8 (rbits / 256)]) := by
  have passed : firstFail (fifoReadChecks buf s.cur s) = none := by
    rw [firstFail_fifoReadChecks, if_neg present]
  rw [exec_lockFirst hs passed, instrEffect, fifoReadEffect,
    opFifoRead_alone alone answer]
  dsimp only
  split
  · rfl
  · split
    · rfl
    · rw [fifoReply, bytes16_ofNat]
      rfl

/-- Settles O26: each of the three answers of the FIFO. -/
theorem fifoReadCompletes : Obligations.FifoReadCompletes := by
  unfold Obligations.FifoReadCompletes
  intro s buf s1 s2 hs ok alone present answer m count lb rbits
  have run := exec_fifoRead hs alone present answer
  refine ⟨fun empty => ⟨m.freeBytes 2, m.freeBytes_length 2, ?_⟩,
    fun overflow => ⟨m.freeBytes 2, m.freeBytes_length 2, ?_⟩, fun filled fits => ⟨_, run, ?_⟩⟩
  · exact run.trans (congrArg _ (if_pos empty))
  · have filled : count ≠ 0 := Nat.ne_of_gt (Nat.zero_lt_of_lt overflow)
    exact run.trans (congrArg _ ((if_neg filled).trans (if_pos overflow)))
  · rw [if_neg filled, if_neg (Nat.not_lt.2 fits)]
    exact State.store_reply (m := m.frame [s.cfg.spiFifoRead] count) ok present fits
      (m.answers_length count) _ _

end Sys2Proof.Machine
end

section
/-! The arbiter's commands (spec/42_events_timers.md R180 to R217): the conditions under which their
checks fail, in order, and what each command does once they pass. -/

namespace Sys2Proof.Machine

open Sys2Proof

/-! ## The arithmetic of arming (R194, R195, R201) -/

/-- `ticks` lies in the `psc`-th of the intervals of 65535 ticks that begin at 1 (R195). -/
theorem armPsc_bounds {ticks : Nat} (some_ticks : 1 ≤ ticks) :
    65535 * armPsc ticks + 1 ≤ ticks ∧ ticks ≤ 65535 * (armPsc ticks + 1) := by
  unfold armPsc
  omega

theorem armPsc_gt_iff (ticks : Nat) : armPsc ticks > 65535 ↔ ticks > 4294901760 := by
  unfold armPsc
  omega

theorem armArr_le {ticks : Nat} (some_ticks : 1 ≤ ticks) : armArr ticks ≤ 65535 := by
  obtain ⟨-, upper⟩ := armPsc_bounds some_ticks
  exact Nat.div_le_of_le_mul (by rwa [Nat.mul_comm])

theorem one_le_armArr {ticks : Nat} (some_ticks : 1 ≤ ticks) : 1 ≤ armArr ticks := by
  obtain ⟨lower, -⟩ := armPsc_bounds some_ticks
  exact (Nat.one_le_div_iff (Nat.succ_pos _)).2 (by omega)

/-- Settles O31: the interval that `ticks` lies in bounds the prescaler and the reload value; the
division drops less than one period. -/
theorem armRange : Obligations.ArmRange := by
  unfold Obligations.ArmRange
  intro ticks some_ticks
  have whole : (armPsc ticks + 1) * armArr ticks + ticks % (armPsc ticks + 1) = ticks :=
    Nat.div_add_mod ticks (armPsc ticks + 1)
  have dropped : ticks % (armPsc ticks + 1) < armPsc ticks + 1 := Nat.mod_lt _ (Nat.succ_pos _)
  exact ⟨⟨one_le_armArr some_ticks, armArr_le some_ticks⟩, armPsc_gt_iff ticks, by omega, by omega⟩

/-- `Arm` fails where there is no tick or more of them than the two registers can count (R195,
R201). -/
theorem armFails_iff (ticks : Nat) : armFails ticks = true ↔ ticks = 0 ∨ 4294901760 < ticks := by
  have reload : 65535 < armArr ticks → ticks = 0 := fun large =>
    Classical.byContradiction fun nonzero =>
      Nat.not_lt.2 (armArr_le (Nat.one_le_iff_ne_zero.2 nonzero)) large
  simp only [armFails, Bool.or_eq_true, decide_eq_true_iff, armPsc_gt_iff]
  exact ⟨fun h => h.elim id fun large => .inl (reload large), .inl⟩

/-! ## What is selected -/

/-- The selected role, where a mode is selected (R35). -/
theorem selRole_of_mode {s : State} {r : Role} (mode : s.mode = modeOfRole r) : s.selRole = r := by
  rw [State.selRole, mode]
  cases r <;> rfl

theorem mode_ne_none {s : State} {r : Role} (mode : s.mode = modeOfRole r) : s.mode ≠ .none := by
  rw [mode]
  cases r <;> nofun

theorem mode_listener_iff {s : State} {r : Role} (mode : s.mode = modeOfRole r) :
    s.mode = .listener ↔ r = .listener := by
  rw [mode]
  cases r <;> simp [modeOfRole]

/-- The selected technology, where one is selected (R36). -/
theorem selTech_of_tech {s : State} {x : Tech} (tech : s.tech = some x) : s.selTech = x := by
  rw [State.selTech, tech, Option.getD_some]

/-! ## The checks -/

/-- The code that the arbiter's precondition reports, and what follows where it holds (R182). -/
def arbiterCode (s : State) (own : Option FatalCode) : Option FatalCode :=
  if s.phase ≠ .ready then some .notInit
  else if s.holder ≠ some s.cur then some .noLock else own

/-- The code of a tick count that `Arm` cannot count (R195, R329). -/
def rangeCode (ticks : Nat) : Option FatalCode :=
  if ticks = 0 ∨ 4294901760 < ticks then some .timerRange else none

/-- A command of the arbiter reports what its precondition reports, or what its other checks do. -/
theorem raises_of_arbiterFirst {i : Instr} {s : State} {l : List Check} {own : Option FatalCode}
    (running : s.fault = none) (reports : firstFail l = own)
    (checks : instrChecks i s.cur s = arbiterChecks s.cur s ++ l := by rfl) :
    Raises i s (arbiterCode s own) := by
  refine raises_of_firstFail running ?_
  rw [checks, ← reports]
  exact (firstFail_cons_of_iff _ _ decide_eq_true_iff).trans
    (congrArg _ (firstFail_cons_of_iff _ _ decide_eq_true_iff))

/-- A command of the arbiter whose precondition holds and whose other checks pass runs its
effect. -/
theorem exec_arbiterFirst {i : Instr} {s : State} {l : List Check} (hs : s.serving)
    (passed : firstFail l = none)
    (checks : instrChecks i s.cur s = arbiterChecks s.cur s ++ l := by rfl) :
    exec i s = .next (((instrEffect i s.cur s).weave []).close s) := by
  obtain ⟨running, ready, held⟩ := hs
  have precondition : arbiterChecks s.cur s = [(false, .notInit), (false, .noLock)] := by
    simp [arbiterChecks, needReady, needLock, ready, held]
  exact exec_pass running (by rw [checks, precondition]; exact passed)

theorem firstFail_rangeCheck (ticks : Nat) :
    firstFail [(armFails ticks, .timerRange)] = rangeCode ticks :=
  firstFail_cons_of_iff _ _ (armFails_iff ticks)

theorem firstFail_durCheck (cfg : Params) (d : BitVec 32) (r : List Check) :
    firstFail (durCheck cfg d :: r) =
      if 2 ^ cfg.durBits ≤ d.toNat then some .badOperand else firstFail r :=
  firstFail_cons_of_iff _ _ (by simp [durOk])

theorem firstFail_not (b : Bool) (c : FatalCode) (r : List Check) :
    firstFail ((!b, c) :: r) = if b = false then some c else firstFail r :=
  firstFail_cons_of_iff _ _ (by rw [Bool.not_eq_true'])

theorem timerOf_ne_btx (t : Byte) : timerOf t ≠ some .btx ↔ t ≠ 1 := by
  revert t; decide

/-- The operand checks of TIMER_START_US, in order (R197). -/
theorem firstFail_startUs (t : Byte) (d : BitVec 32) (s : State) :
    firstFail
        [(decide (timerOf t ≠ some .btx), .badOperand), durCheck s.cfg d,
         (!s.btx.init, .lowPower), (s.btx.run, .timerRunning),
         (armFails (usToTicks s.cfg d.toNat), .timerRange)] =
      if t ≠ 1 ∨ 2 ^ s.cfg.durBits ≤ d.toNat then some .badOperand
      else if s.btx.init = false then some .lowPower
      else if s.btx.run = true then some .timerRunning
      else rangeCode (usToTicks s.cfg d.toNat) := by
  rw [firstFail_cons_of_iff _ _ (decide_eq_true_iff.trans (timerOf_ne_btx t)), firstFail_durCheck,
    ← ite_or, firstFail_not, firstFail_cons, firstFail_rangeCheck]

/-- The checks of TIMER_START_FC of the timer `k` after the arbiter's (R196). -/
def startFcChecks (k : TimerId) (d : BitVec 32) (s : State) : List Check :=
  [durCheck s.cfg d,
   (!(s.tmr k).init, .lowPower),
   needMode s,
   ((s.tmr k).run, .timerRunning),
   (decide (k = .fwt ∧ s.selRole = .listener), .role),
   (decide (d.toNat > s.comp k) && armFails (fcToTicks s.cfg (d.toNat - s.comp k)), .timerRange)]

/-- The checks of TIMER_START_FC of the timer `k`, in order. -/
theorem firstFail_startFc (k : TimerId) (d : BitVec 32) (s : State) :
    firstFail (startFcChecks k d s) =
      if 2 ^ s.cfg.durBits ≤ d.toNat then some .badOperand
      else if (s.tmr k).init = false then some .lowPower
      else if s.mode = .none then some .noMode
      else if (s.tmr k).run = true then some .timerRunning
      else if k = .fwt ∧ s.selRole = .listener then some .role
      else if d.toNat ≤ s.comp k then none
      else rangeCode (fcToTicks s.cfg (d.toNat - s.comp k)) := by
  have range : firstFail [(decide (d.toNat > s.comp k) &&
      armFails (fcToTicks s.cfg (d.toNat - s.comp k)), .timerRange)] =
      if d.toNat ≤ s.comp k then none else rangeCode (fcToTicks s.cfg (d.toNat - s.comp k)) := by
    by_cases covered : d.toNat ≤ s.comp k
    · rw [if_pos covered, decide_eq_false (Nat.not_lt.2 covered)]
      rfl
    · rw [if_neg covered, decide_eq_true (Nat.not_le.1 covered), Bool.true_and,
        firstFail_rangeCheck]
  rw [startFcChecks, firstFail_durCheck, firstFail_not, needMode,
    firstFail_cons_of_iff _ _ decide_eq_true_iff, firstFail_cons,
    firstFail_cons_of_iff _ _ decide_eq_true_iff, range]

/-- The operand that names a timer (R102). -/
def TimerId.operand : TimerId → Byte
  | .fwt => 0
  | .btx => 1

theorem timerOf_operand (k : TimerId) : timerOf k.operand = some k := by
  cases k <;> rfl

theorem timerOf_eq_some {t : Byte} {k : TimerId} : timerOf t = some k ↔ t = k.operand := by
  cases k <;> revert t <;> decide

theorem timerStartFcChecks_eq {t : Byte} {k : TimerId} (which : timerOf t = some k)
    (d : BitVec 32) (s : State) :
    instrChecks (.timerStartFc t d) s.cur s = arbiterChecks s.cur s ++ startFcChecks k d s := by
  rw [instrChecks, timerStartFcChecks, which]
  rfl

/-- `Comp` of a timer in a role and technology (R198, R199); FWT is started only as a poller's. -/
def compOf (cfg : Params) (k : TimerId) (r : Role) (x : Tech) : Nat :=
  match r with
  | .poller => match k with
    | .fwt => cfg.compPFwt.get x
    | .btx => cfg.compPFdt.get x
  | .listener => cfg.compLFdt.get x

theorem comp_eq_compOf {s : State} {r : Role} {x : Tech} {k : TimerId}
    (mode : s.mode = modeOfRole r) (tech : s.tech = some x) (role : ¬(k = .fwt ∧ r = .listener)) :
    s.comp k = compOf s.cfg k r x := by
  rw [← selRole_of_mode mode] at role ⊢
  rw [← selTech_of_tech tech]
  unfold State.comp compOf
  cases k <;> cases hr : s.selRole
  case fwt.listener => exact absurd ⟨rfl, hr⟩ role
  all_goals rfl

/-- The checks of TIMER_START_FC in the role `r` and the technology `x`, where a mode is
selected. -/
theorem firstFail_startFc_selected {s : State} {r : Role} {x : Tech} (k : TimerId)
    (d : BitVec 32) (selected : s.mode ≠ .none → s.mode = modeOfRole r ∧ s.tech = some x) :
    firstFail (startFcChecks k d s) =
      if 2 ^ s.cfg.durBits ≤ d.toNat then some .badOperand
      else if (s.tmr k).init = false then some .lowPower
      else if s.mode = .none then some .noMode
      else if (s.tmr k).run = true then some .timerRunning
      else if k = .fwt ∧ s.mode = .listener then some .role
      else if d.toNat ≤ compOf s.cfg k r x then none
      else rangeCode ((d.toNat - compOf s.cfg k r x) * s.cfg.timerClkHz / s.cfg.fcHz) := by
  rw [firstFail_startFc]
  refine ite_congr rfl (fun _ => rfl) fun _ => ite_congr rfl (fun _ => rfl) fun _ =>
    ite_congr rfl (fun _ => rfl) fun chosen => ite_congr rfl (fun _ => rfl) fun _ => ?_
  obtain ⟨mode, tech⟩ := selected chosen
  have listener := mode_listener_iff mode
  refine ite_congr (by rw [selRole_of_mode mode, listener]) (fun _ => rfl) fun role => ?_
  rw [listener] at role
  rw [comp_eq_compOf mode tech role, fcToTicks]

/-- The checks of EVENT_WAIT after the arbiter's, in order (R210, R216). -/
theorem firstFail_eventWait (tmo : BitVec 32) (s : State) :
    firstFail [needMode s, durCheck s.cfg tmo,
        (decide (s.mode = .listener ∧ s.tech = some .v), .unmodelled)] =
      if s.mode = .none then some .noMode
      else if 2 ^ s.cfg.durBits ≤ tmo.toNat then some .badOperand
      else if s.mode = .listener ∧ s.tech = some .v then some .unmodelled else none := by
  rw [needMode, firstFail_cons_of_iff _ _ decide_eq_true_iff, firstFail_durCheck,
    firstFail_cons_of_iff _ _ decide_eq_true_iff, firstFail_nil]

/-- Settles O16: every command of the arbiter checks the phase and the lock first, then what the
lemmas above say; the operand of TIMER_START_FC names one of the two timers or none. -/
theorem checkOrderTimers : Obligations.CheckOrderTimers := by
  unfold Obligations.CheckOrderTimers
  intro s t d tmo running arbiter range
  refine ⟨raises_of_arbiterFirst (l := []) running rfl,
    raises_of_arbiterFirst (l := []) running rfl,
    raises_of_arbiterFirst running
      (firstFail_cons_of_iff _ _ (decide_eq_true_iff.trans (timerOf_eq_none t))),
    raises_of_arbiterFirst running (firstFail_startUs t d s), fun r x selected => ?_,
    raises_of_arbiterFirst running (firstFail_eventWait tmo s)⟩
  cases which : timerOf t with
  | none =>
    refine raises_of_arbiterFirst (l := [(true, .badOperand)]) running ?_ ?_
    · exact (if_pos (.inl ((timerOf_eq_none t).1 which))).symm
    · rw [instrChecks, timerStartFcChecks, which]
  | some k =>
    refine raises_of_arbiterFirst running ?_ (timerStartFcChecks_eq which d s)
    rw [firstFail_startFc_selected k d selected]
    obtain rfl := timerOf_eq_some.1 which
    cases k <;> cases r <;> simp [TimerId.operand, compOf, State.tmr, range, rangeCode]

/-! ## Low power, the timers and the abort request -/

section Commands
variable {s : State}

/-- A command of the arbiter whose checks pass and whose effect ends at once returns its record. -/
theorem exec_arbiterGo {i : Instr} {l : List Check} {record : List Byte} {m : State}
    (hs : s.serving) (passed : firstFail l = none)
    (effect : instrEffect i s.cur s = .go record m)
    (checks : instrChecks i s.cur s = arbiterChecks s.cur s ++ l := by rfl) :
    exec i s = .next (m.reply s.cur record) := by
  rw [exec_arbiterFirst hs passed checks, effect, Prog.weave_go, Run.go_close]

/-- TIMER_START_FC, its checks passed: the timer is armed, unless the compensation meets the
duration (R196, R200). -/
theorem exec_timerStartFc {k : TimerId} {d : BitVec 32} (hs : s.serving)
    (fits : d.toNat < 2 ^ s.cfg.durBits) (up : (s.tmr k).init = true)
    (chosen : s.mode ≠ .none) (idle : (s.tmr k).run = false)
    (role : ¬(k = .fwt ∧ s.selRole = .listener))
    (range : ¬d.toNat ≤ s.comp k → rangeCode (fcToTicks s.cfg (d.toNat - s.comp k)) = none) :
    exec (.timerStartFc k.operand d) s = .next
      ((if d.toNat ≤ s.comp k then s
        else s.setTmr k ((s.tmr k).armed (fcToTicks s.cfg (d.toNat - s.comp k)))).reply
          s.cur [0x00]) := by
  have which := timerOf_operand k
  refine exec_arbiterGo hs (l := startFcChecks k d s) ?_ ?_ (timerStartFcChecks_eq which d s)
  · rw [firstFail_startFc, if_neg (Nat.not_le.2 fits), if_neg (by simp [up]), if_neg chosen,
      if_neg (by simp [idle]), if_neg role]
    split
    · rfl
    · exact range ‹_›
  · rw [instrEffect, timerStartFcEffect, which]
    rfl

theorem rangeCode_none {ticks : Nat} (low : 1 ≤ ticks) (high : ticks ≤ 4294901760) :
    rangeCode ticks = none :=
  if_neg (by omega)

/-- TIMER_START_FC in the role `r` and the technology `x`, the duration above the compensation
(R196, R198, R199). -/
theorem exec_timerStartFc_arms {k : TimerId} {r : Role} {x : Tech} {d : BitVec 32} (hs : s.serving)
    (mode : s.mode = modeOfRole r) (tech : s.tech = some x) (role : ¬(k = .fwt ∧ r = .listener))
    (fits : d.toNat < 2 ^ s.cfg.durBits) (up : (s.tmr k).init = true)
    (idle : (s.tmr k).run = false) (above : compOf s.cfg k r x < d.toNat)
    (low : 1 ≤ fcToTicks s.cfg (d.toNat - compOf s.cfg k r x))
    (high : fcToTicks s.cfg (d.toNat - compOf s.cfg k r x) ≤ 4294901760) :
    exec (.timerStartFc k.operand d) s = .next
      ((s.setTmr k ((s.tmr k).armed (fcToTicks s.cfg (d.toNat - compOf s.cfg k r x)))).reply
        s.cur [0x00]) := by
  have comp := comp_eq_compOf mode tech role
  rw [exec_timerStartFc hs fits up (mode_ne_none mode) idle (by rwa [selRole_of_mode mode])
    fun _ => by rw [comp]; exact rangeCode_none low high, comp, if_neg (Nat.not_le.2 above)]

/-- TIMER_START_FC in the role `r` and the technology `x`, the duration at most the compensation
(R200). -/
theorem exec_timerStartFc_covered {k : TimerId} {r : Role} {x : Tech} {d : BitVec 32}
    (hs : s.serving) (mode : s.mode = modeOfRole r) (tech : s.tech = some x)
    (role : ¬(k = .fwt ∧ r = .listener)) (fits : d.toNat < 2 ^ s.cfg.durBits)
    (up : (s.tmr k).init = true) (idle : (s.tmr k).run = false)
    (covered : d.toNat ≤ compOf s.cfg k r x) :
    exec (.timerStartFc k.operand d) s = .next (s.reply s.cur [0x00]) := by
  rw [← comp_eq_compOf mode tech role] at covered
  rw [exec_timerStartFc hs fits up (mode_ne_none mode) idle (by rwa [selRole_of_mode mode])
    fun above => absurd covered above, if_pos covered]

end Commands

/-- Settles O28: each timer in each role that may start it, armed. -/
theorem timerStartFcCompletes : Obligations.TimerStartFcCompletes := by
  unfold Obligations.TimerStartFcCompletes
  intro s d x comp hs tech ticks psc fits above low high
  refine ⟨fun mode is up idle => ?_, fun which up idle => ?_⟩
  · subst is
    exact exec_timerStartFc_arms (k := .fwt) (r := .poller) hs mode tech nofun fits up idle above
      low high
  · rcases which with ⟨mode, rfl⟩ | ⟨mode, rfl⟩
    · exact exec_timerStartFc_arms (k := .btx) (r := .poller) hs mode tech nofun fits up idle above
        low high
    · exact exec_timerStartFc_arms (k := .btx) (r := .listener) hs mode tech nofun fits up idle
        above low high

/-- Settles O29: each timer in each role that may start it, not started. -/
theorem compensationNoOp : Obligations.CompensationNoOp := by
  unfold Obligations.CompensationNoOp
  intro s d x hs tech fits
  refine ⟨fun mode up idle covered => ?_, fun which up idle => ?_⟩
  · exact exec_timerStartFc_covered (k := .fwt) (r := .poller) hs mode tech nofun fits up idle
      covered
  · rcases which with ⟨mode, covered⟩ | ⟨mode, covered⟩
    · exact exec_timerStartFc_covered (k := .btx) (r := .poller) hs mode tech nofun fits up idle
        covered
    · exact exec_timerStartFc_covered (k := .btx) (r := .listener) hs mode tech nofun fits up idle
        covered

/-- Settles O30: the checks pass, and the effect arms BTX with the ticks of the duration. -/
theorem timerStartUsCompletes : Obligations.TimerStartUsCompletes := by
  unfold Obligations.TimerStartUsCompletes
  intro s d hs up idle ticks psc fits low high
  refine exec_arbiterGo hs ((firstFail_startUs 1 d s).trans ?_) rfl
  rw [if_neg (not_or.2 ⟨not_not.2 rfl, Nat.not_le.2 fits⟩), if_neg (by simp [up]),
    if_neg (by simp [idle])]
  exact rangeCode_none low high

/-- Settles O32: both operands name a timer, which is stopped. -/
theorem timerStopCompletes : Obligations.TimerStopCompletes := by
  unfold Obligations.TimerStopCompletes
  intro s hs
  have stops (k : TimerId) : exec (.timerStop k.operand) s =
      .next ((s.setTmr k (s.tmr k).stopped).reply s.cur [0x00]) := by
    have which := timerOf_operand k
    refine exec_arbiterGo hs (l := [(decide (timerOf k.operand = none), .badOperand)]) ?_ ?_
    · simp [which]
    · rw [instrEffect, timerStopEffect, which]
      rfl
  exact ⟨stops .fwt, stops .btx⟩

/-- Settles O27: the three effects, whose one check is the arbiter's. -/
theorem lowPowerCompletes : Obligations.LowPowerCompletes := by
  unfold Obligations.LowPowerCompletes
  intro s hs
  have exits : exec .lpExit s = .next ((if s.lp = true then
      { s with fwt := s.fwt.started, btx := s.btx.started, lp := false } else s).reply
        s.cur [0x00]) :=
    exec_arbiterGo (l := []) hs rfl rfl
  refine ⟨fun low => ?_, fun normal => ?_, exec_arbiterGo (l := []) hs rfl rfl⟩
  · rw [exits, if_pos low]
    rfl
  · rw [exits, if_neg (by simp [normal])]

/-- Settles O35: the command has no check but that the block runs. -/
theorem abortRequestCompletes : Obligations.AbortRequestCompletes := by
  unfold Obligations.AbortRequestCompletes
  exact fun s => ⟨fun running => exec_pass running rfl, fun c => exec_halted .abortRequest⟩

end Sys2Proof.Machine
end

section
/-! The events (spec/42_events_timers.md R183 to R218): the flags and which steps may clear them, the
drain, the waits and their ends, the expiry of the timers; and what fairness (R378) gives of them. -/

namespace Sys2Proof.Machine

open Sys2Proof

/-! ## Flags stay set -/

/-- Every flag that is set stays set (R183). -/
def FlagsStay (s t : State) : Prop := ∀ k, s.evf.getLsbD k = true → t.evf.getLsbD k = true

/-- Neither DEINIT nor EVENT_WAIT. -/
def LeavesFlags (i : Instr) : Prop := i ≠ .deinit ∧ ∀ tmo, i ≠ .eventWait tmo

theorem FlagsStay.of_eq {s t : State} (h : t.evf = s.evf) : FlagsStay s t := by
  intro k set
  rwa [h]

/-- Of the commands without frames only EVENT_WAIT clears flags. -/
theorem Writes.evf {i : Instr} {t : ThreadId} {s s' : State} (h : Writes t s s' i)
    (hl : ∀ tmo, i ≠ .eventWait tmo) : s'.evf = s.evf := by
  cases h with
  | timerStartFc tm d x ticks which up eq => subst eq; simp
  | timerStop tm x which eq => subst eq; simp
  | waitEnds tmo record eq => exact absurd rfl (hl tmo)
  | _ => subst s'; rfl

/-- Of the commands with frames only DEINIT clears flags. -/
theorem Finishes.evf {i : Instr} {t : ThreadId} {m s' : State} (h : Finishes t m s' i)
    (hl : i ≠ .deinit) : s'.evf = m.evf := by
  cases h with
  | initFails e eq | initDone uninit eq => subst eq; simp
  | deinit free unset eq => exact absurd rfl hl
  | _ => subst s'; rfl

theorem acquireTake_evf (s : State) (t : ThreadId) : (s.acquireTake t).evf = s.evf := by
  unfold State.acquireTake
  split <;> rfl

theorem waitTimeout_evf (s : State) : s.waitTimeout.evf = s.evf := by
  unfold State.waitTimeout
  split <;> rfl

/-- Every write but those of DEINIT, EVENT_WAIT and a wake leaves the flags set. -/
theorem preserved_flagsStay : Preserved LeavesFlags False FlagsStay where
  trans h g k set := g k (h k set)
  quiet h := h.flags
  issue _ _ _ _ _ set := set
  fault _ _ _ set := set
  writes hl _ _ h := .of_eq (h.evf hl.2)
  finishes hl h := .of_eq (h.evf hl.1)
  acquireTake s t := .of_eq (acquireTake_evf s t)
  wake _ woken := woken.elim
  waitTimeout s := .of_eq (waitTimeout_evf s)
  giveBuffer _ _ _ _ := .of_eq (by simp)

/-- Settles O36: no write of such a step clears a flag, and `Abort` is one. -/
theorem abortStays : Obligations.AbortStays := by
  unfold Obligations.AbortStays
  intro s t item rest set hs noReset noWake records he
  rcases preserved_flagsStay.step hs records (by simp [noWake]) he with stay | ⟨reset, -⟩
  · exact stay 0 set
  · simp [noReset] at reset

/-! ## The agents' steps in a block that runs -/

/-- The cause word of status bytes, register `j` at bits `8j+7 .. 8j` (R186). -/
theorem irqWord_eq_sum (l : List Byte) : irqWord l =
    ((List.range l.length).map fun j => (l.getD j 0).toNat * 2 ^ (8 * j)).sum := by
  induction l with
  | nil => rfl
  | cons b r ih =>
    have later : (fun j => ((b :: r).getD j 0).toNat * 2 ^ (8 * j)) ∘ Nat.succ =
        fun j => 256 * ((r.getD j 0).toNat * 2 ^ (8 * j)) := by
      funext j
      rw [Function.comp_apply, List.getD_cons_succ, Nat.mul_succ, Nat.pow_add]
      ring
    rw [irqWord, ih, List.length_cons, List.range_succ_eq_map, List.map_cons, List.map_map,
      List.sum_cons, later, List.sum_map_mul_left, List.getD_cons_zero, Nat.mul_zero, Nat.pow_zero,
      Nat.mul_one]

theorem drainEnabled_iff (s : State) : s.drainEnabled = true ↔
    s.irqAgent = .idle ∧ s.phase = .ready ∧ s.lp = false ∧ s.irqLine = true := by
  simp [State.drainEnabled, and_assoc]

/-- While the drain is Idle its loop takes no step (log 4). -/
theorem drainStep_idle {s : State} (idle : s.irqAgent = .idle) : s.drainStep = s := by
  simp [State.drainStep, idle]

/-- A status read of the drain (R185, R186). -/
theorem drainStep_reads {s : State} (draining : s.irqAgent = .draining)
    (asserted : s.irqLine = true) : s.drainStep =
      { s.frame [s.cfg.spiRegRead ++ s.cfg.regIrqStatusBase] s.cfg.nIrqRegs with
        irqAcc := s.irqAcc ||| irqWord (s.answers s.cfg.nIrqRegs) } := by
  simp [State.drainStep, draining, asserted, drainFrame, modeRead]

/-- The exit of the drain (R187). -/
theorem drainStep_exits {s : State} (draining : s.irqAgent = .draining)
    (deasserted : s.irqLine = false) :
    s.drainStep = { s.setFlag .irq with irqAgent := .idle } := by
  simp [State.drainStep, draining, deasserted]

section Agents
variable {s : State} (running : s.fault = none)
include running

theorem not_halted : ¬s.halted = true := by
  simp [State.halted, running]

theorem agentStep_drainEnter : agentStep .drainEnter s =
    if s.irqAgent = .idle ∧ s.phase = .ready ∧ s.lp = false ∧ s.irqLine = true then
      { s with irqAgent := .draining } else s :=
  (if_neg (not_halted running)).trans (if_congr (drainEnabled_iff s) rfl rfl)

/-- The drain takes no step during INIT (R300, log 37). -/
theorem windowAgent_uninit {a : AgentStep} (drain : a ∈ [AgentStep.drainEnter, .drainStep])
    (uninit : s.phase = .uninit) : windowAgent a s = s := by
  simp only [List.mem_cons, List.not_mem_nil, or_false] at drain
  rcases drain with rfl | rfl
  · rw [windowAgent, if_neg (by simp), agentStep_drainEnter running, if_neg (by simp [uninit])]
  · rw [windowAgent, if_pos ⟨rfl, uninit⟩]

/-- Expiry of a running timer (R202). -/
theorem agentStep_expire (k : TimerId) : agentStep (.expire k) s =
    if (s.tmr k).run = true then s.setTmr k { s.tmr k with run := false, pend := true } else s :=
  if_neg (not_halted running)

/-- Delivery of a pending expiry (R203). -/
theorem agentStep_deliver (k : TimerId) : agentStep (.deliver k) s =
    if (s.tmr k).pend = true ∧ (s.tmr k).init = true then
      (s.setTmr k { s.tmr k with pend := false }).setFlag k.flag else s :=
  (if_neg (not_halted running)).trans (if_congr (by rw [Bool.and_eq_true]) rfl rfl)

end Agents

/-- Settles O37: the entry, the two steps of the loop, and the same between two frames. -/
theorem drainLoop : Obligations.DrainLoop := by
  unfold Obligations.DrainLoop
  intro s running
  have loop : agentStep .drainStep s = s.drainStep := if_neg (not_halted running)
  rw [loop]
  refine ⟨agentStep_drainEnter running, fun draining asserted => ?_, drainStep_exits,
    drainStep_idle, fun a drain others => ⟨fun ready => ?_, fun uninit => ?_⟩⟩
  · have word := irqWord_eq_sum (s.answers s.cfg.nIrqRegs)
    rw [State.answers_length] at word
    rw [drainStep_reads draining asserted, word]
  · rw [windowStep, windowAgent_ready a ready]
  · rw [windowStep, windowAgent_uninit running drain uninit]

/-! ## Consuming flags -/

/-- The wait set of a mode and technology (R210, R211). -/
theorem waitSet_eq {s : State} {r : Role} {x : Tech} (mode : s.mode = modeOfRole r)
    (tech : s.tech = some x) : s.waitSet = s.cfg.waitMask.get r x ||| 1 := by
  rw [State.waitSet, selRole_of_mode mode, selTech_of_tech tech]
  rfl

/-- `Consume` with the wait set `w` (R212, R213). -/
theorem consume_eq {s : State} {w : BitVec 5} (wait : s.waitSet = w) :
    s.consume = { s with
      evf := s.evf &&& ~~~w
      irqAcc := if (s.evf &&& w).getLsbD 1 then 0 else s.irqAcc } := by
  rw [State.consume, State.fired, wait]
  rfl

/-- The events of `Consume` with the wait set `w` (R214). -/
theorem firedEvents_eq {s : State} {r : Role} {x : Tech} {w : BitVec 5}
    (mode : s.mode = modeOfRole r) (tech : s.tech = some x) (wait : s.waitSet = w) :
    s.firedEvents = publicEvents s.cfg r x (s.evf &&& w)
      (if (s.evf &&& w).getLsbD 1 then s.irqAcc else 0) := by
  rw [State.firedEvents, State.firedCauses, State.fired, selRole_of_mode mode,
    selTech_of_tech tech, wait]
  rfl

/-- A consuming wait never answers EV_TIMEOUT (R214). -/
theorem publicEvents_timeout (cfg : Params) (r : Role) (x : Tech) (fired : BitVec 5)
    (causes : Nat) : (publicEvents cfg r x fired causes).getLsbD 0 = false := by
  unfold publicEvents
  split <;> split <;> simp

/-- A consuming wait answers EV_ABORT where `Abort` fired (R214). -/
theorem publicEvents_abort (cfg : Params) (r : Role) (x : Tech) {fired : BitVec 5}
    (causes : Nat) (abort : fired.getLsbD 0 = true) :
    (publicEvents cfg r x fired causes).getLsbD 1 = true := by
  have fires : Flag.abort.isIn fired = true := abort
  simp [publicEvents, fires]

/-- Settles O33: the checks pass, and each branch of the effect. -/
theorem eventWaitCompletes : Obligations.EventWaitCompletes := by
  unfold Obligations.EventWaitCompletes
  intro s tmo r x hs mode tech modelled fits w f causes e
  have wait : s.waitSet = w := waitSet_eq mode tech
  have fired : s.fired = f := by rw [State.fired, wait]
  have passed : firstFail [needMode s, durCheck s.cfg tmo,
      (decide (s.mode = .listener ∧ s.tech = some .v), .unmodelled)] = none := by
    have role : ¬(s.mode = .listener ∧ s.tech = some .v) := fun ⟨listener, v⟩ =>
      modelled ⟨(mode_listener_iff mode).1 listener, Option.some.inj (tech.symm.trans v)⟩
    rw [firstFail_eventWait, if_neg (mode_ne_none mode), if_neg (Nat.not_le.2 fits), if_neg role]
  refine ⟨fun fires => ⟨?_, publicEvents_timeout .., fun abort => publicEvents_abort _ _ _ _ ?_⟩,
    fun quiet zero => ?_, fun quiet nonzero => ?_⟩
  · have effect : instrEffect (.eventWait tmo) s.cur s =
        .go (okRecord (bytes32 s.firedEvents)) s.consume := by
      rw [instrEffect, eventWaitEffect, fired, if_pos fires]
    rw [exec_arbiterGo hs passed effect, firedEvents_eq mode tech wait, consume_eq wait]
    rfl
  · simp [f, w, abort]
  · have effect : instrEffect (.eventWait tmo) s.cur s =
        .go (okRecord (bytes32 evTimeout)) s := by
      rw [instrEffect, eventWaitEffect, fired, if_neg (not_not.2 quiet), if_pos zero]
    exact exec_arbiterGo hs passed effect
  · have effect : instrEffect (.eventWait tmo) s.cur s =
        .stop { s with waiter := some ⟨s.cur, tmo⟩ } := by
      rw [instrEffect, eventWaitEffect, fired, if_neg (not_not.2 quiet), if_neg nonzero]
    rw [exec_arbiterFirst hs passed, effect, Prog.weave_stop, Run.stop_close]

/-! ## The end of a blocked wait -/

/-- A wake by the flags of the wait set `w` (R210). -/
theorem wake_fires {s : State} {v : Waiter} {w : BitVec 5} (waiting : s.waiter = some v)
    (wait : s.waitSet = w) (fires : s.evf &&& w ≠ 0) : s.wake =
      { s.consume with waiter := none }.reply v.thread (okRecord (bytes32 s.firedEvents)) := by
  have fired : s.fired ≠ 0 := by rwa [State.fired, wait]
  rw [State.wake, waiting]
  exact if_neg fired

/-- With no flag of the wait set a wake changes nothing (log 4). -/
theorem wake_quiet {s : State} {w : BitVec 5} (wait : s.waitSet = w) (quiet : s.evf &&& w = 0) :
    s.wake = s := by
  have fired : s.fired = 0 := by rwa [State.fired, wait]
  unfold State.wake
  split
  · rfl
  · rw [if_pos fired]

/-- The timeout of a blocked EVENT_WAIT (R215). -/
theorem waitTimeout_ends {s : State} {v : Waiter} (waiting : s.waiter = some v) :
    s.waitTimeout = { s with waiter := none }.reply v.thread (okRecord (bytes32 evTimeout)) := by
  simp [State.waitTimeout, waiting]

/-- From `s` to `t` the wait of `w`, if any, goes on or has got a result; the invariants hold of
`t`. -/
structure Answered (w : Waiter) (s t : State) : Prop where
  inv : t.Inv
  answer : ∃ given, t.results = s.results ++ given ∧
    (s.waiter = some w → t.waiter = some w ∨ ∃ r ∈ given, r.thread = w.thread)

theorem Answered.trans {w : Waiter} {s m t : State} (h : Answered w s m) (g : Answered w m t) :
    Answered w s t where
  inv := g.inv
  answer := by
    obtain ⟨first, hfirst, early⟩ := h.answer
    obtain ⟨later, hlater, late⟩ := g.answer
    refine ⟨first ++ later, by rw [hlater, hfirst, List.append_assoc], fun waiting => ?_⟩
    rcases early waiting with still | ⟨r, hr, is⟩
    · exact (late still).imp id fun ⟨r, hr, is⟩ => ⟨r, List.mem_append_right _ hr, is⟩
    · exact .inr ⟨r, List.mem_append_left _ hr, is⟩

/-- A write that leaves the waiter and only adds results. -/
theorem Answered.of_waiter {w : Waiter} {s t : State} (inv : t.Inv)
    (results : ∃ given, t.results = s.results ++ given) (waiter : t.waiter = s.waiter) :
    Answered w s t where
  inv := inv
  answer :=
    let ⟨given, e⟩ := results
    ⟨given, e, fun waiting => .inl (waiter.trans waiting)⟩

/-- A write that gives the waiter a result. -/
theorem Answered.of_reply {w v : Waiter} {s m : State} {record : List Byte} (inv : s.Inv → m.Inv)
    (hi : s.Inv) (results : m.results = s.results) (waiting : s.waiter = some v) :
    Answered w s (m.reply v.thread record) where
  inv := (inv hi).reply _ _
  answer := ⟨_, congrArg (· ++ _) results, fun is =>
    .inr ⟨_, List.mem_singleton.2 rfl, by rw [Option.some.inj (waiting.symm.trans is)]⟩⟩

/-- A command without frames leaves the waiter, but for an EVENT_WAIT that blocks. -/
theorem Writes.waiter {i : Instr} {t : ThreadId} {s s' : State} (h : Writes t s s' i) :
    s'.waiter = s.waiter ∨ ∃ tmo, i = .eventWait tmo := by
  cases h with
  | timerStartFc tm d x ticks which up eq => subst eq; simp
  | timerStop tm x which eq => subst eq; simp
  | waitBlocks tmo eq => exact .inr ⟨tmo, rfl⟩
  | _ => subst s'; exact .inl rfl

/-- A command with frames leaves the waiter and returns its result. -/
theorem Finishes.waiter {i : Instr} {t : ThreadId} {m s' : State} (h : Finishes t m s' i) :
    s'.waiter = m.waiter ∧ ∃ given, s'.results = m.results ++ given := by
  cases h with
  | initFails e eq | initDone uninit eq => subst eq; simp
  | _ => subst s'; exact ⟨rfl, _, rfl⟩

/-- The thread that waits holds the lock and issues nothing, so that no EVENT_WAIT replaces it. -/
theorem Writes.answered {i : Instr} {t : ThreadId} {s s' : State} (w : Waiter)
    (passed : firstFail (instrChecks i t s) = none) (idle : s.blocked t = false)
    (h : Writes t s s' i) (hi : s.Inv) : Answered w s s' where
  inv := h.inv passed idle hi
  answer := by
    obtain ⟨given, e⟩ := h.apart.results
    refine ⟨given, e, fun waiting => .inl ?_⟩
    rcases h.waiter with same | ⟨tmo, rfl⟩
    · exact same.trans waiting
    · have held : s.holder = some t := (session_of_checks passed).lock
      cases waiting.symm.trans (hi.no_waiter_of_idle held idle)

theorem acquireTake_waiter (s : State) (t : ThreadId) : (s.acquireTake t).waiter = s.waiter := by
  unfold State.acquireTake
  split <;> rfl

theorem Answered.refl (w : Waiter) {s : State} (hi : s.Inv) : Answered w s s :=
  .of_waiter hi ⟨[], by simp⟩ rfl

/-- A wake ends the wait with a result, or changes nothing. -/
theorem answered_wake (w : Waiter) {s : State} (hi : s.Inv) : Answered w s s.wake := by
  by_cases quiet : s.fired = 0
  · rw [wake_quiet rfl quiet]
    exact .refl w hi
  · cases waiting : s.waiter with
    | none =>
      have still : s.wake = s := by simp [State.wake, waiting]
      rw [still]
      exact .refl w hi
    | some v =>
      rw [wake_fires waiting rfl quiet]
      exact .of_reply (fun hi => hi.consume.end_wait) hi rfl waiting

theorem answered_waitTimeout (w : Waiter) {s : State} (hi : s.Inv) :
    Answered w s s.waitTimeout := by
  cases waiting : s.waiter with
  | none =>
    have still : s.waitTimeout = s := by simp [State.waitTimeout, waiting]
    rw [still]
    exact .refl w hi
  | some v =>
    rw [waitTimeout_ends waiting]
    exact .of_reply State.Inv.end_wait hi rfl waiting

/-- Every write of the machine leaves a blocked wait or gives its thread a result. -/
theorem preserved_answered (w : Waiter) :
    Preserved (fun _ => True) True fun s t : State => s.Inv → Answered w s t where
  trans h g hi := (h hi).trans (g (h hi).inv)
  quiet h hi := .of_waiter (h.inv hi) h.tame.results h.waiter
  issue s items t windows hi :=
    .of_waiter (preserved_inv.issue s items t windows hi) ⟨[], by simp⟩ rfl
  fault s c hi := .of_waiter (preserved_inv.fault s c hi) ⟨[], by simp⟩ rfl
  writes _ passed idle h hi := h.answered w passed idle hi
  finishes _ h hi := .of_waiter (h.inv hi) h.waiter.2 h.waiter.1
  acquireTake s t hi :=
    .of_waiter (hi.acquireTake t) (apart_acquireTake s t).results (acquireTake_waiter s t)
  wake _ _ hi := answered_wake w hi
  waitTimeout _ hi := answered_waitTimeout w hi
  giveBuffer s t h bytes hi := .of_waiter (hi.giveBuffer t h bytes) ⟨[], by simp⟩ (by simp)

/-- In a fair run a blocked wait ends with a result, or the block is reset (R378 a). -/
theorem wait_answered {state : Nat → State} {item : Nat → SchedItem} {n : Nat} {w : Waiter}
    (run : Execution state item) (fair : Fair state item) (hi : (state n).Inv)
    (waiting : (state n).waiter = some w) : ∃ m, n ≤ m ∧ ((item m).resets = true ∨
      ∃ v ∈ (item m).states (state m), ∃ given, v.results = (state n).results ++ given ∧
        ∃ r ∈ given, r.thread = w.thread) := by
  obtain ⟨m, hm, v, hv, ended⟩ := fair.wait n w waiting
  rcases (preserved_answered w).run run n (fun _ _ _ _ _ _ _ => trivial) (fun _ _ _ => trivial)
    m hm v hv with ⟨k, hk, reset⟩ | ⟨upTo, -⟩
  · exact ⟨k, hk, .inl reset⟩
  · obtain ⟨given, results, answer⟩ := (upTo hi).answer
    exact ⟨m, hm, .inr ⟨v, hv, given, results, (answer waiting).resolve_left ended⟩⟩

/-- Settles O34: fairness ends the wait, and no step ends it without a result; the steps that end it
consume the flags or answer EV_TIMEOUT. -/
theorem blockedWaitEnds : Obligations.BlockedWaitEnds := by
  unfold Obligations.BlockedWaitEnds
  refine ⟨fun state item n w run fair hi waiting => wait_answered run fair hi waiting, ?_⟩
  intro s v r x rest running waiting mode tech w f causes
  have wait : State.waitSet { s with sched := rest } = w := waitSet_eq mode tech
  refine ⟨fun hs fires => ?_, fun hs quiet => ?_, fun hs => ?_⟩
  · have events := firedEvents_eq (s := { s with sched := rest }) mode tech wait
    rw [step_item s _ rest hs running, schedStep, wake_fires (by exact waiting) wait fires, events,
      consume_eq wait]
    rfl
  · rw [step_item s _ rest hs running, schedStep, wake_quiet wait quiet]
  · rw [step_item s _ rest hs running, schedStep, waitTimeout_ends (by exact waiting)]
    rfl

/-! ## The expiry of a timer -/

/-- The timer is initialised in a block that is out of low power. -/
structure State.Counts (s : State) (k : TimerId) : Prop where
  ready : s.phase = .ready
  powered : s.lp = false
  init : (s.tmr k).init = true

/-- The timer's flag is set. -/
def State.Raised (s : State) (k : TimerId) : Prop := s.evf.getLsbD k.flag.pos = true

/-- From `s` to `t` the timer stays initialised, one that runs goes on or its expiry pends or its
flag is set, a pending expiry goes on to pend or its flag is set (R202, R203), and a flag stays. -/
structure Expires (k : TimerId) (s t : State) : Prop where
  counts : s.Counts k → t.Counts k
  running : s.Counts k → (s.tmr k).run = true →
    (t.tmr k).run = true ∨ (t.tmr k).pend = true ∨ t.Raised k
  pending : s.Counts k → (s.tmr k).pend = true → (t.tmr k).pend = true ∨ t.Raised k
  raised : s.Raised k → t.Raised k

theorem Expires.trans {k : TimerId} {s m t : State} (h : Expires k s m) (g : Expires k m t) :
    Expires k s t where
  counts c := g.counts (h.counts c)
  running c run := by
    rcases h.running c run with run | pend | raised
    · exact g.running (h.counts c) run
    · exact .inr (g.pending (h.counts c) pend)
    · exact .inr (.inr (g.raised raised))
  pending c pend := (h.pending c pend).elim (g.pending (h.counts c)) fun raised =>
    .inr (g.raised raised)
  raised r := g.raised (h.raised r)

/-- A write to a timer that keeps its INIT and starts it, or leaves it. -/
theorem Expires.of_timer {k : TimerId} {s t : State} (phase : t.phase = s.phase)
    (lp : t.lp = s.lp) (evf : t.evf = s.evf) (init : (t.tmr k).init = (s.tmr k).init)
    (run : (s.tmr k).run = true → (t.tmr k).run = true)
    (pend : (t.tmr k).pend = (s.tmr k).pend) : Expires k s t where
  counts c := ⟨phase.trans c.ready, lp.trans c.powered, init.trans c.init⟩
  running _ h := .inl (run h)
  pending _ h := .inl (pend.trans h)
  raised h := by rwa [State.Raised, evf]

/-- A write that leaves phase, low power, the timer and the flags. -/
theorem Expires.of_eq {k : TimerId} {s t : State} (phase : t.phase = s.phase) (lp : t.lp = s.lp)
    (evf : t.evf = s.evf) (tmr : t.tmr k = s.tmr k) : Expires k s t :=
  .of_timer phase lp evf (by rw [tmr]) (fun h => by rwa [tmr]) (by rw [tmr])

/-- A write to a block in which the timer does not count. -/
theorem Expires.of_not_counts {k : TimerId} {s t : State} (no : ¬s.Counts k)
    (evf : t.evf = s.evf) : Expires k s t where
  counts c := absurd c no
  running c := absurd c no
  pending c := absurd c no
  raised h := by rwa [State.Raised, evf]

theorem Quiet.expires {s m : State} (h : Quiet s m) (k : TimerId) : Expires k s m where
  counts c := ⟨h.phase.trans c.ready, h.lp.trans c.powered, (h.init k).trans c.init⟩
  running _ := h.running k
  pending _ := h.pending k
  raised := h.flags _

/-- A command that neither stops the timer `k` nor consumes flags. -/
structure LeavesTimer (k : TimerId) (i : Instr) : Prop where
  stop : i ≠ .timerStop k.operand
  enter : i ≠ .lpEnter
  flags : LeavesFlags i

/-- A write to a timer, after which the timer `k` goes on as `Expires.of_timer` says. -/
theorem expires_setTmr {k x : TimerId} {s : State} {v : Timer} {t : ThreadId}
    {record : List Byte} (goes : x = k → v.init = (s.tmr x).init ∧ v.run = true ∧
      v.pend = (s.tmr x).pend) : Expires k s ((s.setTmr x v).reply t record) := by
  by_cases same : x = k
  · obtain ⟨init, run, pend⟩ := goes same
    subst same
    have tmr : ((s.setTmr x v).reply t record).tmr x = v := s.setTmr_tmr x v
    exact .of_timer (by simp) (by simp) (by simp) (by rw [tmr, init]) (fun _ => by rw [tmr, run])
      (by rw [tmr, pend])
  · exact .of_eq (by simp) (by simp) (by simp) (s.setTmr_tmr_of_ne x k v (Ne.symm same))

/-- A start of a timer leaves a pending expiry (R207); LP_EXIT changes nothing out of low power. -/
theorem Writes.expires {i : Instr} {t : ThreadId} {s s' : State} {k : TimerId}
    (h : Writes t s s' i) (leaves : LeavesTimer k i) : Expires k s s' := by
  cases h with
  | lpExit low eq =>
    subst eq
    exact .of_not_counts (fun c => nomatch low.symm.trans c.powered) rfl
  | lpEnter eq => exact absurd rfl leaves.enter
  | timerStartFc tm d x ticks which up eq =>
    subst eq
    exact expires_setTmr fun _ => ⟨rfl, rfl, rfl⟩
  | timerStartUs tm d ticks up eq =>
    subst eq
    exact expires_setTmr (x := .btx) fun _ => ⟨rfl, rfl, rfl⟩
  | timerStop tm x which eq =>
    subst eq
    refine expires_setTmr fun same => absurd ?_ leaves.stop
    rw [timerOf_eq_some.1 which, same]
  | waitEnds tmo record eq => exact absurd rfl (leaves.flags.2 tmo)
  | waitBlocks tmo eq => exact absurd rfl (leaves.flags.2 tmo)
  | acquireTakes | acquireBlocks | release =>
    subst s'
    exact .of_eq rfl rfl rfl (by cases k <;> rfl)

/-- INIT finishes in an uninitialised block; nothing else but DEINIT writes a timer after its last
frame. -/
theorem Finishes.expires {i : Instr} {t : ThreadId} {m s' : State} {k : TimerId}
    (h : Finishes t m s' i) (leaves : LeavesTimer k i) : Expires k m s' := by
  cases h with
  | setMode | resetMode =>
    subst s'
    exact .of_eq rfl rfl rfl (by cases k <;> rfl)
  | initFails e eq =>
    subst eq
    exact .of_eq (by simp) (by simp) (by simp) (by cases k <;> simp [State.tmr])
  | initDone uninit eq =>
    subst eq
    exact .of_not_counts (fun c => nomatch uninit.symm.trans c.ready) (by simp)
  | deinit free unset eq => exact absurd rfl leaves.flags.1

/-- Every write but those that stop the timer or consume flags leaves it to expire. -/
theorem preserved_expires (k : TimerId) : Preserved (LeavesTimer k) False (Expires k) where
  trans := Expires.trans
  quiet h := h.expires k
  issue _ _ _ _ := .of_eq rfl rfl rfl (by cases k <;> rfl)
  fault _ _ := .of_eq rfl rfl rfl (by cases k <;> rfl)
  writes leaves _ _ h := h.expires leaves
  finishes leaves h := h.expires leaves
  acquireTake s t := by
    unfold State.acquireTake
    split <;> exact .of_eq rfl rfl rfl (by cases k <;> rfl)
  wake _ woken := woken.elim
  waitTimeout s := by
    unfold State.waitTimeout
    split <;> exact .of_eq rfl rfl rfl (by cases k <;> rfl)
  giveBuffer _ _ _ _ := .of_eq (by simp) (by simp) (by simp) (by cases k <;> simp [State.tmr])

section Fairness
variable {state : Nat → State} {item : Nat → SchedItem} {n : Nat} {k : TimerId}
  (run : Execution state item)
  (quiet : ∀ m, n ≤ m → (item m).resets = false ∧ (item m).wakes = false ∧
    ∀ record ∈ (item m).records, ∀ i r, decode record = .ok (i, r) → LeavesTimer k i)
include run quiet

/-- In a run without such steps the timer is left to expire up to every later state. -/
theorem run_expires (m : Nat) (hm : n ≤ m) (v : State) (hv : v ∈ (item m).states (state m)) :
    Expires k (state n) v ∧ Expires k v (state (m + 1)) := by
  rcases (preserved_expires k).run run n (fun m hm => (quiet m hm).2.2)
    (fun m hm woken => by simp [(quiet m hm).2.1] at woken) m hm v hv with ⟨j, hj, reset⟩ | goes
  · simp [(quiet j hj).1] at reset
  · exact goes

variable (fair : Fair state item)
include fair

/-- A pending expiry is delivered (R378 b). -/
theorem pending_raises (counts : (state n).Counts k) (pend : ((state n).tmr k).pend = true) :
    ∃ m, n ≤ m ∧ ∃ v ∈ (item m).states (state m), v.Raised k := by
  obtain ⟨m, hm, v, hv, taken⟩ := fair.delivery n k pend counts.init
  obtain ⟨upTo, -⟩ := run_expires run quiet m hm v hv
  refine ⟨m, hm, v, hv, (upTo.pending counts pend).resolve_left ?_⟩
  rcases taken with done | torn
  · simp [done]
  · simp [(upTo.counts counts).init] at torn

/-- A running timer expires, and its expiry is delivered (R378 b). -/
theorem running_raises (counts : (state n).Counts k) (runs : ((state n).tmr k).run = true) :
    ∃ m, n ≤ m ∧ ∃ v ∈ (item m).states (state m), v.Raised k := by
  obtain ⟨m, hm, v, hv, stopped⟩ := fair.expiry n k runs
  obtain ⟨upTo, goesOn⟩ := run_expires run quiet m hm v hv
  have next : state (m + 1) ∈ (item (m + 1)).states (state (m + 1)) := SchedItem.mem_states _ _
  rcases (upTo.running counts runs).resolve_left (by simp [stopped]) with pend | raised
  · rcases goesOn.pending (upTo.counts counts) pend with pend | raised
    · obtain ⟨j, hj, found⟩ := pending_raises run
        (fun j hj => quiet j (Nat.le_trans hm (Nat.le_of_succ_le hj))) fair
        (goesOn.counts (upTo.counts counts)) pend
      exact ⟨j, Nat.le_trans hm (Nat.le_of_succ_le hj), found⟩
    · exact ⟨m + 1, Nat.le_succ_of_le hm, _, next, raised⟩
  · exact ⟨m, hm, v, hv, raised⟩

end Fairness

/-- Settles O38: fairness makes the timer expire and its flag come; each agent's step. -/
theorem timerExpiryAndDelivery : Obligations.TimerExpiryAndDelivery := by
  unfold Obligations.TimerExpiryAndDelivery
  refine ⟨fun state item n k run fair ready powered init due quiet => ?_, fun s running => ?_⟩
  · have leaves (m : Nat) (hm : n ≤ m) : (item m).resets = false ∧ (item m).wakes = false ∧
        ∀ record ∈ (item m).records, ∀ i r, decode record = .ok (i, r) → LeavesTimer k i := by
      obtain ⟨noReset, noWake, records⟩ := quiet m hm
      refine ⟨noReset, noWake, fun record hr i r decoded => ?_⟩
      obtain ⟨stop, enter, deinit, wait⟩ := records record hr i r decoded
      exact ⟨by cases k <;> exact stop, enter, deinit, wait⟩
    have counts : (state n).Counts k := ⟨ready, powered, init⟩
    have raises := due.elim (running_raises run leaves fair counts)
      (pending_raises run leaves fair counts)
    cases k <;> exact raises
  · have goes := not_halted running
    exact ⟨if_neg goes, if_neg goes, fun level => if_neg goes, agentStep_expire running .fwt,
      agentStep_expire running .btx, agentStep_deliver running .fwt,
      agentStep_deliver running .btx⟩

end Sys2Proof.Machine
end

section
/-! The technology layer (spec/43_technology.md): what a parameter sequence leaves, alone (R232); that
its commands are the driver's; the checks of the technology commands, in order; and what each of these
commands does, alone, once they pass. -/

namespace Sys2Proof.Machine

open Sys2Proof

/-! ## What a sequence leaves -/

/-- What sending frames and storing to the handles `hs` of thread `t` leaves of a state: no field but
the bus, the chip's answers, the counter of free values and the buffers differs, frames are only
added, and of the buffers only bytes of these handles change. -/
structure Transfers (t : ThreadId) (hs : List Byte) (s u : State) : Prop where
  frames : ∃ sent, u.bus = s.bus ++ sent
  rest : { u with bus := s.bus, chipIn := s.chipIn, draws := s.draws, bufs := s.bufs } = s
  bytes : ∀ v h j, (v ≠ t ∨ h ∉ hs) → u.bufByte v h j = s.bufByte v h j
  caps : ∀ v h, u.cap v h = s.cap v h

namespace Transfers
variable {t : ThreadId} {hs : List Byte} {s m u : State}

theorem refl (s : State) : Transfers t hs s s :=
  ⟨⟨[], by simp⟩, rfl, fun _ _ _ _ => rfl, fun _ _ => rfl⟩

theorem trans (h : Transfers t hs s m) (k : Transfers t hs m u) : Transfers t hs s u where
  frames := by
    obtain ⟨sent, before⟩ := h.frames
    obtain ⟨sent', after⟩ := k.frames
    exact ⟨sent ++ sent', by rw [after, before, List.append_assoc]⟩
  rest := by
    have last := congrArg
      (fun m : State => { m with bus := s.bus, chipIn := s.chipIn, draws := s.draws, bufs := s.bufs })
      k.rest
    exact last.trans h.rest
  bytes v b j other := (k.bytes v b j other).trans (h.bytes v b j other)
  caps v b := (k.caps v b).trans (h.caps v b)

theorem mono {more : List Byte} (h : Transfers t hs s u) (sub : hs ⊆ more) : Transfers t more s u :=
  ⟨h.frames, h.rest, fun v b j other => h.bytes v b j (other.imp_right fun no mem => no (sub mem)),
    h.caps⟩

theorem frame (s : State) (tx : List Byte) (n : Nat) : Transfers t hs s (s.frame tx n) :=
  ⟨⟨_, rfl⟩, rfl, fun _ _ _ _ => rfl, fun _ _ => rfl⟩

theorem skip (s : State) (n : Nat) : Transfers t hs s (s.skip n) :=
  ⟨⟨[], by simp⟩, rfl, fun _ _ _ _ => rfl, fun _ _ => rfl⟩

theorem store (s : State) {h : Byte} (bytes : List Byte) (listed : h ∈ hs) :
    Transfers t hs s (s.store t h bytes) where
  frames := ⟨[], by simp⟩
  rest := by
    obtain ⟨_, only⟩ := s.store_only t h bytes
    rw [only]
  bytes v k j other := by
    have apart : ¬(v = t ∧ k = h) := by
      rintro ⟨rfl, rfl⟩
      exact other.elim (fun ne => ne rfl) fun no => no listed
    simp only [State.bufByte, State.buffer_store, if_neg apart]
  caps v k := s.cap_store t v h k bytes

theorem windows (h : Transfers t hs s u) : u.windows = s.windows :=
  (congrArg State.windows h.rest :)

theorem fault (h : Transfers t hs s u) : u.fault = s.fault :=
  (congrArg State.fault h.rest :)

end Transfers

/-- A part of a command that, left alone, goes on to its end and between its frames and at its end has
transferred; what other agents may leave between the frames is any state. -/
def Prog.Transfers {α : Type} (t : ThreadId) (hs : List Byte) : Prog α → State → Prop
  | .go _ m, s => Machine.Transfers t hs s m
  | .stop _, _ => False
  | .void, _ => False
  | .gap m next, s => Machine.Transfers t hs s m ∧ ∀ u, (next u).Transfers t hs u

section
variable {α β : Type} {t : ThreadId} {hs : List Byte}

theorem Prog.Transfers.after {p : Prog α} {s m : State} (first : Machine.Transfers t hs s m)
    (h : p.Transfers t hs m) : p.Transfers t hs s := by
  cases p with
  | go a u => exact first.trans h
  | stop | void => exact h
  | gap u next => exact ⟨first.trans h.1, h.2⟩

theorem Prog.Transfers.mono {more : List Byte} {p : Prog α} {s : State} (h : p.Transfers t hs s)
    (sub : hs ⊆ more) : p.Transfers t more s := by
  induction p generalizing s with
  | go a u => exact Machine.Transfers.mono h sub
  | stop | void => exact h
  | gap u next ih => exact ⟨h.1.mono sub, fun v => ih v (h.2 v)⟩

theorem Prog.Transfers.bind {p : Prog α} {s : State} {c : α → State → Prog β}
    (h : p.Transfers t hs s) (hc : ∀ a m, (c a m).Transfers t hs m) :
    (p.andThen c).Transfers t hs s := by
  induction p generalizing s with
  | go a m => exact (hc a m).after h
  | stop | void => exact h.elim
  | gap m next ih => exact ⟨h.1, fun u => ih u (h.2 u)⟩

/-- A transferring part, alone, ends, and what it leaves has been transferred. -/
theorem Prog.Transfers.ends {p : Prog α} {s : State} (h : p.Transfers t hs s)
    (alone : s.windows = []) (others : List Pending) :
    ∃ a u, p.weave others = .go a u ∧ Machine.Transfers t hs s u := by
  induction p generalizing s with
  | go a m => exact ⟨a, m, rfl, h⟩
  | stop | void => exact h.elim
  | gap m next ih =>
    obtain ⟨first, later⟩ := h
    have quiet : m.windows = [] := first.windows.trans alone
    obtain ⟨a, u, ends, last⟩ := ih m (later m) quiet
    refine ⟨a, u, ?_, first.trans last⟩
    rw [Prog.weave_gap, interleave_nil m others quiet]
    exact ends

theorem busFrame_transfers (mid : Bool) (tx : List Byte) (n : Nat) (s : State) :
    (busFrame mid tx n s).Transfers t hs s := by
  cases mid
  · exact .frame s tx n
  · exact ⟨.refl s, fun u => .frame u tx n⟩

/-- A frame after which nothing more is transferred. -/
theorem busFrame_last_transfers (mid : Bool) (tx : List Byte) (n : Nat) (s : State)
    (value : List Byte → α) :
    ((busFrame mid tx n s).andThen fun rx s => .go (value rx) s).Transfers t hs s :=
  (busFrame_transfers mid tx n s).bind fun _ m => .refl m

theorem Prog.Transfers.drop {p : Prog α} {s : State} (h : p.Transfers t hs s) :
    (p.andThen fun _ s => .go () s).Transfers t hs s :=
  h.bind fun _ m => .refl m

theorem opRmw_transfers (mid : Bool) (a : Byte) (f : Byte → Byte) (s : State) :
    (opRmw mid a f s).Transfers t hs s := by
  refine (busFrame_last_transfers mid _ 1 s _).bind fun old m => ?_
  split
  · exact .refl m
  · exact busFrame_last_transfers true _ 0 m _

theorem opFifoUnload_transfers (mid : Bool) (cap : Nat) (s : State) :
    (opFifoUnload mid cap s).Transfers t hs s := by
  refine (busFrame_transfers mid _ 2 s).bind fun st m => ?_
  dsimp only
  split
  · exact .refl m
  · split
    · exact .refl m
    · exact busFrame_last_transfers true _ _ m _

theorem opFifoRead_transfers (mid : Bool) (h : Byte) (s : State) :
    (opFifoRead mid h t s).Transfers t [h] s := by
  refine (opFifoUnload_transfers mid _ s).bind fun ans m => ?_
  cases ans with
  | ok bytes rbits => exact .store m bytes (List.mem_singleton_self h)
  | empty | overflow => exact .refl m

end

/-- A driver command transfers, storing to the buffer of its rule alone. -/
theorem runDriver_transfers (mid : Bool) (c : DriverCmd) (t : ThreadId) (s : State) :
    (runDriver mid c t s).Transfers t (seqStores [c]) s := by
  cases c with
  | regRead a | testRegRead ta => exact (busFrame_last_transfers mid _ 1 s _).drop
  | regWrite a v | testRegWrite ta v | directCmd c => exact busFrame_last_transfers mid _ 0 s _
  | regReadBurst a n h =>
    exact (busFrame_transfers mid _ n.toNat s).bind fun rx m =>
      .store m rx (List.mem_singleton_self h)
  | regWriteBurst a n h =>
    exact .after (.skip s _) (busFrame_last_transfers mid _ 0 _ _)
  | regChangeBits a mask val | regSetBits a mask | regClearBits a mask =>
    exact opRmw_transfers mid a _ s
  | fifoWrite h bits =>
    exact .after (.skip s _) ((busFrame_transfers mid _ 0 _).bind fun _ m =>
      busFrame_last_transfers true _ 0 m _)
  | fifoRead h => exact (opFifoRead_transfers mid h s).drop

theorem seqStores_cons (c : DriverCmd) (l : List DriverCmd) :
    seqStores (c :: l) = seqStores [c] ++ seqStores l :=
  List.filterMap_append (l := [c])

theorem runSeq_transfers (mid : Bool) (l : List DriverCmd) (t : ThreadId) (s : State) :
    (runSeq mid t l s).Transfers t (seqStores l) s := by
  induction l generalizing mid s with
  | nil => exact .refl s
  | cons c l ih =>
    rw [seqStores_cons]
    exact ((runDriver_transfers mid c t s).mono (List.subset_append_left _ _)).bind fun _ m =>
      (ih true m).mono (List.subset_append_right _ _)

/-- Settles O41: a sequence transfers to its end. -/
theorem sequenceRuns : Obligations.SequenceRuns := by
  unfold Obligations.SequenceRuns
  intro s mid l alone
  obtain ⟨_, u, runs, left⟩ := (runSeq_transfers mid l s.cur s).ends alone []
  exact ⟨u, runs, left.frames, left.rest, left.bytes, left.caps⟩

/-! ## A sequence's command and the driver command -/

/-- Every driver command begins with one bus frame. -/
theorem runDriver_frame (c : DriverCmd) (t : ThreadId) (s : State) :
    ∃ (tx : List Byte) (n : Nat) (m : State) (next : List Byte → State → Prog Unit),
      m.windows = s.windows ∧ ∀ mid, runDriver mid c t s = (busFrame mid tx n m).andThen next := by
  cases c with
  | regWrite | regReadBurst | testRegWrite | directCmd => exact ⟨_, _, _, _, rfl, fun _ => rfl⟩
  | regWriteBurst | fifoWrite => exact ⟨_, _, s.skip _, _, rfl, fun _ => rfl⟩
  | regRead | testRegRead | regChangeBits | regSetBits | regClearBits =>
    exact ⟨_, _, _, _, rfl, fun _ => Prog.andThen_assoc _ _ _⟩
  | fifoRead h =>
    exact ⟨_, _, _, _, rfl, fun _ =>
      (Prog.andThen_assoc _ _ _).trans (Prog.andThen_assoc (busFrame _ _ _ _) _ _)⟩

/-- Alone, nothing stands before the first frame either. -/
theorem runDriver_first_alone {s : State} (mid : Bool) (c : DriverCmd) (t : ThreadId)
    (others : List Pending) (alone : mid = true → s.windows = []) :
    (runDriver mid c t s).weave others = (runDriver false c t s).weave others := by
  cases mid with
  | false => rfl
  | true =>
    obtain ⟨tx, n, m, next, windows, begins⟩ := runDriver_frame c t s
    have quiet := windows.trans (alone rfl)
    rw [begins, begins, busFrame_alone _ _ _ _ _ _ quiet, busFrame_alone _ _ _ _ _ _ quiet]

theorem Prog.andThen_go {α : Type} (p : Prog α) : (p.andThen fun a s => .go a s) = p := by
  induction p with
  | go | stop | void => rfl
  | gap s next ih => exact congrArg (Prog.gap s) (funext ih)

/-- The command of a sequence and the command of the port share all their frames and stores, `p`;
then one drops what `p` answers and the other returns its record, for which it may draw free
values. -/
def SharesFrames (drops : Prog Unit) (returns : Prog (List Byte)) : Prop :=
  ∃ (α : Type) (p : Prog α) (finish : α → State → Prog (List Byte)),
    drops = (p.andThen fun _ s => .go () s) ∧ returns = p.andThen finish ∧
      ∀ a m, ∃ record n, finish a m = .go record (m.skip n)

theorem sharesFrames_doneOk (p : Prog Unit) : SharesFrames p (p.andThen doneOk) :=
  ⟨Unit, p, doneOk, (Prog.andThen_go p).symm, rfl, fun _ _ => ⟨_, 0, rfl⟩⟩

theorem fifoWrite_fits {h : Byte} {bits : BitVec 16} {t : ThreadId} {s : State}
    (passed : firstFail (fifoWriteChecks h bits t s) = none) :
    bytesFor bits.toNat ≤ s.cap t h := by
  have load := check_passed passed (List.mem_cons_of_mem _ (List.mem_singleton_self _))
  simp only [Bool.or_eq_false_iff, decide_eq_false_iff_not] at load
  exact Nat.not_lt.1 load.2

/-- A driver command whose checks pass is the sequence's command, with its record returned. -/
theorem driverInstr_sharesFrames {c : DriverCmd} {t : ThreadId} {s : State}
    (passed : firstFail (instrChecks (driverInstr c) t s) = none) :
    SharesFrames (runDriver false c t s) (instrEffect (driverInstr c) t s) := by
  have own {x : Check} {l : List Check} (h : firstFail (x :: l) = none) : firstFail l = none :=
    (firstFail_eq_none l).2 fun y mem => (firstFail_eq_none _).1 h y (List.mem_cons_of_mem _ mem)
  cases c with
  | regRead | testRegRead => exact ⟨_, _, _, rfl, rfl, fun _ _ => ⟨_, 0, rfl⟩⟩
  | regWrite | regReadBurst | regChangeBits | regSetBits | regClearBits | testRegWrite |
    directCmd => exact sharesFrames_doneOk _
  | regWriteBurst a n h =>
    have fits : n.toNat ≤ s.cap t h := burst_fits a n h t s (own passed)
    rw [runDriver, State.bytesOrFree_of_fits s t h _ fits, Nat.sub_eq_zero_of_le fits,
      State.skip_zero]
    exact sharesFrames_doneOk _
  | fifoWrite h bits =>
    have fits := fifoWrite_fits (own passed)
    rw [runDriver, State.bytesOrFree_of_fits s t h _ fits, Nat.sub_eq_zero_of_le fits,
      State.skip_zero]
    exact sharesFrames_doneOk _
  | fifoRead h =>
    refine ⟨_, _, fifoReply, rfl, rfl, fun ans m => ?_⟩
    cases ans with
    | ok bytes rbits => exact ⟨_, 0, rfl⟩
    | empty | overflow => exact ⟨_, 2, rfl⟩

/-- A calm part has a run, whatever stands between its frames. -/
theorem Prog.Calm.weave_ne_void {α : Type} {p : Prog α} {s : State} (h : p.Runs s.cur s)
    (running : s.fault = none) : p.weave [] ≠ .void := by
  intro none
  have kept := (keeps_tame.weave p [] s rfl h running nofun fun _ _ _ _ => trivial).1
  rw [none] at kept
  exact kept

/-- Programs that share their frames and stores end together: the command of the port has returned
its record, and may have drawn free values; or both stop. -/
theorem SharesFrames.weave {drops : Prog Unit} {returns : Prog (List Byte)}
    (h : SharesFrames drops returns) :
    match drops.weave [] with
    | .go _ u => ∃ record n, returns.weave [] = .go record (u.skip n)
    | .stop u => returns.weave [] = .stop u
    | .void => returns.weave [] = .void := by
  obtain ⟨α, p, finish, rfl, rfl, finishes⟩ := h
  have dropped := p.weave_andThen (fun _ s => .go () s) []
  have returned := p.weave_andThen finish []
  cases hp : p.weave [] with
  | go a m =>
    rw [hp] at dropped returned
    obtain ⟨_, dropped⟩ := dropped
    obtain ⟨_, returned⟩ := returned
    obtain ⟨record, n, done⟩ := finishes a m
    rw [dropped]
    exact ⟨record, n, by rw [returned, done]; rfl⟩
  | stop u | void =>
    rw [hp] at dropped returned
    rw [dropped]
    exact returned

/-- Settles O42: the two programs share their frames where the checks pass; where one fails the
command faults, and the sequence's command transfers to its end. -/
theorem sequenceCommandIsDriverCommand : Obligations.SequenceCommandIsDriverCommand := by
  unfold Obligations.SequenceCommandIsDriverCommand
  intro mid c s hs alone
  obtain ⟨running, -⟩ := hs
  refine ⟨fun passed => ?_, fun code fails => ⟨raises_of_firstFail running fails code rfl,
    fun quiet => ?_⟩⟩
  · have exec_eq := exec_pass running passed
    have together := (driverInstr_sharesFrames passed).weave
    rw [runDriver_first_alone mid c s.cur [] alone]
    cases ran : (runDriver false c s.cur s).weave [] with
    | go _ u =>
      rw [ran] at together
      obtain ⟨record, n, returned⟩ := together
      rw [returned] at exec_eq
      exact ⟨_, record, exec_eq, rfl, rfl, rfl, rfl⟩
    | stop u =>
      rw [ran] at together
      rw [exec_eq, together]
      rfl
    | void => exact (runDriver_calm s.cur false c s).weave_ne_void running ran
  · obtain ⟨_, u, ends, left⟩ := (runDriver_transfers mid c s.cur s).ends quiet []
    exact ⟨u, ends, left.fault.trans running⟩

/-! ## The checks of the technology commands -/

/-- A command of the technology layer that needs a mode reports what the precondition reports (R230),
or what its other checks do. -/
theorem raises_of_techFirst {i : Instr} {s : State} {l : List Check} {own : Option FatalCode}
    (running : s.fault = none) (reports : s.mode ≠ .none → firstFail l = own)
    (checks : instrChecks i s.cur s = techChecks s.cur s ++ l := by rfl) :
    Raises i s (arbiterCode s (if s.mode = .none then some .noMode else own)) := by
  refine raises_of_arbiterFirst (l := needMode s :: l) running ?_ checks
  rw [needMode, firstFail_cons_of_iff _ _ decide_eq_true_iff]
  exact ite_congr rfl (fun _ => rfl) reports

theorem roleOf_eq_none (mode : Byte) : roleOf mode = none ↔ mode ≠ 1 ∧ mode ≠ 2 := by
  revert mode; decide

theorem roleOf_eq_listener (mode : Byte) : roleOf mode = some .listener ↔ mode = 2 := by
  revert mode; decide

theorem techOf_eq (tech : Byte) :
    techOf tech = if 4 ≤ tech.toNat then none else
      some (if tech = 0 then .a else if tech = 1 then .b else if tech = 2 then .v else .f) := by
  revert tech; decide

/-- The checks of SET_MODE after the session's, for the role and technology that its operands
name. -/
def setModeOwnChecks (role : Option Role) (tech : Option Tech) (s : State) : List Check :=
  match role, tech with
  | some r, some x =>
    [(decide (s.ctx ≠ none) || decide (s.mode ≠ .none), .contextLive),
     (decide (r = .listener) && !s.cfg.hasListener.get x, .noListener)]
  | _, _ => [(true, .badOperand)]

theorem firstFail_setModeOwn (r : Role) (x : Tech) (s : State) :
    firstFail (setModeOwnChecks (some r) (some x) s) =
      if s.ctx ≠ none ∨ s.mode ≠ .none then some .contextLive
      else if r = .listener ∧ s.cfg.hasListener.get x = false then some .noListener else none := by
  rw [setModeOwnChecks, firstFail_cons_of_iff _ _ (by rw [Bool.or_eq_true, decide_eq_true_iff,
    decide_eq_true_iff]), firstFail_cons_of_iff _ _ (by rw [Bool.and_eq_true, decide_eq_true_iff,
    Bool.not_eq_true']), firstFail_nil]

/-- The checks of SET_MODE after the session's, in order (R231). -/
theorem firstFail_setMode (mode tech : Byte) (s : State) :
    firstFail (setModeOwnChecks (roleOf mode) (techOf tech) s) =
      if (mode ≠ 1 ∧ mode ≠ 2) ∨ 4 ≤ tech.toNat then some .badOperand
      else if s.ctx ≠ none ∨ s.mode ≠ .none then some .contextLive
      else if mode = 2 ∧
          s.cfg.hasListener.get
            (if tech = 0 then .a else if tech = 1 then .b else if tech = 2 then .v else .f)
            = false then some .noListener
      else none := by
  rw [techOf_eq]
  cases role : roleOf mode with
  | none => exact (if_pos (.inl ((roleOf_eq_none mode).1 role))).symm
  | some r =>
    have named : ¬(mode ≠ 1 ∧ mode ≠ 2) := by rw [← roleOf_eq_none, role]; nofun
    have listener : r = .listener ↔ mode = 2 := by
      rw [← roleOf_eq_listener, role, Option.some.injEq]
    by_cases big : 4 ≤ tech.toNat
    · rw [if_pos big]
      exact (if_pos (.inr big)).symm
    · rw [if_neg big, firstFail_setModeOwn, if_neg (not_or.2 ⟨named, big⟩)]
      simp only [listener]

theorem firstFail_needBuf_unmodelled (h : Byte) (s : State) (unmodelled : Prop)
    [Decidable unmodelled] :
    firstFail [needBuf s.cur h s, (decide unmodelled, .unmodelled)] =
      if s.buffer s.cur h = none then some .nullArg
      else if unmodelled then some .unmodelled else none := by
  rw [firstFail_needBuf, firstFail_cons_of_iff _ _ decide_eq_true_iff, firstFail_nil]

/-- The checks of TRANSMIT's path after NULL_ARG, in the selected mode and technology (R237). -/
def pathChecks (h : Byte) (bits : BitVec 16) (t : ThreadId) (s : State) : List Check :=
  match s.mode, s.selTech with
  | .listener, .v => [(true, .unmodelled)]
  | .poller, .v =>
    encodeSizeChecks bits.toNat (s.cap t h) s.cfg.vTxCap false ++
    [loadCheck s.cfg (8 * (bits.toNat / 2 + 2)) s.cfg.vTxCap]
  | _, _ => [loadCheck s.cfg bits.toNat (s.cap t h)]

theorem firstFail_loadBits (cfg : Params) (bits : BitVec 16) (cap : Nat) :
    firstFail [loadCheck cfg bits.toNat cap] =
      if bits = 0 ∨ cfg.fifoSize < (bits.toNat + 7) / 8 ∨ cap < (bits.toNat + 7) / 8 then
        some .badOperand
      else none := by
  simp only [firstFail_loadCheck, toNat_eq_zero_iff]

/-- The checks of the encoder's path, in order; the last one finds the frame too long for the FIFO
alone, since the encoder's own found room for it (R238, R264, R282). -/
theorem firstFail_encodePath (bits cap room : Nat) (cfg : Params) :
    firstFail (encodeSizeChecks bits cap room false ++ [loadCheck cfg (8 * (bits / 2 + 2)) room]) =
      if bits % 8 ≠ 0 then some .encodeLength
      else if cap < bits / 8 then some .badOperand
      else if room < bits / 2 + 2 then some .encodeCapacity
      else if cfg.fifoSize < bits / 2 + 2 then some .badOperand else none := by
  have bytes : (8 * (bits / 2 + 2) + 7) / 8 = bits / 2 + 2 := by omega
  simp only [encodeSizeChecks, List.cons_append, List.nil_append, Bool.or_false]
  rw [firstFail_cons_of_iff _ _ decide_eq_true_iff, firstFail_cons_of_iff _ _ decide_eq_true_iff,
    firstFail_cons_of_iff _ _ decide_eq_true_iff, firstFail_loadCheck, bytes]
  refine ite_congr rfl (fun _ => rfl) fun _ => ite_congr rfl (fun _ => rfl) fun _ =>
    ite_congr rfl (fun _ => rfl) fun fits => ite_congr (propext ?_) (fun _ => rfl) fun _ => rfl
  omega

/-- The checks of TRANSMIT's path, in order, a mode and the technology `x` being selected. -/
theorem firstFail_path {s : State} {x : Tech} (h : Byte) (bits : BitVec 16)
    (chosen : s.mode ≠ .none) (tech : s.tech = some x) :
    firstFail (pathChecks h bits s.cur s) =
      if s.mode = .listener ∧ x = .v then some .unmodelled
      else if x = .v then
        (if bits.toNat % 8 ≠ 0 then some .encodeLength
         else if s.cap s.cur h < bits.toNat / 8 then some .badOperand
         else if s.cfg.vTxCap < bits.toNat / 2 + 2 then some .encodeCapacity
         else if s.cfg.fifoSize < bits.toNat / 2 + 2 then some .badOperand else none)
      else if bits = 0 ∨ s.cfg.fifoSize < (bits.toNat + 7) / 8 ∨
          s.cap s.cur h < (bits.toNat + 7) / 8 then some .badOperand
      else none := by
  rw [← firstFail_loadBits, ← firstFail_encodePath, pathChecks, selTech_of_tech tech]
  cases mode : s.mode with
  | none => exact absurd mode chosen
  | poller => cases x <;> rfl
  | listener => cases x <;> rfl

/-- Settles O17: every technology command checks the session first, then the mode where it needs one,
then what the lemmas above say. -/
theorem checkOrderTechnology : Obligations.CheckOrderTechnology := by
  unfold Obligations.CheckOrderTechnology
  intro s mode tech k h bits x running selected session needsMode
  have selTech (chosen : s.mode ≠ .none) : s.selTech = x := selTech_of_tech (selected chosen)
  refine ⟨raises_of_arbiterFirst running (firstFail_setMode mode tech s),
    raises_of_techFirst (l := []) running fun _ => rfl,
    raises_of_techFirst (l := needBuf s.cur h s :: pathChecks h bits s.cur s) running
      fun chosen => by rw [firstFail_needBuf, firstFail_path h bits chosen (selected chosen)],
    raises_of_techFirst running fun chosen => ?_,
    raises_of_techFirst running fun chosen => ?_, fun i listed => ?_⟩
  · rw [← selTech chosen]
    exact firstFail_needBuf_unmodelled h s _
  · rw [← selTech chosen]
    exact (firstFail_cons_of_iff _ _ decide_eq_true_iff).trans
      (congrArg _ (firstFail_cons_of_iff _ _ decide_eq_true_iff))
  · refine raises_of_techFirst running (l := [(decide (s.mode ≠ .listener), .role)])
      (fun _ => firstFail_cons_of_iff _ _ decide_eq_true_iff) ?_
    simp only [List.mem_cons, List.not_mem_nil, or_false] at listed
    rcases listed with rfl | rfl <;> rfl

/-! ## The technology commands, alone -/

/-- A command of the technology layer that needs a mode, its other checks passed, runs its effect. -/
theorem exec_techFirst {i : Instr} {s : State} {l : List Check} (hs : s.serving)
    (chosen : s.mode ≠ .none) (passed : firstFail l = none)
    (checks : instrChecks i s.cur s = techChecks s.cur s ++ l := by rfl) :
    exec i s = .next (((instrEffect i s.cur s).weave []).close s) := by
  refine exec_arbiterFirst hs (l := needMode s :: l) ?_ checks
  rw [needMode, firstFail_cons_of_iff _ _ decide_eq_true_iff, if_neg chosen, passed]

/-- What follows a sequence, alone, runs in the state that the sequence leaves. -/
theorem SeqRan.weave {α : Type} {mid : Bool} {l : List DriverCmd} {s u : State}
    (ran : SeqRan mid l s u) (alone : s.windows = []) (c : Unit → State → Prog α) :
    ((runSeq mid s.cur l s).andThen c).weave [] = (c () u).weave [] := by
  rw [(runSeq_calm s.cur mid l s).weave_andThen alone, ran.runs]

theorem SeqRan.windows {mid : Bool} {l : List DriverCmd} {s u : State} (ran : SeqRan mid l s u) :
    u.windows = s.windows :=
  (congrArg State.windows ran.rest :)

/-- A direct command inside another command, alone, is its one frame (R139). -/
theorem runSeq_direct {α : Type} {s : State} (mid : Bool) (t : ThreadId) (b : Byte)
    (l : List DriverCmd) (alone : s.windows = []) (c : Unit → State → Prog α) :
    ((runSeq mid t (.directCmd b :: l) s).andThen c).weave [] =
      ((runSeq true t l (s.frame [b] 0)).andThen c).weave [] := by
  simp only [runSeq, runDriver, opDirect, Prog.andThen_assoc]
  exact busFrame_alone mid [b] 0 s _ [] alone

/-- A sequence and then direct commands, alone: the sequence, and a frame for each of them. -/
theorem SeqRan.weave_directs {α : Type} {mid : Bool} {l : List DriverCmd} {s u : State}
    (ran : SeqRan mid l s u) (alone : s.windows = []) (cmds : List Byte)
    (c : Unit → State → Prog α) :
    ((runSeq mid s.cur (l ++ cmds.map .directCmd) s).andThen c).weave [] =
      (c () (cmds.foldl (fun u b => u.frame [b] 0) u)).weave [] := by
  rw [runSeq_append, Prog.andThen_assoc, ran.weave alone]
  have quiet := ran.windows.trans alone
  clear ran
  induction cmds generalizing u mid l with
  | nil => rfl
  | cons b cmds ih =>
    rw [List.map_cons, runSeq_direct _ _ _ _ quiet]
    exact ih (mid := true) (l := l) (u := u.frame [b] 0) quiet

/-- The operand that names a role (R102). -/
def roleOperand : Role → Byte
  | .poller => 1
  | .listener => 2

/-- The operand that names a technology (R102). -/
def techOperand : Tech → Byte
  | .a => 0
  | .b => 1
  | .v => 2
  | .f => 3

theorem roleOf_operand (r : Role) : roleOf (roleOperand r) = some r := by
  cases r <;> rfl

theorem techOf_operand (x : Tech) : techOf (techOperand x) = some x := by
  cases x <;> rfl

/-- Settles O43: the checks pass, and the sequences end as `SeqRan` says. -/
theorem setModeCompletes : Obligations.SetModeCompletes := by
  unfold Obligations.SetModeCompletes
  intro s r x hs alone noContext noMode listens mode tech seq
  obtain ⟨u, ran⟩ := sequenceRuns s false (setModeSeq s.cfg r x) alone
  refine ⟨u, ran, ?_⟩
  have named : roleOf mode = some r ∧ techOf tech = some x := ⟨roleOf_operand r, techOf_operand x⟩
  have passed : firstFail (setModeOwnChecks (roleOf mode) (techOf tech) s) = none := by
    have hears : ¬(r = .listener ∧ s.cfg.hasListener.get x = false) := by
      rintro ⟨is, deaf⟩
      simp [listens is] at deaf
    rw [named.1, named.2, firstFail_setModeOwn, if_neg (by simp [noContext, noMode]), if_neg hears]
  rw [exec_arbiterFirst hs passed, instrEffect, setModeEffect, named.1, named.2]
  dsimp only
  rw [ran.weave alone]
  rfl

/-- Settles O44: the stop command's frame, then the sequences, which end as `SeqRan` says. -/
theorem resetModeCompletes : Obligations.ResetModeCompletes := by
  unfold Obligations.ResetModeCompletes
  intro s r x hs alone mode tech seq
  obtain ⟨u, ran⟩ := sequenceRuns (s.frame [s.cfg.cmdStop] 0) true seq alone
  refine ⟨u, ran, ?_⟩
  rw [exec_techFirst (l := []) hs (mode_ne_none mode) rfl, instrEffect, resetModeEffect,
    selRole_of_mode mode, selTech_of_tech tech, resetModeSeq, runSeq_direct _ _ _ _ alone]
  exact congrArg Host.Outcome.next (congrArg (Run.close · s) (ran.weave alone _))

/-- The common transmit, alone: its four frames (R238). -/
theorem commonTx_alone {α : Type} {s : State} (alone : s.windows = []) (bytes : List Byte)
    (bits : Nat) (c : Unit → State → Prog α) :
    ((commonTx bytes bits s).andThen c).weave [] =
      (c () ((((s.frame [s.cfg.cmdClearFifo] 0).frame (txLenFrame s.cfg bits) 0).frame
        (s.cfg.spiFifoLoad :: bytes) 0).frame [s.cfg.cmdTxWithoutCrc] 0)).weave [] := by
  simp only [commonTx, opDirect, opFifoLoad, Prog.andThen_assoc, busFrame_alone, Prog.go_andThen,
    State.frame_windows, State.frame_cfg, alone]

/-- Settles O45: the checks pass, and the effect is the common transmit of the buffer's bytes. -/
theorem transmitCompletes : Obligations.TransmitCompletes := by
  unfold Obligations.TransmitCompletes
  intro s buf bits x hs alone chosen tech notV m present some_bits loads fits len1 len2 bytes
  have passed : firstFail (needBuf s.cur buf s :: pathChecks buf bits s.cur s) = none := by
    rw [firstFail_needBuf, firstFail_path buf bits chosen tech, if_neg present,
      if_neg fun both => notV both.2, if_neg notV,
      if_neg (not_or.2 ⟨some_bits, not_or.2 ⟨Nat.not_lt.2 loads, Nat.not_lt.2 fits⟩⟩)]
  have effect : transmitEffect buf bits s.cur s =
      (commonTx (s.bufBytes s.cur buf m) bits.toNat s).andThen doneOk := by
    rw [transmitEffect, selTech_of_tech tech]
    cases x with
    | v => exact absurd rfl notV
    | a | b | f => rfl
  rw [exec_techFirst hs chosen passed, instrEffect, effect, commonTx_alone alone, txLenFrame_eq]
  rfl

/-- RECEIVE alone in the common path, its checks passed: what it leaves for each answer of the FIFO
(R239, R240). -/
theorem exec_receive {s : State} {buf s1 s2 : Byte} {x : Tech} (hs : s.serving)
    (alone : s.windows = []) (chosen : s.mode ≠ .none) (tech : s.tech = some x) (notV : x ≠ .v)
    (present : s.buffer s.cur buf ≠ none) (answer : s.answers 2 = [s1, s2]) :
    let m := s.afterStatus
    let count := statusCount s.cfg s1 s2
    let rbits := fifoBits count (s2.toNat / 2 % 8)
    exec (.receive buf) s = .next
      (if count = 0 then
        (m.skip 2).reply s.cur (Err.code s.cfg.rxEmptyErr :: m.freeBytes 2)
      else if s.cap s.cur buf < count then (m.skip 2).reply s.cur (0x05 :: m.freeBytes 2)
      else
        ((m.frame [s.cfg.spiFifoRead] count).store s.cur buf (m.answers count)).reply s.cur
          [0x00, BitVec.ofNat 8 rbits, BitVec.ofNat 8 (rbits / 256)]) := by
  have selected := selTech_of_tech tech
  have passed : firstFail [needBuf s.cur buf s,
      (decide (s.mode = .listener ∧ s.selTech = .v), .unmodelled)] = none := by
    rw [firstFail_needBuf_unmodelled, if_neg present, if_neg fun both => notV (selected ▸ both.2)]
  have effect : receiveEffect buf s.cur s = commonRx buf s.cur s := by
    rw [receiveEffect, selected]
    cases x with
    | v => exact absurd rfl notV
    | a | b | f => rfl
  rw [exec_techFirst hs chosen passed, instrEffect, effect, commonRx,
    opFifoRead_alone alone answer]
  dsimp only
  split
  · rfl
  · split
    · rfl
    · rw [bytes16_ofNat]
      rfl

/-- Settles O47: each of the three answers of the FIFO. -/
theorem receiveCompletes : Obligations.ReceiveCompletes := by
  unfold Obligations.ReceiveCompletes
  intro s buf s1 s2 x hs ok alone chosen tech notV present answer m count lb rbits
  have run := exec_receive hs alone chosen tech notV present answer
  refine ⟨fun empty => ⟨m.freeBytes 2, m.freeBytes_length 2, ?_⟩,
    fun overflow => ⟨m.freeBytes 2, m.freeBytes_length 2, ?_⟩, fun filled fits => ⟨_, run, ?_⟩⟩
  · exact run.trans (congrArg _ (if_pos empty))
  · have filled : count ≠ 0 := Nat.ne_of_gt (Nat.zero_lt_of_lt overflow)
    exact run.trans (congrArg _ ((if_neg filled).trans (if_pos overflow)))
  · rw [if_neg filled, if_neg (Nat.not_lt.2 fits)]
    exact State.store_reply (m := m.frame [s.cfg.spiFifoRead] count) ok present fits
      (m.answers_length count) _ _

/-- A command of the technology layer that needs a mode and runs a sequence and then direct commands,
alone: what the sequence leaves, then a frame for each direct command. -/
theorem exec_seqThenDirects {i : Instr} {s u : State} {l : List Check} {seq : List DriverCmd}
    (cmds : List Byte) (hs : s.serving) (alone : s.windows = []) (chosen : s.mode ≠ .none)
    (ran : SeqRan false seq s u) (passed : firstFail l = none)
    (effect : instrEffect i s.cur s =
      (runSeq false s.cur (seq ++ cmds.map .directCmd) s).andThen doneOk)
    (checks : instrChecks i s.cur s = techChecks s.cur s ++ l := by rfl) :
    exec i s = .next ((cmds.foldl (fun u b => u.frame [b] 0) u).reply s.cur [0x00]) := by
  rw [exec_techFirst hs chosen passed checks, effect, ran.weave_directs alone]
  rfl

/-- LISTENER_SLEEP or LISTENER_IDLE, alone (R247, R248): its sequence, then its direct commands. -/
theorem exec_listener {i : Instr} {s : State} {seq : List DriverCmd} (cmds : List Byte)
    (hs : s.serving) (alone : s.windows = []) (mode : s.mode = .listener)
    (effect : instrEffect i s.cur s =
      (runSeq false s.cur (seq ++ cmds.map .directCmd) s).andThen doneOk)
    (checks : instrChecks i s.cur s = listenerChecks s.cur s := by rfl) :
    ∃ u, SeqRan false seq s u ∧
      exec i s = .next ((cmds.foldl (fun u b => u.frame [b] 0) u).reply s.cur [0x00]) := by
  obtain ⟨u, ran⟩ := sequenceRuns s false seq alone
  have passed : firstFail [(decide (s.mode ≠ .listener), .role)] = none := by simp [mode]
  exact ⟨u, ran, exec_seqThenDirects cmds hs alone (mode_ne_none (r := .listener) mode) ran passed
    effect checks⟩

theorem listenerSleepEffect_eq {s : State} {x : Tech} (t : ThreadId) (tech : s.tech = some x) :
    listenerSleepEffect t s = (runSeq false t (sleepSeq s.cfg x) s).andThen doneOk := by
  rw [listenerSleepEffect, selTech_of_tech tech]

theorem listenerIdleEffect_eq {s : State} {x : Tech} (t : ThreadId) (tech : s.tech = some x) :
    listenerIdleEffect t s = (runSeq false t (idleSeq s.cfg x) s).andThen doneOk := by
  rw [listenerIdleEffect, selTech_of_tech tech]

/-- Of the listener's sequences only technology A's end with a direct command of their own (R249). -/
theorem listenerSeqs_of_ne (cfg : Params) {x : Tech} (notA : x ≠ .a) :
    sleepSeq cfg x = cfg.lSleep.get x ++ [] ∧ idleSeq cfg x = cfg.lIdle.get x ++ [] := by
  rw [List.append_nil, List.append_nil]
  cases x with
  | a => exact absurd rfl notA
  | b | v | f => exact ⟨rfl, rfl⟩

/-- Settles O49: each command is a sequence, which ends as `SeqRan` says, and the direct commands
that follow it: two in a short frame, one in technology A's sleep and idle, else none. -/
theorem shortFrameAndListenerComplete : Obligations.ShortFrameAndListenerComplete := by
  unfold Obligations.ShortFrameAndListenerComplete
  intro s x hs alone tech
  have sleeps := listenerSleepEffect_eq s.cur tech
  have idles := listenerIdleEffect_eq s.cur tech
  refine ⟨fun mode is => ?_, fun mode is => ?_, fun mode is => ?_, fun mode notA => ?_,
    fun mode notA => ?_⟩
  · subst is
    obtain ⟨u, ran⟩ := sequenceRuns s false s.cfg.aCrcCheckOff alone
    have chosen : s.mode ≠ .none := mode_ne_none (r := .poller) mode
    refine ⟨u, ran, exec_seqThenDirects [_, _] hs alone chosen ran ?_ rfl,
      exec_seqThenDirects [_, _] hs alone chosen ran ?_ rfl⟩
    all_goals simp [mode, selTech_of_tech tech]
  · subst is
    exact exec_listener [_] hs alone mode sleeps
  · subst is
    exact exec_listener [_] hs alone mode idles
  · rw [(listenerSeqs_of_ne s.cfg notA).1] at sleeps
    exact exec_listener [] hs alone mode sleeps
  · rw [(listenerSeqs_of_ne s.cfg notA).2] at idles
    exact exec_listener [] hs alone mode idles

end Sys2Proof.Machine
end

section
/-! The ISO15693 codec (spec/44_iso15693_codec.md): the checks of its two commands in order; the
encoder's frame byte by byte, and its inverse; the decoder's scan of short and of well-formed streams;
and TRANSMIT and RECEIVE in technology V, which go through the two. -/

namespace Sys2Proof.Machine

open Sys2Proof

/-! ## The checks of the codec commands -/

/-- The first check of both commands: an absent buffer (R264, R270). -/
theorem firstFail_absentPair (t : ThreadId) (bin bout : Byte) (s : State) (r : List Check) :
    firstFail ((s.absent t bin || s.absent t bout, .nullArg) :: r) =
      if s.buffer t bin = none ∨ s.buffer t bout = none then some .nullArg else firstFail r :=
  firstFail_cons_of_iff _ _ (by rw [Bool.or_eq_true, absent_eq_true, absent_eq_true])

/-- The checks of ISO15693_ENCODE_FRAME, in order (R264). -/
theorem firstFail_encodeChecks (bin : Byte) (n : BitVec 32) (bout : Byte) (t : ThreadId)
    (s : State) :
    firstFail (encodeChecks bin n bout t s) =
      if s.buffer t bin = none ∨ s.buffer t bout = none then some .nullArg
      else if n.toNat % 8 ≠ 0 then some .encodeLength
      else if s.cap t bin < n.toNat / 8 ∨ bin = bout then some .badOperand
      else if s.cap t bout < n.toNat / 2 + 2 then some .encodeCapacity else none := by
  have operand : (decide (n.toNat / 8 > s.cap t bin) || decide (bin = bout)) = true ↔
      s.cap t bin < n.toNat / 8 ∨ bin = bout := by
    rw [Bool.or_eq_true, decide_eq_true_iff, decide_eq_true_iff]
  rw [encodeChecks, firstFail_absentPair, encodeSizeChecks,
    firstFail_cons_of_iff _ _ decide_eq_true_iff, firstFail_cons_of_iff _ _ operand,
    firstFail_cons_of_iff _ _ decide_eq_true_iff, firstFail_nil]

/-- The checks of ISO15693_DECODE_FRAME, in order (R270). -/
theorem firstFail_decodeChecks (bin : Byte) (ibits : BitVec 32) (bout : Byte) (t : ThreadId)
    (s : State) :
    firstFail (decodeChecks bin ibits bout t s) =
      if s.buffer t bin = none ∨ s.buffer t bout = none then some .nullArg
      else if s.cap t bin < (ibits.toNat + 7) / 8 then some .badOperand else none := by
  rw [decodeChecks, firstFail_absentPair, firstFail_cons_of_iff _ _ decide_eq_true_iff,
    firstFail_nil]
  rfl

/-- Settles O18: the two lists of checks, in their order. -/
theorem checkOrderCodec : Obligations.CheckOrderCodec := by
  unfold Obligations.CheckOrderCodec
  intro s bin bout n running
  exact ⟨raises_of_firstFail running (firstFail_encodeChecks bin n bout s.cur s),
    raises_of_firstFail running (firstFail_decodeChecks bin n bout s.cur s)⟩

/-- A list of checks, as the conditions of its codes, passes where no condition holds. -/
theorem code_eq_none_iff {P : Prop} [Decidable P] {c : FatalCode} {rest : Option FatalCode} :
    (if P then some c else rest) = none ↔ ¬P ∧ rest = none := by
  by_cases fails : P
  · simp [fails]
  · simp [fails]

/-- The checks of an encode pass exactly where R264 finds no fault. -/
theorem encodeChecks_pass_iff (bin : Byte) (n : BitVec 32) (bout : Byte) (t : ThreadId)
    (s : State) :
    firstFail (encodeChecks bin n bout t s) = none ↔
      (s.buffer t bin ≠ none ∧ s.buffer t bout ≠ none) ∧ n.toNat % 8 = 0 ∧
        (n.toNat / 8 ≤ s.cap t bin ∧ bin ≠ bout) ∧ n.toNat / 2 + 2 ≤ s.cap t bout := by
  simp only [firstFail_encodeChecks, code_eq_none_iff, not_or, not_not, Nat.not_lt, and_true]

/-! ## The encoder -/

/-- A symbol, from the group's place in the number of its byte (R261, R263). -/
theorem encPat_group (cfg : Params) (x : Byte) (j : Nat) :
    encPat cfg (group x j) =
      if x.toNat / 4 ^ j % 4 = 0 then 0x02
      else if x.toNat / 4 ^ j % 4 = 1 then 0x08
      else if x.toNat / 4 ^ j % 4 = 2 then 0x20 else cfg.encPat3 := by
  have value : (group x j).toNat = x.toNat / 4 ^ j % 4 := by
    rw [group, BitVec.extractLsb'_toNat, Nat.shiftRight_eq_div_pow, Nat.pow_mul]
  simp only [encPat, BitVec.toNat_eq, value]
  rfl

/-- The four groups make up the byte, the first one least significant (R261). -/
theorem group_append (x : Byte) : group x 3 ++ group x 2 ++ group x 1 ++ group x 0 = x := by
  revert x; decide

/-- `DEC_PAT` inverts `ENC_PAT` where the four symbols are distinct (R268). -/
theorem decPat_encPat {cfg : Params} (ne0 : cfg.encPat3 ≠ 0x02) (ne1 : cfg.encPat3 ≠ 0x08)
    (ne2 : cfg.encPat3 ≠ 0x20) (g : BitVec 2) : decPat cfg (encPat cfg g) = some g := by
  have four : g = 0 ∨ g = 1 ∨ g = 2 ∨ g = 3 := by revert g; decide
  obtain rfl | rfl | rfl | rfl := four
  case inr.inr.inr =>
    change decPat cfg cfg.encPat3 = some 3
    rw [decPat, if_neg ne0, if_neg ne1, if_neg ne2, if_pos rfl]
  all_goals rfl

/-- Symbol `j` of data byte `m` (R262). -/
theorem symbols_getD (cfg : Params) (data tail : List Byte) {m j : Nat} (inside : m < data.length)
    (small : j < 4) :
    (data.flatMap (symbols cfg) ++ tail).getD (4 * m + j) 0 =
      encPat cfg (group (data.getD m 0) j) := by
  induction data generalizing m with
  | nil => exact absurd inside (Nat.not_lt_zero m)
  | cons x r ih =>
    cases m with
    | zero => interval_cases j <;> rfl
    | succ m =>
      rw [show 4 * (m + 1) + j = 4 * m + j + 4 by omega]
      exact ih (Nat.lt_of_succ_lt_succ inside)

theorem encodeFrame_symbol (cfg : Params) (data : List Byte) {m j : Nat}
    (inside : m < data.length) (small : j < 4) :
    (encodeFrame cfg data).getD (1 + 4 * m + j) 0 = encPat cfg (group (data.getD m 0) j) := by
  rw [show 1 + 4 * m + j = 4 * m + j + 1 by omega]
  exact symbols_getD cfg data [Config.txEof] inside small

theorem encodeFrame_eof (cfg : Params) (data : List Byte) :
    (encodeFrame cfg data).getD (1 + 4 * data.length) 0 = Config.txEof := by
  have size : (Config.txSof :: data.flatMap (symbols cfg)).length = 1 + 4 * data.length := by
    have := encodeFrame_length cfg data
    simp only [encodeFrame, List.length_append, List.length_singleton] at this
    omega
  rw [encodeFrame, List.getD_append_right _ _ _ _ size.le, size, Nat.sub_self]
  rfl

theorem State.bufBytes_getD (s : State) (t : ThreadId) (h : Byte) {n m : Nat} (inside : m < n) :
    (s.bufBytes t h n).getD m 0 = s.bufByte t h m := by
  simp [State.bufBytes, inside]

/-- An encode whose checks pass stores the frame of its input. -/
theorem exec_encode {s : State} {bin bout : Byte} {n : BitVec 32} (running : s.fault = none)
    (passed : firstFail (encodeChecks bin n bout s.cur s) = none) :
    exec (.iso15693EncodeFrame bin n bout) s =
      .next ((s.store s.cur bout (encodeFrame s.cfg (s.bufBytes s.cur bin (n.toNat / 8)))).reply
        s.cur (0x00 :: bytes32 (BitVec.ofNat 32 (n.toNat / 2 + 2)))) := by
  exact exec_pass running passed

/-- Settles O51: the frame of the input is stored, and nothing else. -/
theorem encodeFrameCompletes : Obligations.EncodeFrameCompletes := by
  unfold Obligations.EncodeFrameCompletes
  intro s bin bout n running ok hasIn hasOut apart whole fits room olen symbol
  have passed : firstFail (encodeChecks bin n bout s.cur s) = none :=
    (encodeChecks_pass_iff bin n bout s.cur s).2
      ⟨⟨hasIn, hasOut⟩, whole, ⟨fits, apart⟩, room⟩
  have size : (s.bufBytes s.cur bin (n.toNat / 8)).length = n.toNat / 8 := by simp
  have count : (encodeFrame s.cfg (s.bufBytes s.cur bin (n.toNat / 8))).length = olen := by
    rw [encodeFrame_length, size]
    omega
  obtain ⟨rest, bytes, caps⟩ := State.store_reply ok hasOut room count s.cur
    (0x00 :: bytes32 (BitVec.ofNat 32 olen))
  have stored {i : Nat} (inside : i < olen) := (bytes s.cur bout i).trans (if_pos ⟨rfl, rfl, inside⟩)
  refine ⟨_, exec_encode running passed, rest, stored (Nat.succ_pos _), fun m j inside small => ?_,
    ?_, fun u h j outside => (bytes u h j).trans (if_neg outside), caps⟩
  · rw [stored (show 1 + 4 * m + j < n.toNat / 2 + 2 by omega),
      encodeFrame_symbol _ _ (size.symm ▸ inside) small, State.bufBytes_getD _ _ _ inside]
    exact encPat_group s.cfg _ j
  · rw [stored (show 1 + 4 * (n.toNat / 8) < n.toNat / 2 + 2 by omega)]
    have eof := encodeFrame_eof s.cfg (s.bufBytes s.cur bin (n.toNat / 8))
    rwa [size] at eof

/-- A command that ends without a fault passed its checks. -/
theorem passed_of_noFault {i : Instr} {s t : State} (run : exec i s = .next t)
    (noFault : t.fault = none) :
    s.fault = none ∧ firstFail (instrChecks i s.cur s) = none := by
  obtain ⟨running, ⟨c, -, rfl⟩ | ⟨passed, -⟩⟩ := exec_cases run
  · cases noFault
  · exact ⟨running, passed⟩

/-- Settles O52: the bytes that EncodeFrameCompletes gives, each symbol inverted. -/
theorem encodeRoundTrip : Obligations.EncodeRoundTrip := by
  unfold Obligations.EncodeRoundTrip
  intro s t bin bout n ok ne0 ne1 ne2 run noFault
  obtain ⟨running, passed⟩ := passed_of_noFault run noFault
  obtain ⟨⟨hasIn, hasOut⟩, whole, ⟨fits, apart⟩, room⟩ :=
    (encodeChecks_pass_iff bin n bout s.cur s).1 passed
  obtain ⟨t', run', -, sof, symbol, eof, -, -⟩ :=
    encodeFrameCompletes s bin bout n running ok hasIn hasOut apart whole fits room
  obtain rfl : t' = t := Host.Outcome.next.inj (run'.symm.trans run)
  refine ⟨sof, ?_, fun m inside => ?_⟩
  · rwa [show n.toNat / 2 + 2 - 1 = 1 + 4 * (n.toNat / 8) by omega]
  · have inverse {j : Nat} (small : j < 4) :
        decPat s.cfg (t'.bufByte s.cur bout (1 + 4 * m + j)) =
          some (group (s.bufByte s.cur bin m) j) := by
      rw [symbol m j inside small, ← decPat_encPat ne0 ne1 ne2]
      exact congrArg _ (encPat_group s.cfg _ j).symm
    exact ⟨_, _, _, _, inverse (j := 0) (by decide), inverse (j := 1) (by decide),
      inverse (j := 2) (by decide), inverse (j := 3) (by decide), group_append _⟩

/-! ## The decoder's scan -/

theorem DecodeOut.push_eq_ok {b : Bool} {out : DecodeOut} {bits : List Bool} :
    out.push b = .ok bits ↔ ∃ later, out = .ok later ∧ b :: later = bits := by
  cases out <;> simp [DecodeOut.push]

/-- A scan delivers no more bits than there is room for (R278): it ends at EOF, fails, or delivers a
data bit into the room (the third and fifth case) and goes on. -/
theorem scan_length_le {cfg : Params} {l : List Bool} {room : Nat} {bits : List Bool}
    (ends : scan cfg l room = .ok bits) : bits.length ≤ room := by
  fun_induction scan cfg l room generalizing bits with
  | case1 => cases ends; exact Nat.zero_le _
  | case2 | case4 | case6 | case7 | case8 => cases ends
  | case3 | case5 =>
    rename_i ih
    obtain ⟨later, scanned, rfl⟩ := DecodeOut.push_eq_ok.1 ends
    exact Nat.succ_le_succ (ih scanned)

/-- Where at most `SOF_SIZE` bits remain there is no EOF to find (R273, R274). -/
theorem scan_short (cfg : Params) {l : List Bool} (room : Nat) (short : l.length ≤ 5) :
    scan cfg l room = .fail .dataFormat := by
  unfold scan
  split
  · split
    · simp only [List.length_cons] at short
      omega
    · rfl
  · rfl

theorem decodeStream_length_le {cfg : Params} {bytes : List Byte} {ibits room : Nat}
    {bits : List Bool} (ends : decodeStream cfg bytes ibits room = .ok bits) :
    bits.length ≤ room := by
  unfold decodeStream at ends
  split at ends
  · cases ends
  · split at ends
    · cases ends
    · split at ends
      · cases ends
      · exact scan_length_le ends

/-- A stream that fails the SOF test, whatever its length (R271). -/
theorem decodeStream_noSof {cfg : Params} {bytes : List Byte} (ibits room : Nat)
    (sof : sofMatch cfg bytes = false) : decodeStream cfg bytes ibits room = .fail .dataFormat := by
  simp [decodeStream, sof]

/-- A byte that holds the SOF and no more of a frame (R272). -/
theorem decodeStream_eight {cfg : Params} {bytes : List Byte} (room : Nat)
    (sof : sofMatch cfg bytes = true) :
    decodeStream cfg bytes 8 room = .fail .incompleteFrame := by
  simp [decodeStream, sof]

/-- Of any other length, a stream with the SOF is scanned from the first bit after it (R274). -/
theorem decodeStream_scan {cfg : Params} {bytes : List Byte} {ibits : Nat} (room : Nat)
    (sof : sofMatch cfg bytes = true) (some_bits : ibits ≠ 0) (notEight : ibits ≠ 8) :
    decodeStream cfg bytes ibits room = scan cfg ((streamOf bytes ibits).drop 5) room := by
  rw [decodeStream, if_neg some_bits, sof, if_neg (by decide), if_neg notEight]
  rfl

/-- A stream too short to hold both SOF and EOF (R273). -/
theorem decodeStream_short {cfg : Params} {bytes : List Byte} {ibits : Nat} (room : Nat)
    (sof : sofMatch cfg bytes = true) (some_bits : ibits ≠ 0) (notEight : ibits ≠ 8)
    (short : ibits ≤ 10) : decodeStream cfg bytes ibits room = .fail .dataFormat := by
  rw [decodeStream_scan room sof some_bits notEight]
  refine scan_short cfg room ?_
  rw [List.length_drop, streamOf, List.length_map, List.length_range]
  omega

/-! ## Well-formed streams -/

/-- The inbound code has the default values of R113. -/
structure InboundDefaults (cfg : Params) : Prop where
  rxSof : cfg.rxSof = 0x17
  eofMask : cfg.eofMask = 0x1F
  rxEof : cfg.rxEof = 0x1D
  patMask : cfg.patMask = 0x03
  rxPat0 : cfg.rxPat0 = 0x01
  rxPat1 : cfg.rxPat1 = 0x02

/-- The stream bits of SOF (R269). -/
def sofPattern : List Bool := [true, true, true, false, true]

/-- The two stream bits of a data bit (R276). -/
def dataPattern (b : Bool) : List Bool := [!b, b]

/-- The stream bits of EOF (R275). -/
def eofPattern : List Bool := [true, false, true, true, true]

/-- The stream bits of a frame after its SOF. -/
def afterSof (bits trail : List Bool) : List Bool :=
  bits.flatMap dataPattern ++ (eofPattern ++ trail)

theorem afterSof_cons (b : Bool) (bits trail : List Bool) :
    afterSof (b :: bits) trail = (!b) :: b :: afterSof bits trail := rfl

/-- At every scan position of a frame the first two bits differ, and more follow. -/
theorem afterSof_begins (bits trail : List Bool) :
    ∃ c d e r, afterSof bits trail = c :: (!c) :: d :: e :: r := by
  cases bits with
  | nil => exact ⟨true, true, true, true :: trail, rfl⟩
  | cons b bits =>
    refine ⟨!b, ?_⟩
    rw [Bool.not_not, afterSof_cons]
    cases bits with
    | nil => exact ⟨_, _, _, rfl⟩
    | cons => exact ⟨_, _, _, rfl⟩

/-- A data bit's window is no EOF, since the two bits after it differ; so the bit is decoded, if
there is room (R275, R276, R278). -/
theorem scan_dataBit {cfg : Params} (defaults : InboundDefaults cfg) (b : Bool)
    (bits trail : List Bool) (room : Nat) :
    scan cfg ((!b) :: b :: afterSof bits trail) room =
      if room = 0 then .fail cfg.decodeOvfErr
      else (scan cfg (afterSof bits trail) (room - 1)).push b := by
  obtain ⟨c, d, e, r, begins⟩ := afterSof_begins bits trail
  have notEof : ∀ b c d : Bool, window (!b) b c (!c) d &&& 0x1F ≠ 0x1D := by decide
  have pattern : ∀ b c d : Bool,
      window (!b) b c (!c) d &&& 0x03 = if b then 0x02 else 0x01 := by decide
  rw [begins]
  simp only [scan, defaults.eofMask, defaults.rxEof, defaults.patMask, defaults.rxPat0,
    defaults.rxPat1, pattern, if_neg (notEof b c d)]
  cases b <;> cases room <;> rfl

/-- EOF ends the scan where a bit follows it (R275, R284). -/
theorem scan_eof {cfg : Params} (defaults : InboundDefaults cfg) (trail : List Bool) (room : Nat) :
    scan cfg (eofPattern ++ trail) room = if trail = [] then .fail .dataFormat else .ok [] := by
  cases trail with
  | nil => exact scan_short cfg room (le_refl 5)
  | cons b trail =>
    rw [if_neg (List.cons_ne_nil b trail), eofPattern]
    simp only [List.cons_append, List.nil_append, scan, defaults.eofMask, defaults.rxEof]
    rfl

/-- The scan of a frame, by its data bits. -/
theorem scan_afterSof {cfg : Params} (defaults : InboundDefaults cfg) (bits trail : List Bool)
    (room : Nat) :
    scan cfg (afterSof bits trail) room =
      if bits.length ≤ room then (if trail = [] then .fail .dataFormat else .ok bits)
      else .fail cfg.decodeOvfErr := by
  induction bits generalizing room with
  | nil => exact (scan_eof defaults trail room).trans (if_pos (Nat.zero_le room)).symm
  | cons b bits ih =>
    rw [afterSof_cons, scan_dataBit defaults, ih]
    cases room with
    | zero => rfl
    | succ room =>
      simp only [if_neg (Nat.succ_ne_zero room), Nat.add_sub_cancel, List.length_cons,
        Nat.add_le_add_iff_right]
      split
      · split <;> rfl
      · rfl

/-- A stream's first byte holds its first eight bits (R14). -/
theorem streamBit_first (bytes : List Byte) {k : Nat} (first : k < 8) :
    streamBit bytes k = (bytes.headD 0).getLsbD k := by
  rw [streamBit, Nat.div_eq_of_lt first, Nat.mod_eq_of_lt first]
  cases bytes <;> rfl

theorem streamOf_getD (bytes : List Byte) {n k : Nat} (inside : k < n) :
    (streamOf bytes n).getD k false = streamBit bytes k := by
  simp [streamOf, inside]

/-- A stream that begins with the default SOF passes the SOF test (R269, R113). -/
theorem sofMatch_of_stream {cfg : Params} {bytes : List Byte} {n : Nat} {rest : List Bool}
    (sof : cfg.rxSof = 0x17) (stream : streamOf bytes n = sofPattern ++ rest) :
    sofMatch cfg bytes = true := by
  have long : n = rest.length + 5 := by
    simpa [streamOf, sofPattern] using congrArg List.length stream
  have bit (k : Nat) (inside : k < 5) :
      (bytes.headD 0).getLsbD k = sofPattern.getD k false := by
    rw [← List.getD_append sofPattern rest false k inside, ← stream,
      ← streamBit_first bytes (by omega), streamOf_getD bytes (by omega)]
  have low : ∀ x : Byte,
      (∀ k < 5, x.getLsbD k = sofPattern.getD k false) → x.extractLsb' 0 5 = 0x17 := by decide
  rw [sofMatch, decide_eq_true_iff, sof, low _ bit]

/-- Settles O54: the SOF passes, and the scan reads the data bits up to the EOF. -/
theorem decodeGoodFrame : Obligations.DecodeGoodFrame := by
  unfold Obligations.DecodeGoodFrame
  intro cfg bytes bits trail room sof eofMask eof patMask pat0 pat1 n stream
  have patterns : (fun b => if b = true then [false, true] else [true, false]) = dataPattern := by
    funext b
    cases b <;> rfl
  rw [patterns, List.append_assoc, List.append_assoc] at stream
  have decoded : decodeStream cfg bytes n room =
      if bits.length ≤ room then (if trail = [] then .fail .dataFormat else .ok bits)
      else .fail cfg.decodeOvfErr := by
    rw [decodeStream_scan room (sofMatch_of_stream sof stream) (by omega) (by omega), stream]
    exact scan_afterSof ⟨sof, eofMask, eof, patMask, pat0, pat1⟩ bits trail room
  refine ⟨fun further => ?_, fun cut fits => ?_⟩
  · rw [decoded, if_neg further]
  · rw [decoded, if_pos fits, if_pos cut]

/-! ## A decode into a buffer -/

theorem byteOfBits_getLsbD (f : Nat → Bool) {i : Nat} (inside : i < 8) :
    (byteOfBits f).getLsbD i = f i := by
  have push {w : Nat} (x : BitVec w) (b : Bool) (k : Nat) :
      (x ++ BitVec.ofBool b).getLsbD k = if k = 0 then b else x.getLsbD (k - 1) :=
    BitVec.getLsbD_concat x b k
  rw [byteOfBits]
  interval_cases i <;> simp only [push, BitVec.getLsbD_ofBool] <;> rfl

/-- A decoded bit's place in the packed bytes (R279). -/
theorem packBits_getLsbD {bits : List Bool} {free : List Byte} {k : Nat} (decoded : k < bits.length)
    (fits : bits.length ≤ 8 * free.length) :
    ((packBits bits free).getD (k / 8) 0).getLsbD (k % 8) = bits.getD k false := by
  have byte : (packBits bits free).getD (k / 8) 0 =
      byteOfBits fun i => bits.getD (8 * (k / 8) + i) ((free.getD (k / 8) 0).getLsbD i) := by
    have inside : k / 8 < free.length := by omega
    simp [packBits, inside]
  rw [byte, byteOfBits_getLsbD _ (Nat.mod_lt k (by decide)), Nat.div_add_mod]
  simp [decoded]

/-- `u` is what decoding `ibits` raw bits into thread `t`'s buffer `h` leaves of `s`: no field but the
buffers and the counter of free values differs; of the buffers only bytes of `h` do (log 35); and
there the decoded bits stand at their places, the others being unspecified (R279, log 13). -/
structure DecodedInto (raw : List Byte) (ibits : Nat) (h : Byte) (t : ThreadId) (s u : State) :
    Prop where
  rest : { u with bufs := s.bufs, draws := s.draws } = s
  bytes : ∀ v k j, ¬(v = t ∧ k = h ∧ j < s.cap t h) → u.bufByte v k j = s.bufByte v k j
  caps : ∀ v k, u.cap v k = s.cap v k
  data : ∀ bits, decodeStream s.cfg raw ibits (8 * s.cap t h) = .ok bits → ∀ k < bits.length,
    (u.bufByte t h (k / 8)).getLsbD (k % 8) = bits.getD k false

/-- A decode writes the buffers and the counter of free values, and nothing else. -/
theorem decodeInto_rest (raw : List Byte) (ibits : Nat) (h : Byte) (t : ThreadId) (s : State) :
    { (decodeInto raw ibits h t s).2 with bufs := s.bufs, draws := s.draws } = s := by
  obtain ⟨_, only⟩ := (s.skip (s.cap t h)).store_only t h
    (packBits (decodeStream s.cfg raw ibits (8 * s.cap t h)).bits (s.freeBytes (s.cap t h)))
  rw [decodeInto, only]
  rfl

/-- What a byte of a buffer reads after a decode: the packed bits in the whole of the buffer decoded
into, every other byte what it was before. -/
theorem bufByte_decodeInto {s : State} {h : Byte} {t : ThreadId} (raw : List Byte) (ibits : Nat)
    (ok : s.bufsOk) (present : s.buffer t h ≠ none) (v : ThreadId) (k : Byte) (j : Nat) :
    let d := decodeInto raw ibits h t s
    d.2.bufByte v k j = if v = t ∧ k = h ∧ j < s.cap t h
      then (packBits d.1.bits (s.freeBytes (s.cap t h))).getD j 0 else s.bufByte v k j := by
  intro d
  have size : (packBits d.1.bits (s.freeBytes (s.cap t h))).length = s.cap t h := by simp
  have stored := (s.skip (s.cap t h)).bufByte_store ok t v h k _ size.le present j
  rwa [size] at stored

theorem decodeInto_decodedInto {s : State} {h : Byte} {t : ThreadId} (raw : List Byte)
    (ibits : Nat) (ok : s.bufsOk) (present : s.buffer t h ≠ none) :
    DecodedInto raw ibits h t s (decodeInto raw ibits h t s).2 := by
  have reads := bufByte_decodeInto raw ibits ok present
  refine ⟨decodeInto_rest raw ibits h t s, fun v k j outside => (reads v k j).trans (if_neg outside),
    fun v k => (s.skip _).cap_store t v h k _, fun bits decoded k inside => ?_⟩
  have fits := decodeStream_length_le decoded
  have out : (decodeInto raw ibits h t s).1 = .ok bits := decoded
  rw [reads, if_pos ⟨rfl, rfl, by omega⟩, out]
  exact packBits_getLsbD inside (by rw [State.freeBytes_length]; exact fits)

/-- Drawing free values and returning a record leave a decode's buffers as they are. -/
theorem DecodedInto.reply {raw : List Byte} {ibits : Nat} {h : Byte} {t : ThreadId} {s u : State}
    (decoded : DecodedInto raw ibits h t s u) (n d : Nat) (v : ThreadId) (record : List Byte) :
    { (u.skip n).reply v record with bufs := s.bufs, draws := d } =
      { s.reply v record with draws := d } :=
  congrArg (fun m : State => { m.reply v record with draws := d }) decoded.rest

/-! ## ISO15693_DECODE_FRAME -/

/-- The record of ISO15693_DECODE_FRAME (R270, R281, log 12). -/
def decodeRecord : DecodeOut → List Byte
  | .ok bits => 0x00 :: bytes32 (BitVec.ofNat 32 bits.length)
  | .fail e => [Err.code e]

theorem decodeEffect_eq (bin : Byte) (ibits : BitVec 32) (bout : Byte) (t : ThreadId) (s : State) :
    decodeEffect bin ibits bout t s =
      let d := decodeInto (s.bufBytes t bin ((ibits.toNat + 7) / 8)) ibits.toNat bout t s
      .go (decodeRecord d.1) d.2 := by
  rw [decodeEffect, bytesFor]
  split
  · rename_i d
    rw [d]
    rfl
  · rename_i d
    rw [d]
    rfl

/-- A decode whose checks pass returns its count or its error. -/
theorem exec_decode {s : State} {bin bout : Byte} {ibits : BitVec 32} (running : s.fault = none)
    (hasIn : s.buffer s.cur bin ≠ none) (hasOut : s.buffer s.cur bout ≠ none)
    (fits : (ibits.toNat + 7) / 8 ≤ s.cap s.cur bin) :
    let d := decodeInto (s.bufBytes s.cur bin ((ibits.toNat + 7) / 8)) ibits.toNat bout s.cur s
    exec (.iso15693DecodeFrame bin ibits bout) s = .next (d.2.reply s.cur (decodeRecord d.1)) := by
  have passed : firstFail (instrChecks (.iso15693DecodeFrame bin ibits bout) s.cur s) = none := by
    rw [instrChecks, firstFail_decodeChecks, if_neg (not_or.2 ⟨hasIn, hasOut⟩),
      if_neg (Nat.not_lt.2 fits)]
  rw [exec_pass running passed, instrEffect, decodeEffect_eq]
  rfl

/-- Settles O53: what a decode leaves of the buffers, and its record. -/
theorem decodeFrameCompletes : Obligations.DecodeFrameCompletes := by
  unfold Obligations.DecodeFrameCompletes
  intro s bin bout ibits running ok hasIn hasOut fits raw
  have decoded := decodeInto_decodedInto raw ibits.toNat ok hasOut
  refine ⟨_, _, exec_decode running hasIn hasOut fits, decoded.reply 0 s.draws _ _, decoded.bytes,
    decoded.caps, ?_⟩
  split
  · rename_i bits out
    exact ⟨congrArg decodeRecord out, decoded.data bits out⟩
  · rename_i e out
    exact congrArg decodeRecord out

/-- The low five bits of a byte, as a field of it and as a byte (R269). -/
theorem low_eq_iff (x : Byte) (y : BitVec 5) :
    x.extractLsb' 0 5 = y ↔ x &&& 0x1F = y.zeroExtend 8 := by
  have masked : ∀ x : Byte, x &&& 0x1F = (x.extractLsb' 0 5).zeroExtend 8 := by decide
  rw [masked]
  refine ⟨fun is => congrArg _ is, fun is => BitVec.eq_of_toNat_eq ?_⟩
  have values := congrArg BitVec.toNat is
  simp only [BitVec.truncate_eq_setWidth, BitVec.toNat_setWidth] at values
  omega

/-- The SOF test of the bytes of a buffer, at least one being read (R269). -/
theorem sofMatch_bufBytes (s : State) (t : ThreadId) (h : Byte) {n : Nat} (some_bytes : n ≠ 0) :
    sofMatch s.cfg (s.bufBytes t h n) = true ↔
      s.bufByte t h 0 &&& 0x1F = s.cfg.rxSof.zeroExtend 8 := by
  obtain ⟨n, rfl⟩ := Nat.exists_eq_succ_of_ne_zero some_bytes
  have first : (s.bufBytes t h (n + 1)).headD 0 = s.bufByte t h 0 := by
    simp [State.bufBytes, List.range_succ_eq_map]
  rw [sofMatch, first, decide_eq_true_iff, low_eq_iff]

/-- Settles O55: the record is the decode's, and each short stream has its own. -/
theorem shortStreams : Obligations.ShortStreams := by
  unfold Obligations.ShortStreams
  intro s bin bout ibits running hasIn hasOut fits sof
  have sofIff (some_bits : ibits ≠ 0) :
      sofMatch s.cfg (s.bufBytes s.cur bin ((ibits.toNat + 7) / 8)) = true ↔ sof :=
    sofMatch_bufBytes s s.cur bin (by
      have := mt (toNat_eq_zero_iff ibits).1 some_bits
      omega)
  let d := decodeInto (s.bufBytes s.cur bin ((ibits.toNat + 7) / 8)) ibits.toNat bout s.cur s
  have results : d.2.results = s.results := (congrArg State.results (decodeInto_rest ..) :)
  refine ⟨_, decodeRecord d.1, exec_decode running hasIn hasOut fits, congrArg (· ++ _) results,
    fun empty => ?_, fun some_bits noSof => ?_, fun eight passes => ?_,
    fun some_bits notEight short passes => ?_⟩
  · subst empty
    rfl
  · exact congrArg decodeRecord
      (decodeStream_noSof _ _ (Bool.eq_false_iff.2 fun is => noSof ((sofIff some_bits).1 is)))
  · subst eight
    exact congrArg decodeRecord (decodeStream_eight _ ((sofIff (by decide)).2 passes))
  · refine congrArg decodeRecord (decodeStream_short _ ((sofIff some_bits).2 passes) ?_ ?_ short)
    · exact mt (toNat_eq_zero_iff ibits).1 some_bits
    · exact fun is => notEight (BitVec.eq_of_toNat_eq is)

/-! ## TRANSMIT and RECEIVE in technology V -/

/-- Settles O46: the checks pass, and the effect is the common transmit of the encoder's frame. -/
theorem transmitPollerVCompletes : Obligations.TransmitPollerVCompletes := by
  unfold Obligations.TransmitPollerVCompletes
  intro s buf bits hs alone mode tech olen present whole fits room loads len1 len2 data
  have chosen : s.mode ≠ .none := mode_ne_none (r := .poller) mode
  have passed : firstFail (needBuf s.cur buf s :: pathChecks buf bits s.cur s) = none := by
    rw [firstFail_needBuf, firstFail_path buf bits chosen tech, if_neg present,
      if_neg (by simp [mode]), if_pos rfl, if_neg (not_not.2 whole), if_neg (Nat.not_lt.2 fits),
      if_neg (Nat.not_lt.2 room), if_neg (Nat.not_lt.2 loads)]
  have effect : transmitEffect buf bits s.cur s =
      (commonTx (encodeFrame s.cfg data) (8 * olen) s).andThen doneOk := by
    rw [transmitEffect, selTech_of_tech tech]
    rfl
  have lengths : txLenFrame s.cfg (8 * olen) =
      [s.cfg.spiRegWrite ++ s.cfg.regTxLen1, len1, len2] := by
    rw [txLenFrame_eq, Nat.mul_div_cancel_left olen (by decide), Nat.mul_mod_right]
    rfl
  rw [exec_techFirst hs chosen passed, instrEffect, effect, commonTx_alone alone, lengths]
  rfl

/-- The record of RECEIVE for a decode; `free` stands in the place of `rbits` after an error (R240,
R283, log 11). -/
def receiveRecord (free : List Byte) : DecodeOut → List Byte
  | .ok bits => [0x00, BitVec.ofNat 8 bits.length, BitVec.ofNat 8 (bits.length / 256)]
  | .fail e => Err.code e :: free

/-- How many free values that record takes. -/
def receiveDraws : DecodeOut → Nat
  | .ok _ => 0
  | .fail _ => 2

/-- RECEIVE alone in (Poller, V), its checks passed: what it leaves for each answer of the FIFO
(R283). -/
theorem exec_receive_pollerV {s : State} {buf s1 s2 : Byte} (hs : s.serving)
    (alone : s.windows = []) (mode : s.mode = .poller) (tech : s.tech = some .v)
    (present : s.buffer s.cur buf ≠ none) (answer : s.answers 2 = [s1, s2]) :
    let m := s.afterStatus
    let count := statusCount s.cfg s1 s2
    let d := decodeInto (m.answers count) (fifoBits count (s2.toNat / 2 % 8)) buf s.cur
      (m.frame [s.cfg.spiFifoRead] count)
    exec (.receive buf) s = .next
      (if count = 0 then
        (m.skip 2).reply s.cur (Err.code s.cfg.rxEmptyErr :: m.freeBytes 2)
      else if s.cfg.vRawCap < count then (m.skip 2).reply s.cur (0x05 :: m.freeBytes 2)
      else (d.2.skip (receiveDraws d.1)).reply s.cur (receiveRecord (d.2.freeBytes 2) d.1)) := by
  have passed : firstFail [needBuf s.cur buf s,
      (decide (s.mode = .listener ∧ s.selTech = .v), .unmodelled)] = none := by
    rw [firstFail_needBuf_unmodelled, if_neg present, if_neg (by simp [mode])]
  have effect : receiveEffect buf s.cur s = pollerRxV buf s.cur s := by
    rw [receiveEffect, selTech_of_tech tech]
  rw [exec_techFirst hs (mode_ne_none (r := .poller) mode) passed, instrEffect, effect, pollerRxV,
    opFifoUnload_alone alone answer]
  dsimp only
  split
  · rfl
  · split
    · rfl
    · split
      · rename_i d
        rw [d, bytes16_ofNat]
        rfl
      · rename_i d
        rw [d]
        rfl

/-- Settles O48: each of the three answers of the FIFO; the third is decoded. -/
theorem receivePollerVCompletes : Obligations.ReceivePollerVCompletes := by
  unfold Obligations.ReceivePollerVCompletes
  intro s buf s1 s2 hs ok alone mode tech present answer m count lb rbits
  have run := exec_receive_pollerV hs alone mode tech present answer
  refine ⟨fun empty => ⟨m.freeBytes 2, m.freeBytes_length 2, ?_⟩,
    fun overflow => ⟨m.freeBytes 2, m.freeBytes_length 2, ?_⟩, fun filled fits => ?_⟩
  · exact run.trans (congrArg _ (if_pos empty))
  · have filled : count ≠ 0 := Nat.ne_of_gt (Nat.zero_lt_of_lt overflow)
    exact run.trans (congrArg _ ((if_neg filled).trans (if_pos overflow)))
  · let d := decodeInto (m.answers count) rbits buf s.cur (m.frame [s.cfg.spiFifoRead] count)
    have decoded : DecodedInto (m.answers count) rbits buf s.cur
      (m.frame [s.cfg.spiFifoRead] count) d.2 := decodeInto_decodedInto _ _ ok present
    have out : decodeStream s.cfg (m.answers count) rbits (8 * s.cap s.cur buf) = d.1 := rfl
    have ran : exec (.receive buf) s = .next ((d.2.skip (receiveDraws d.1)).reply s.cur
        (receiveRecord (d.2.freeBytes 2) d.1)) :=
      run.trans (congrArg _ ((if_neg filled).trans (if_neg (Nat.not_lt.2 fits))))
    clear_value d
    refine ⟨_, _, ran, decoded.reply _ s.draws _ _, decoded.bytes, decoded.caps, ?_⟩
    rw [out]
    cases is : d.1 with
    | ok bits => exact ⟨rfl, decoded.data bits (out.trans is)⟩
    | fail e => exact ⟨_, State.freeBytes_length _ 2, rfl⟩

/-- A command of the technology layer whose first failing check stands after the mode's raises its
code. -/
theorem exec_techFault {i : Instr} {s : State} {l : List Check} {c : FatalCode} (hs : s.serving)
    (chosen : s.mode ≠ .none) (fails : firstFail l = some c)
    (checks : instrChecks i s.cur s = techChecks s.cur s ++ l := by rfl) :
    exec i s = .next { s with fault := some c } := by
  obtain ⟨running, ready, held⟩ := hs
  refine raises_of_techFirst running (fun _ => fails) checks c ?_
  rw [arbiterCode, if_neg (not_not.2 ready), if_neg (not_not.2 held), if_neg chosen]

/-- Settles O50: the session and the mode pass, the operand too, and the last check fails. -/
theorem listenerVUnmodelled : Obligations.ListenerVUnmodelled := by
  unfold Obligations.ListenerVUnmodelled
  intro s h bits tmo hs mode tech present fits i listed
  have chosen : s.mode ≠ .none := mode_ne_none (r := .listener) mode
  simp only [List.mem_cons, List.not_mem_nil, or_false] at listed
  obtain rfl | rfl | rfl := listed
  · refine exec_techFault (l := needBuf s.cur h s :: pathChecks h bits s.cur s) hs chosen ?_
    rw [firstFail_needBuf, firstFail_path h bits chosen tech, if_neg present, if_pos ⟨mode, rfl⟩]
  · refine exec_techFault hs chosen (firstFail_needBuf_unmodelled h s _ |>.trans ?_)
    rw [if_neg present, if_pos ⟨mode, selTech_of_tech tech⟩]
  · refine exec_techFault (l := [durCheck s.cfg tmo, _]) hs chosen ?_
    rw [firstFail_durCheck, if_neg (Nat.not_le.2 fits), firstFail_cons_of_iff _ _ decide_eq_true_iff,
      if_pos ⟨mode, tech⟩]

end Sys2Proof.Machine
end

section
/-! The controller (spec/45_controller.md): the lock while the block is uninitialised; the checks of
the controller's commands, in order; INIT and DEINIT with their sequences; ACQUIRE, its end in a fair
run and RELEASE; and the field operations, alone. -/

namespace Sys2Proof.Machine

open Sys2Proof

/-! ## The lock while uninitialised (R313) -/

/-- The lock is free while the block is uninitialised. -/
def State.FreeUninit (s : State) : Prop := s.phase = .uninit → s.holder = none

theorem State.FreeUninit.of_eq {s t : State} (hs : s.FreeUninit) (phase : t.phase = s.phase)
    (holder : t.holder = s.holder) : t.FreeUninit := by
  rwa [State.FreeUninit, phase, holder]

theorem State.FreeUninit.of_ready {s : State} (ready : s.phase = .ready) : s.FreeUninit :=
  fun uninit => nomatch ready.symm.trans uninit

/-- Of the commands without frames only ACQUIRE gives the lock to a thread. -/
theorem Writes.holder {i : Instr} {t : ThreadId} {s s' : State} (h : Writes t s s' i) :
    s'.holder = s.holder ∨ s'.holder = none ∨ i = .acquire := by
  cases h with
  | timerStartFc tm d x ticks which up eq => subst eq; simp
  | timerStop tm x which eq => subst eq; simp
  | acquireTakes free eq => exact .inr (.inr rfl)
  | release held eq => subst eq; exact .inr (.inl rfl)
  | _ => subst s'; exact .inl rfl

/-- ACQUIRE's checks passed only in an initialised block, and no command without frames writes the
phase. -/
theorem Writes.freeUninit {i : Instr} {t : ThreadId} {s s' : State}
    (passed : firstFail (instrChecks i t s) = none) (h : Writes t s s' i) (hs : s.FreeUninit) :
    s'.FreeUninit := by
  rcases h.holder with same | free | rfl
  · exact hs.of_eq h.apart.phase same
  · exact fun _ => free
  · have ready : s.phase = .ready := session_of_checks passed
    exact .of_ready (h.apart.phase.trans ready)

/-- INIT leaves an initialised block or writes neither phase nor lock; DEINIT ends only with a free
lock (log 7). -/
theorem Finishes.freeUninit {i : Instr} {t : ThreadId} {m s' : State} (h : Finishes t m s' i)
    (hm : m.FreeUninit) : s'.FreeUninit := by
  cases h with
  | setMode | resetMode => subst s'; exact hm
  | initFails e eq => subst eq; exact hm.of_eq (by simp) (by simp)
  | initDone uninit eq => subst eq; exact .of_ready rfl
  | deinit free unset eq => subst eq; exact fun _ => free

/-- A blocked ACQUIRE takes the lock only of an initialised block (log 6). -/
theorem State.FreeUninit.acquireTake {s : State} (hs : s.FreeUninit) (t : ThreadId) :
    (s.acquireTake t).FreeUninit := by
  unfold State.acquireTake
  split
  · rename_i taken
    obtain ⟨-, -, ready⟩ := taken
    exact .of_ready ready
  · exact hs

theorem wake_holder (s : State) : s.wake.holder = s.holder := by
  unfold State.wake
  split
  · rfl
  · split <;> rfl

theorem waitTimeout_holder (s : State) : s.waitTimeout.holder = s.holder := by
  unfold State.waitTimeout
  split <;> rfl

/-- Every write keeps the lock free while the block is uninitialised. -/
theorem preserved_freeUninit :
    Preserved (fun _ => True) True fun s t : State => s.FreeUninit → t.FreeUninit where
  trans h k hs := k (h hs)
  quiet h hs := hs.of_eq h.phase h.holder
  issue _ _ _ _ hs := hs
  fault _ _ hs := hs
  writes _ passed _ h := h.freeUninit passed
  finishes _ := Finishes.freeUninit
  acquireTake _ t hs := hs.acquireTake t
  wake s _ hs := hs.of_eq (apart_wake s).phase (wake_holder s)
  waitTimeout s hs := hs.of_eq (apart_waitTimeout s).phase (waitTimeout_holder s)
  giveBuffer _ _ _ _ hs := hs.of_eq (by simp) (by simp)

/-- Settles O13: every write keeps it, and the reset event frees the lock. -/
theorem lockFreeWhileUninit : Obligations.LockFreeWhileUninit := by
  unfold Obligations.LockFreeWhileUninit
  exact ⟨fun _ => rfl, fun _ _ => preserved_freeUninit.step_keeps fun _ _ _ => rfl⟩

/-! ## The checks of the controller's commands -/

theorem firstFail_initChecks (s : State) :
    firstFail (initChecks s) = if s.phase = .ready then some .illegalCommand else none :=
  firstFail_cons_of_iff _ _ decide_eq_true_iff

theorem firstFail_needReady (s : State) (r : List Check) :
    firstFail (needReady s :: r) = if s.phase ≠ .ready then some .notInit else firstFail r :=
  firstFail_cons_of_iff _ _ decide_eq_true_iff

/-- DEINIT's checks (R301). -/
theorem firstFail_deinitChecks (s : State) :
    firstFail (deinitChecks s) =
      if s.phase ≠ .ready then some .notInit
      else if s.holder ≠ none ∨ s.mode ≠ .none then some .contextLive else none := by
  have live : (decide (s.holder ≠ none) || decide (s.mode ≠ .none)) = true ↔
      s.holder ≠ none ∨ s.mode ≠ .none := by
    rw [Bool.or_eq_true, decide_eq_true_iff, decide_eq_true_iff]
  rw [deinitChecks, firstFail_needReady, firstFail_cons_of_iff _ _ live, firstFail_nil]

theorem firstFail_releaseChecks (t : ThreadId) (s : State) :
    firstFail (releaseChecks t s) = if s.holder ≠ some t then some .notHolder else none :=
  firstFail_cons_of_iff _ _ decide_eq_true_iff

/-- Settles O19: each command's checks as the lemmas above say; those of the field operations are the
arbiter's (R311). -/
theorem checkOrderController : Obligations.CheckOrderController := by
  unfold Obligations.CheckOrderController
  intro s running
  refine ⟨raises_of_firstFail running (firstFail_initChecks s),
    raises_of_firstFail running (firstFail_deinitChecks s),
    raises_of_firstFail running (firstFail_needReady s []),
    raises_of_firstFail running (firstFail_releaseChecks s.cur s), fun i listed => ?_⟩
  refine raises_of_arbiterFirst (l := []) running rfl ?_
  simp only [List.mem_cons, List.not_mem_nil, or_false] at listed
  rcases listed with rfl | rfl | rfl | rfl <;> rfl

/-! ## INIT and DEINIT -/

/-- What INIT leaves of the state after its sequence, for the outcome taken there (R300, log 17). -/
def State.afterInit (u : State) (t : ThreadId) : State :=
  match u.bringup with
  | .ok => { u.afterBringup with phase := .ready, lp := true }.reply t [0x00]
  | .communication => u.afterBringup.reply t [0x02]
  | .oscillator => u.afterBringup.reply t [0x04]

/-- INIT alone: its sequence, then the outcome (R300). -/
theorem exec_init {s u : State} (running : s.fault = none) (uninit : s.phase = .uninit)
    (alone : s.windows = []) (ran : SeqRan false s.cfg.bringupSeq s u) :
    exec .init s = .next (u.afterInit s.cur) := by
  have passed : firstFail (instrChecks .init s.cur s) = none :=
    (firstFail_initChecks s).trans (if_neg (by simp [uninit]))
  rw [exec_pass running passed, instrEffect, initEffect, ran.weave alone, State.afterInit]
  cases u.bringup <;> rfl

/-- The arbiter's reset values, in an uninitialised block (R301, log 10). -/
def State.afterDeinit (u : State) : State :=
  { u with
    fwt := ⟨false, false, false, 0, 0⟩, btx := ⟨false, false, false, 0, 0⟩
    lp := true, evf := 0, irqAcc := 0, phase := .uninit }

/-- DEINIT's last step, after its last frame: not enabled while the lock is held or a mode is
selected (R313, log 7). -/
def State.endDeinit (u : State) : Prog (List Byte) :=
  if u.holder ≠ none ∨ u.mode ≠ .none then .void else .go [0x00] u.afterDeinit

theorem deinitEffect_eq (t : ThreadId) (s : State) :
    deinitEffect t s = (runSeq false t s.cfg.deinitSeq s).andThen fun _ => State.endDeinit := rfl

section Deinit
variable {s u : State} (running : s.fault = none) (ready : s.phase = .ready)
  (free : s.holder = none) (unset : s.mode = .none)
include running ready free unset

/-- DEINIT, its checks passed, runs its effect. -/
theorem exec_deinit_pass :
    exec .deinit s = .next (((deinitEffect s.cur s).weave []).close s) := by
  refine exec_pass running ((firstFail_deinitChecks s).trans ?_)
  rw [if_neg (not_not.2 ready), if_neg (by simp [free, unset])]

/-- DEINIT's sequence ends, with any steps between its frames: the last step is taken where the lock
is free and no mode is selected, else nothing happens (log 4, log 7). -/
theorem exec_deinit_go (ran : (runSeq false s.cur s.cfg.deinitSeq s).weave [] = .go () u) :
    exec .deinit s = .next
      (if u.holder = none ∧ u.mode = .none then u.afterDeinit.reply s.cur [0x00] else s) := by
  have parts := (runSeq false s.cur s.cfg.deinitSeq s).weave_andThen (fun _ => State.endDeinit) []
  rw [ran] at parts
  obtain ⟨rest, ends⟩ := parts
  rw [exec_deinit_pass running ready free unset, deinitEffect_eq, ends, State.endDeinit]
  by_cases enabled : u.holder = none ∧ u.mode = .none
  · rw [if_pos enabled, if_neg (by simp [enabled])]
    rfl
  · rw [if_neg enabled, if_pos (by rwa [← not_and_or])]
    rfl

/-- DEINIT's sequence is ended by a halt or a reset between its frames. -/
theorem exec_deinit_stop (ran : (runSeq false s.cur s.cfg.deinitSeq s).weave [] = .stop u) :
    exec .deinit s = .next u := by
  have ends := (runSeq false s.cur s.cfg.deinitSeq s).weave_andThen (fun _ => State.endDeinit) []
  rw [ran] at ends
  rw [exec_deinit_pass running ready free unset, deinitEffect_eq, ends, Run.stop_close]

end Deinit

/-- Settles O56: INIT's sequence and outcome; the three ends of DEINIT's sequence; alone it has the
first, with lock and mode as before. -/
theorem initAndDeinitComplete : Obligations.InitAndDeinitComplete := by
  unfold Obligations.InitAndDeinitComplete
  refine fun s running => ⟨fun alone uninit => ?_, fun ready free unset => ⟨fun alone => ?_, ?_⟩⟩
  · obtain ⟨u, ran⟩ := sequenceRuns s false s.cfg.bringupSeq alone
    refine ⟨u, ran, ?_⟩
    rw [exec_init running uninit alone ran, State.afterInit]
    cases u.bringup <;> rfl
  · obtain ⟨u, ran⟩ := sequenceRuns s false s.cfg.deinitSeq alone
    have kept : u.holder = none ∧ u.mode = .none :=
      ⟨(congrArg State.holder ran.rest :).trans free, (congrArg State.mode ran.rest :).trans unset⟩
    refine ⟨u, ran, ?_⟩
    rw [exec_deinit_go running ready free unset ran.runs, if_pos kept]
    rfl
  · cases ran : (runSeq false s.cur s.cfg.deinitSeq s).weave [] with
    | go _ u =>
      have ends := exec_deinit_go running ready free unset ran
      dsimp only
      split <;> rename_i enabled
      · exact ends.trans (congrArg _ (if_pos enabled))
      · exact ends.trans (congrArg _ (if_neg enabled))
    | stop u => exact exec_deinit_stop running ready free unset ran
    | void => exact (runSeq_calm s.cur false s.cfg.deinitSeq s).weave_ne_void running ran

/-! ## ACQUIRE and RELEASE -/

section Acquire
variable {s : State} {t : ThreadId}

theorem acquireChecks_pass (ready : s.phase = .ready) :
    firstFail (instrChecks .acquire t s) = none :=
  (firstFail_needReady s []).trans (if_neg (not_not.2 ready))

theorem releaseChecks_pass (held : s.holder = some t) :
    firstFail (instrChecks .release t s) = none :=
  (firstFail_releaseChecks t s).trans (if_neg (not_not.2 held))

/-- The free lock is taken (R302). -/
theorem acquireEffect_free (free : s.holder = none) :
    instrEffect .acquire t s = .go [0x00] { s with holder := some t } := by
  simp [instrEffect, acquireEffect, free, okRecord]

/-- The holder itself is told Busy (R302). -/
theorem acquireEffect_own (held : s.holder = some t) :
    instrEffect .acquire t s = .go [0x01] s := by
  rw [instrEffect, acquireEffect, if_pos held]
  rfl

/-- Behind another holder the thread blocks (R302). -/
theorem acquireEffect_held (held : s.holder ≠ none) (other : s.holder ≠ some t) :
    instrEffect .acquire t s = .stop { s with acquirers := s.acquirers ++ [t] } := by
  rw [instrEffect, acquireEffect, if_neg other, if_neg held]

/-- A blocked ACQUIRE takes the free lock of an initialised block (R302, log 6). -/
theorem acquireTake_takes (blocked : t ∈ s.acquirers) (free : s.holder = none)
    (ready : s.phase = .ready) : s.acquireTake t =
      { s with holder := some t, acquirers := s.acquirers.filter (· ≠ t) }.reply t [0x00] :=
  if_pos ⟨blocked, free, ready⟩

/-- The timeout of a blocked ACQUIRE (R302). -/
theorem agentStep_acquireTimeout (running : s.fault = none) (blocked : t ∈ s.acquirers) :
    agentStep (.acquireTimeout t) s =
      { s with acquirers := s.acquirers.filter (· ≠ t) }.reply t [0x01] :=
  (if_neg (not_halted running)).trans (if_pos blocked)

/-- Another thread's command between two frames that ends at once returns its record. -/
theorem windowStep_command_go {i : Instr} {record bytes rest : List Byte} {others : List Pending}
    {m : State} (other : t ≠ s.cur) (idle : s.blocked t = false)
    (free : inProgress t others = false) (running : s.fault = none)
    (decoded : decode bytes = .ok (i, rest)) (inner : lifecycle i = false)
    (passed : firstFail (instrChecks i t s) = none)
    (effect : instrEffect i t s = .go record m) :
    windowStep (.command t bytes) others s = (others, m.reply t record) := by
  rw [windowStep, otherCommand_pass other idle free running decoded inner passed, effect, settle]

end Acquire

/-- From `s` to `m` the thread's ACQUIRE, if it is blocked, stays blocked or has got a result. -/
def AcquireAnswered (t : ThreadId) (s m : State) : Prop :=
  ∃ given, m.results = s.results ++ given ∧
    (t ∈ s.acquirers → t ∈ m.acquirers ∨ ∃ r ∈ given, r.thread = t)

theorem AcquireAnswered.trans {t : ThreadId} {s m k : State} (h : AcquireAnswered t s m)
    (g : AcquireAnswered t m k) : AcquireAnswered t s k := by
  obtain ⟨first, hfirst, early⟩ := h
  obtain ⟨later, hlater, late⟩ := g
  refine ⟨first ++ later, by rw [hlater, hfirst, List.append_assoc], fun blocked => ?_⟩
  rcases early blocked with still | ⟨r, hr, is⟩
  · exact (late still).imp id fun ⟨r, hr, is⟩ => ⟨r, List.mem_append_right _ hr, is⟩
  · exact .inr ⟨r, List.mem_append_left _ hr, is⟩

/-- A write that unblocks no ACQUIRE and only adds results. -/
theorem AcquireAnswered.of_subset {t : ThreadId} {s m : State}
    (results : ∃ given, m.results = s.results ++ given) (acquirers : s.acquirers ⊆ m.acquirers) :
    AcquireAnswered t s m :=
  let ⟨given, e⟩ := results
  ⟨given, e, fun blocked => .inl (acquirers blocked)⟩

/-- A command without frames unblocks no ACQUIRE. -/
theorem Writes.acquirers {i : Instr} {t : ThreadId} {s s' : State} (h : Writes t s s' i) :
    s.acquirers ⊆ s'.acquirers := by
  cases h with
  | timerStartFc tm d x ticks which up eq => subst eq; simp
  | timerStop tm x which eq => subst eq; simp
  | acquireBlocks held eq => subst eq; exact List.subset_append_left _ _
  | _ => subst s'; exact List.Subset.refl _

/-- What a command with frames writes after its last frame unblocks no ACQUIRE. -/
theorem Finishes.acquirers {i : Instr} {t : ThreadId} {m s' : State} (h : Finishes t m s' i) :
    s'.acquirers = m.acquirers := by
  cases h with
  | initFails e eq | initDone uninit eq => subst eq; simp
  | _ => subst s'; rfl

theorem wake_acquirers (s : State) : s.wake.acquirers = s.acquirers := by
  unfold State.wake
  split
  · rfl
  · split <;> rfl

theorem waitTimeout_acquirers (s : State) : s.waitTimeout.acquirers = s.acquirers := by
  unfold State.waitTimeout
  split <;> rfl

/-- The thread that takes the lock is the one that leaves the queue, and it gets a result. -/
theorem acquireAnswered_take (t : ThreadId) (s : State) (u : ThreadId) :
    AcquireAnswered t s (s.acquireTake u) := by
  unfold State.acquireTake
  split
  · refine ⟨_, rfl, fun blocked => ?_⟩
    by_cases same : t = u
    · exact .inr ⟨_, List.mem_singleton_self _, same.symm⟩
    · exact .inl (List.mem_filter.2 ⟨blocked, decide_eq_true same⟩)
  · exact .of_subset ⟨[], by simp⟩ (List.Subset.refl _)

/-- Every write of the machine leaves an ACQUIRE blocked or gives its thread a result. -/
theorem preserved_acquireAnswered (t : ThreadId) :
    Preserved (fun _ => True) True (AcquireAnswered t) where
  trans := AcquireAnswered.trans
  quiet h :=
    let ⟨given, e, answered⟩ := h.results
    ⟨given, e, answered t⟩
  issue _ _ _ _ := .of_subset ⟨[], by simp⟩ (List.Subset.refl _)
  fault _ _ := .of_subset ⟨[], by simp⟩ (List.Subset.refl _)
  writes _ _ _ h := .of_subset h.apart.results h.acquirers
  finishes _ h := .of_subset h.waiter.2 (by simp [h.acquirers])
  acquireTake := acquireAnswered_take t
  wake s _ := .of_subset (apart_wake s).results (by simp [wake_acquirers])
  waitTimeout s := .of_subset (apart_waitTimeout s).results (by simp [waitTimeout_acquirers])
  giveBuffer _ _ _ _ := .of_subset ⟨[], by simp⟩ (by simp)

/-- In a fair run a blocked ACQUIRE ends with a result, or the block is reset (R378 a). -/
theorem acquire_answered {state : Nat → State} {item : Nat → SchedItem} {n : Nat} {t : ThreadId}
    (run : Execution state item) (fair : Fair state item) (blocked : t ∈ (state n).acquirers) :
    ∃ m, n ≤ m ∧ ((item m).resets = true ∨
      ∃ v ∈ (item m).states (state m), ∃ given, v.results = (state n).results ++ given ∧
        ∃ r ∈ given, r.thread = t) := by
  obtain ⟨m, hm, v, hv, ended⟩ := fair.acquire n t blocked
  rcases (preserved_acquireAnswered t).run run n (fun _ _ _ _ _ _ _ => trivial)
    (fun _ _ _ => trivial) m hm v hv with ⟨k, hk, reset⟩ | ⟨⟨given, results, answer⟩, -⟩
  · exact ⟨k, hk, .inl reset⟩
  · exact ⟨m, hm, .inr ⟨v, hv, given, results, (answer blocked).resolve_left ended⟩⟩

/-- Settles O57: fairness ends a blocked ACQUIRE, and no step ends it without a result; the three
branches of the effect, the two ends of a blocked one, and the steps between DEINIT's frames. -/
theorem acquireCompletes : Obligations.AcquireCompletes := by
  unfold Obligations.AcquireCompletes
  refine ⟨fun state item n t run fair blocked => acquire_answered run fair blocked, ?_⟩
  intro s t rest others running ready
  have pass := exec_pass running (acquireChecks_pass ready)
  refine ⟨fun free => ?_, fun held => ?_, fun held other => ?_, fun blocked free head => ?_,
    fun blocked head => ?_, fun other idle unstarted free => ?_,
    fun other idle unstarted held => ?_, fun blocked free => ?_⟩
  · rw [pass, acquireEffect_free free, Prog.weave_go, Run.go_close]
  · rw [pass, acquireEffect_own held, Prog.weave_go, Run.go_close]
  · rw [pass, acquireEffect_held held other, Prog.weave_stop, Run.stop_close]
  · rw [step_item s _ rest head running, schedStep,
      acquireTake_takes (by exact blocked) (by exact free) (by exact ready)]
  · rw [step_item s _ rest head running, schedStep,
      agentStep_acquireTimeout (by exact running) (by exact blocked)]
  · exact windowStep_command_go other idle unstarted running rfl rfl (acquireChecks_pass ready)
      (acquireEffect_free free)
  · exact windowStep_command_go other idle unstarted running rfl rfl (releaseChecks_pass held) rfl
  · rw [windowStep, acquireTake_takes blocked free ready]

/-- Settles O58: the holder's check passes, any other thread's fails, and a halted block runs no
command. -/
theorem releaseCompletes : Obligations.ReleaseCompletes := by
  unfold Obligations.ReleaseCompletes
  refine fun s => ⟨fun running held => exec_pass running (releaseChecks_pass held),
    fun running other => ?_, fun c => exec_halted .release⟩
  exact raises_of_firstFail (i := .release) running (firstFail_releaseChecks s.cur s) _
    (if_pos other)

/-! ## The field operations -/

/-- A register read that begins a command: its one frame, and its answer handed on. -/
theorem opRegRead_andThen {β : Type} {s : State} {v : Byte} (a : Byte)
    (answer : s.answers 1 = [v]) (c : Byte → State → Prog β) :
    (opRegRead false a s).andThen c = c v (s.afterRead a) := by
  simp only [opRegRead, busFrame_first, Prog.go_andThen, answer, List.headD_cons, readFrame_eq,
    State.afterRead]

/-- Settles O59: the read, then, unless the bit is set, the sequence, which ends as `SeqRan` says. -/
theorem fieldOnCompletes : Obligations.FieldOnCompletes := by
  unfold Obligations.FieldOnCompletes
  intro s v hs answer a m
  have run : exec .fieldOn s = .next (((if v &&& s.cfg.opcTxEn ≠ 0 then .go [0x00] m
      else (runSeq true s.cur s.cfg.fieldOnSeq m).andThen doneOk).weave []).close s) := by
    rw [exec_arbiterFirst (l := []) hs rfl, instrEffect, fieldOnEffect,
      opRegRead_andThen _ answer]
    rfl
  refine ⟨fun on => ?_, fun off alone => ?_⟩
  · rw [run, if_pos on, Prog.weave_go, Run.go_close]
  · obtain ⟨u, ran⟩ := sequenceRuns m true s.cfg.fieldOnSeq alone
    have ends : ((runSeq true s.cur s.cfg.fieldOnSeq m).andThen doneOk).weave [] = .go [0x00] u :=
      ran.weave alone doneOk
    refine ⟨u, ran, ?_⟩
    rw [run, if_neg (not_not.2 off), ends, Run.go_close]

/-- A field operation that runs one sequence, alone. -/
theorem exec_fieldSeq {i : Instr} {s : State} {seq : List DriverCmd} (hs : s.serving)
    (alone : s.windows = [])
    (effect : instrEffect i s.cur s = (runSeq false s.cur seq s).andThen doneOk)
    (checks : instrChecks i s.cur s = fieldChecks s.cur s := by rfl) :
    ∃ u, SeqRan false seq s u ∧ exec i s = .next (u.reply s.cur [0x00]) := by
  obtain ⟨u, ran⟩ := sequenceRuns s false seq alone
  refine ⟨u, ran, ?_⟩
  rw [exec_arbiterFirst (l := []) hs rfl checks, effect, ran.weave alone]
  rfl

/-- Settles O60: two sequences, and one read whose answer is tested against the mask. -/
theorem fieldDetectionCompletes : Obligations.FieldDetectionCompletes := by
  unfold Obligations.FieldDetectionCompletes
  intro s v hs
  refine ⟨fun alone => exec_fieldSeq hs alone rfl, fun alone => exec_fieldSeq hs alone rfl,
    fun answer => ?_⟩
  rw [exec_arbiterFirst (l := []) hs rfl, instrEffect, fieldPresentEffect,
    opRegRead_andThen _ answer]
  rfl

end Sys2Proof.Machine
end

section
/-! The halted state and fault entry (spec/60_exceptions.md): only reset leaves a fault (R327); the
first failing check of a command, or of another thread's record between its frames, is the only way
into it (R326, R329); and what a step in interrupt context writes (R334). -/

namespace Sys2Proof.Machine

open Sys2Proof

/-! ## The halted state -/

/-- In a halted block no agent takes a step (R327). -/
theorem agentStep_halted (a : AgentStep) {s : State} {c : FatalCode} (halted : s.fault = some c) :
    agentStep a s = s :=
  if_pos (by simp [State.halted, halted])

theorem haltedStep_of_ne_reset {item : SchedItem} (c : FatalCode) (s : State)
    (other : item ≠ .reset) : haltedStep item c s = .fault (.halted c) := by
  cases item with
  | reset => exact absurd rfl other
  | _ => rfl

/-- Settles O7: a halted block runs no command and no agent, and of the schedule it takes the reset
event alone. -/
theorem haltedOnlyResetMoves : Obligations.HaltedOnlyResetMoves := by
  unfold Obligations.HaltedOnlyResetMoves
  intro s c halted
  refine ⟨fun i => exec_halted i halted, fun a => agentStep_halted a halted,
    fun item rest sched other => ?_, fun rest sched => ?_⟩
  · rw [step_halted s item rest c sched halted, haltedStep_of_ne_reset c _ other]
  · exact ⟨_, step_halted s .reset rest c sched halted, State.blockReset_fault _⟩

/-! ## Fault entry -/

/-- No command raises a fault after its last frame. -/
theorem Finishes.fault {i : Instr} {t : ThreadId} {m s' : State} (h : Finishes t m s' i) :
    s'.fault = m.fault := by
  cases h with
  | initFails e eq | initDone uninit eq => subst eq; simp
  | _ => subst s'; rfl

/-- A command whose checks passed ends in a fault only by a record of another thread in one of its
windows: its own frames and writes, and a reset there, leave no fault. -/
theorem Does.fault_from_window {i : Instr} {t : ThreadId} {s s' : State} {c : FatalCode}
    (h : Does Tame i t s s') (running : s.fault = none) (faulted : s'.fault = some c) :
    ∃ u record, Ahead s (.command u record) := by
  rcases h with ⟨m, tame, rfl | finishes⟩ |
    ⟨m, -, ⟨_, ahead, u, record, _, rfl, -⟩ | ⟨-, rfl⟩⟩ | writes
  · exact nomatch faulted.symm.trans (tame.fault.trans running)
  · exact nomatch faulted.symm.trans (finishes.fault.trans (tame.fault.trans running))
  · exact ⟨u, record, ahead⟩
  · exact nomatch faulted
  · exact nomatch faulted.symm.trans (writes.apart.fault.trans running)

/-- A record of another thread between two frames takes its first failing check as a fault. -/
theorem otherCommand_fail {t : ThreadId} {record r : List Byte} {others : List Pending} {s : State}
    {i : Instr} {c : FatalCode} (other : t ≠ s.cur) (idle : s.blocked t = false)
    (fresh : inProgress t others = false) (running : s.fault = none)
    (decodes : decode record = .ok (i, r)) (inner : lifecycle i = false)
    (fails : firstFail (instrChecks i t s) = some c) :
    otherCommand t record others s = (others, s.takeFault c) := by
  simp [otherCommand, State.halted, other, idle, fresh, running, decodes, inner, fails]

/-- Settles O14: a failed check is a fault at once; a command whose checks passed meets one only in
a window, where another thread's record takes it the same way. -/
theorem failedCheckIsFault : Obligations.FailedCheckIsFault := by
  unfold Obligations.FailedCheckIsFault
  intro i s running
  refine ⟨fun c fails => (exec_checked i s).trans (checked_fail _ running fails),
    fun t c run faulted => ?_, fun u record others j r c other idle fresh decodes inner fails =>
      otherCommand_fail other idle fresh running decodes inner fails⟩
  obtain ⟨-, ⟨d, fails, rfl⟩ | ⟨passed, -, does⟩⟩ := exec_cases run
  · obtain rfl : d = c := Option.some.inj faulted
    exact .inl ⟨fails, rfl⟩
  · obtain ⟨u, record, w, listed, issued⟩ := does.fault_from_window running faulted
    exact .inr ⟨passed, w, listed, u, record, issued⟩

/-! ## Interrupt context (R334) -/

/-- What a step in interrupt context may write: the flags, the causes, the drain's own state, a
status read's frame with the bytes it takes, and a timer's pending expiry. Causes are only added and
an expiry is only cleared. -/
structure InterruptWrites (s t : State) : Prop where
  only : t = { s with
    evf := t.evf, irqAcc := t.irqAcc, irqAgent := t.irqAgent, bus := t.bus
    chipIn := t.chipIn, draws := t.draws
    fwt := { s.fwt with pend := t.fwt.pend }, btx := { s.btx with pend := t.btx.pend } }
  causes : t.irqAcc &&& s.irqAcc = s.irqAcc
  fwt : s.fwt.pend = false → t.fwt.pend = false
  btx : s.btx.pend = false → t.btx.pend = false

theorem InterruptWrites.refl (s : State) : InterruptWrites s s :=
  ⟨rfl, Nat.and_self _, id, id⟩

/-- Adding causes keeps every cause that is set (R186). -/
theorem causes_or_and_self (a b : Nat) : (a ||| b) &&& a = a :=
  Nat.eq_of_testBit_eq fun k => by simp [Bool.and_or_distrib_right]

theorem interruptWrites_drainEnter {s : State} (running : s.fault = none) :
    InterruptWrites s (agentStep .drainEnter s) := by
  rw [agentStep_drainEnter running]
  split
  · exact ⟨rfl, Nat.and_self _, id, id⟩
  · exact .refl s

/-- The drain's loop: only a status read adds causes (R186). -/
theorem interruptWrites_drainStep (s : State) : InterruptWrites s s.drainStep := by
  cases agent : s.irqAgent with
  | idle => rw [drainStep_idle agent]; exact .refl s
  | draining =>
    cases line : s.irqLine with
    | true =>
      rw [drainStep_reads agent line]
      exact ⟨rfl, causes_or_and_self .., id, id⟩
    | false => rw [drainStep_exits agent line]; exact ⟨rfl, Nat.and_self _, id, id⟩

theorem interruptWrites_deliver {s : State} (k : TimerId) (running : s.fault = none) :
    InterruptWrites s (agentStep (.deliver k) s) := by
  rw [agentStep_deliver running]
  split
  · cases k with
    | fwt => exact ⟨rfl, Nat.and_self _, fun _ => rfl, id⟩
    | btx => exact ⟨rfl, Nat.and_self _, id, fun _ => rfl⟩
  · exact .refl s

/-- Settles O39: each of the three steps writes what `InterruptWrites` says, and, as every agent's
step, it clears no flag and only adds frames. -/
theorem interruptContext : Obligations.InterruptContext := by
  unfold Obligations.InterruptContext
  intro s a inInterrupt t
  have kept : Quiet s t := quiet_agentStep a s
  have writes : InterruptWrites s t := by
    cases fault : s.fault with
    | some c => exact (agentStep_halted a fault).symm ▸ InterruptWrites.refl s
    | none =>
      obtain rfl | rfl | ⟨k, rfl⟩ := inInterrupt
      · exact interruptWrites_drainEnter fault
      · have loop : t = s.drainStep := if_neg (not_halted fault)
        exact loop ▸ interruptWrites_drainStep s
      · exact interruptWrites_deliver k fault
  exact ⟨writes.only, kept.toSpares.evf_and, writes.causes, kept.bus, writes.fwt, writes.btx⟩

end Sys2Proof.Machine
end

section
/-! Reset and the steps that issue no command (spec/70_reset_and_hazards.md): what is usable before
INIT (R364); an empty schedule (R361), an agent's step, a blocked thread's record and a host buffer
given; and the reset event (R360, R52). -/

namespace Sys2Proof.Machine

open Sys2Proof

/-! ## Before INIT (R364) -/

/-- The codes of a command that is not usable yet: the block is not initialised, or the lock is not
the thread's. -/
def FatalCode.ofSession (c : FatalCode) : Prop := c = .notInit ∨ c = .noLock ∨ c = .notHolder

/-- The four commands that are usable before INIT. -/
def UsableBeforeInit (i : Instr) : Prop :=
  i = .init ∨ i = .abortRequest ∨ (∃ b n o, i = .iso15693EncodeFrame b n o) ∨
    ∃ b n o, i = .iso15693DecodeFrame b n o

/-- The checks of phase and lock; the last one is RELEASE's. -/
def sessionChecks (t : ThreadId) (s : State) : List Check :=
  [needReady s, needLock t s, (decide (s.holder ≠ some t), .notHolder)]

/-- Before INIT all of them fail, since the lock is free (R313). -/
theorem sessionChecks_fail {s : State} {t : ThreadId} (uninit : s.phase = .uninit)
    (free : s.holder = none) {check : Check} (listed : check ∈ sessionChecks t s) :
    ∃ c : FatalCode, c.ofSession ∧ check = (true, c) := by
  have notReady : decide (s.phase ≠ .ready) = true := by simp [uninit]
  have notHeld : decide (s.holder ≠ some t) = true := by simp [free]
  simp only [sessionChecks, needReady, needLock, notReady, notHeld, List.mem_cons,
    List.not_mem_nil, or_false] at listed
  obtain rfl | rfl | rfl := listed
  · exact ⟨_, .inl rfl, rfl⟩
  · exact ⟨_, .inr (.inl rfl), rfl⟩
  · exact ⟨_, .inr (.inr rfl), rfl⟩

/-- Every other command begins with one of them: a driver command with the lock (R139), RELEASE with
its holder (R304), the rest with the phase. -/
theorem instrChecks_begin {i : Instr} (unusable : ¬UsableBeforeInit i) (t : ThreadId) (s : State) :
    ∃ check ∈ sessionChecks t s, ∃ r, instrChecks i t s = check :: r := by
  cases i with
  | init => exact absurd (.inl rfl) unusable
  | abortRequest => exact absurd (.inr (.inl rfl)) unusable
  | iso15693EncodeFrame b n o => exact absurd (.inr (.inr (.inl ⟨b, n, o, rfl⟩))) unusable
  | iso15693DecodeFrame b n o => exact absurd (.inr (.inr (.inr ⟨b, n, o, rfl⟩))) unusable
  | regRead | regWrite | regReadBurst | regWriteBurst | regChangeBits | regSetBits | regClearBits
  | testRegRead | testRegWrite | fifoWrite | fifoRead | directCmd =>
    exact ⟨_, .tail _ (.head _), _, rfl⟩
  | release => exact ⟨_, .tail _ (.tail _ (.head _)), _, rfl⟩
  | _ => exact ⟨_, .head _, _, rfl⟩

/-- The usable commands check neither phase nor lock, but that INIT is not repeated. -/
theorem usable_codes {i : Instr} (usable : UsableBeforeInit i) {t : ThreadId} {s : State}
    {check : Check} (listed : check ∈ instrChecks i t s) : ¬check.2.ofSession := by
  obtain rfl | rfl | ⟨b, n, o, rfl⟩ | ⟨b, n, o, rfl⟩ := usable
  · obtain rfl := List.mem_singleton.1 listed
    nofun
  · exact nomatch listed
  · simp only [instrChecks, encodeChecks, encodeSizeChecks, List.mem_cons, List.not_mem_nil,
      or_false] at listed
    obtain rfl | rfl | rfl | rfl := listed <;> nofun
  · simp only [instrChecks, decodeChecks, List.mem_cons, List.not_mem_nil, or_false] at listed
    obtain rfl | rfl := listed <;> nofun

/-- A running block answers every command with a next state. -/
theorem exec_answers (i : Instr) {s : State} (running : s.fault = none) :
    ∃ t, exec i s = .next t := by
  cases reports : firstFail (instrChecks i s.cur s) with
  | some c => exact ⟨_, (exec_checked i s).trans (checked_fail _ running reports)⟩
  | none => exact ⟨_, exec_pass running reports⟩

/-- With no steps of others between its frames a command faults with what its checks report, or not
at all. -/
theorem exec_fault_alone {i : Instr} {s t : State} (alone : s.windows = [])
    (run : exec i s = .next t) : t.fault = firstFail (instrChecks i s.cur s) := by
  obtain ⟨running, ⟨c, reports, rfl⟩ | ⟨passed, -, does⟩⟩ := exec_cases run
  · exact reports.symm
  · rw [passed, Option.eq_none_iff_forall_ne_some]
    intro c faulted
    obtain ⟨u, record, w, listed, -⟩ := does.fault_from_window running faulted
    simp [alone] at listed

/-- Settles O20: any other command begins with a check of phase or lock, which fails; the four have
no such check, and alone a command faults by its checks only. -/
theorem beforeInitOnlyFour : Obligations.BeforeInitOnlyFour := by
  unfold Obligations.BeforeInitOnlyFour
  intro i s running uninit free
  refine ⟨fun unusable => ?_, fun usable alone => ?_⟩
  · obtain ⟨check, listed, r, begins⟩ := instrChecks_begin unusable s.cur s
    obtain ⟨c, session, rfl⟩ := sessionChecks_fail uninit free listed
    exact ⟨c, session, (exec_checked i s).trans
      (checked_fail _ running (congrArg firstFail begins))⟩
  · obtain ⟨t, run⟩ := exec_answers i running
    have other (c : FatalCode) (session : c.ofSession) : t.fault ≠ some c := by
      intro faulted
      obtain ⟨pre, post, checks, -⟩ :=
        (firstFail_eq_some _ c).1 ((exec_fault_alone alone run).symm.trans faulted)
      exact usable_codes usable (checks ▸ List.mem_append_right pre (.head post)) session
    exact ⟨t, run, other _ (.inl rfl), other _ (.inr (.inl rfl)), other _ (.inr (.inr rfl))⟩

/-! ## A host buffer given (R50, R104) -/

/-- A buffer of the given bytes reads them. -/
theorem read_bufferOf {bytes : List Byte} {j : Nat} (inside : j < bytes.length) :
    Memory.read (bufferOf bytes).mem j = bytes.getD j 0 :=
  (Memory.read_writeList bytes [] 0 bytes.length rfl (Nat.zero_add _).le j).trans
    (if_pos ⟨Nat.zero_le j, by rwa [Nat.zero_add]⟩)

section GiveBuffer
variable (s : State) (t : ThreadId) {h : Byte} (bytes : List Byte)

/-- Giving a buffer writes the buffer table and nothing else. -/
theorem State.giveBuffer_only (h : Byte) : { s.giveBuffer t h bytes with bufs := s.bufs } = s := by
  unfold State.giveBuffer
  split <;> rfl

/-- Handle 0xFF names no buffer (R104). -/
theorem State.giveBuffer_none : s.giveBuffer t 0xFF bytes = s := if_pos rfl

theorem State.buffer_giveBuffer_same (names : h ≠ 0xFF) :
    (s.giveBuffer t h bytes).buffer t h = some (bufferOf bytes) := by
  rw [State.giveBuffer, if_neg names, State.buffer, if_neg names, bufGet_bufPut, if_pos rfl]

/-- Two handles never name one buffer (log 35). -/
theorem State.buffer_giveBuffer_other {u : ThreadId} {k : Byte} (other : ¬(u = t ∧ k = h)) :
    (s.giveBuffer t h bytes).buffer u k = s.buffer u k := by
  unfold State.giveBuffer
  split
  · rfl
  · have key : bufKey u k ≠ bufKey t h := fun e => other (bufKey_inj e)
    simp [State.buffer, bufGet_bufPut, key]

theorem State.cap_giveBuffer (names : h ≠ 0xFF) :
    (s.giveBuffer t h bytes).cap t h = bytes.length := by
  rw [State.cap, s.buffer_giveBuffer_same t bytes names]
  rfl

theorem State.bufByte_giveBuffer (names : h ≠ 0xFF) {j : Nat} (inside : j < bytes.length) :
    (s.giveBuffer t h bytes).bufByte t h j = bytes.getD j 0 := by
  rw [State.bufByte, s.buffer_giveBuffer_same t bytes names, ← read_bufferOf inside]
  rfl

end GiveBuffer

/-! ## The steps that issue no command -/

/-- With no item the block takes no step (R361, log 4). -/
theorem step_empty {s : State} (empty : s.sched = []) : step s = .next s := by
  simp [step, empty]

/-- A blocked thread's record is not issued (log 24). -/
theorem issue_blocked {t : ThreadId} {s : State} (record : List Byte) (w : List (List WindowStep))
    (blocked : s.blocked t = true) : issue t record w s = .next s :=
  if_pos blocked

/-- Settles O6: the head of the schedule is taken as `schedStep` says, and a buffer given is read
back through its own handle alone. -/
theorem stepOfOtherItems : Obligations.StepOfOtherItems := by
  unfold Obligations.StepOfOtherItems
  intro s running
  refine ⟨step_empty, fun a rest head => step_item s _ rest head running,
    fun t record w rest head blocked =>
      (step_command running head).trans (issue_blocked record w blocked),
    fun t h bytes rest head => ?_⟩
  refine ⟨_, step_item s _ rest head running, State.giveBuffer_only _ t bytes h, ?_,
    fun names => ⟨?_, State.cap_giveBuffer _ t bytes names,
      fun j => State.bufByte_giveBuffer _ t bytes names⟩,
    fun u k => State.buffer_giveBuffer_other _ t bytes⟩
  · rintro rfl
    rw [State.giveBuffer_none]
  · rw [State.buffer_giveBuffer_same _ t bytes names]
    exact Option.some_ne_none _

/-! ## The reset event (R360) -/

/-- Reset is available from every state (R360): a running block takes it as an item, and it is the
one item left to a halted block (R336). -/
theorem step_reset {s : State} {rest : List SchedItem} (head : s.sched = .reset :: rest) :
    step s = .next (State.blockReset { s with sched := rest }) := by
  cases fault : s.fault with
  | none => exact step_item s .reset rest head fault
  | some c => exact step_halted s .reset rest c head fault

/-- Settles O8: the reset event is taken in every state, and each field of R52 has its value in the
state after reset, from which the event takes them. -/
theorem resetLeavesBlockState : Obligations.ResetLeavesBlockState := by
  unfold Obligations.ResetLeavesBlockState
  refine ⟨fun s rest head => ⟨_, step_reset head, rfl⟩, fun t reset => ?_⟩
  obtain rfl | ⟨s, rfl⟩ := reset
  · exact ⟨rfl, rfl, rfl, rfl, rfl, rfl, rfl, rfl, rfl, rfl, rfl, rfl, rfl, rfl, rfl⟩
  · exact ⟨rfl, rfl, rfl, rfl, rfl, rfl, rfl, rfl, rfl, rfl, rfl, rfl, rfl, rfl, rfl⟩

end Sys2Proof.Machine
end
